-- ==== Sys2Proof/Word.lean ====
section
/-! DEFINITION. The word types of the machine (00_scope.md R8, R11, R12). -/

namespace Sys2Proof

/-- An 8-bit value: a general register, a memory byte, a timer (R8). -/
abbrev Byte := BitVec 8

/-- A 16-bit value: pc, I, a stack entry, an instruction word (R8). -/
abbrev Word := BitVec 16

/-- One of the four 4-bit fields of an instruction word (R12, R17). -/
abbrev Nibble := BitVec 4

end Sys2Proof
end

