-- ==== Sys2Proof/Config.lean ====
section
/-! DEFINITION. The configuration of one block: variant, quirk record and font bytes
(00_scope.md R10, 10_state.md R45 to R48), and the free value RANDOM (R10, R142).
What depends on a variant (sizes, defaults, font tables) is in Machine/Params.lean. -/

namespace Sys2Proof

/-- The instruction set the block executes (R2, R45). -/
inductive Variant where
  | chip8
  | schip
  | xochip
  deriving DecidableEq, Repr

/-- The quirk record: eight independent booleans (R46). -/
structure Quirks where
  /-- 8XY1, 8XY2, 8XY3 set VF to 0 after the operation (R134 to R136). -/
  vfReset : Bool
  /-- FX55 and FX65 add X+1 to I after the copy (R155, R156). -/
  memoryIncrement : Bool
  /-- DXYN on a step that is not a key frame rewinds pc and draws nothing (R175). -/
  displayWait : Bool
  /-- Sprite pixels past the right or bottom edge are dropped; otherwise they wrap (R173). -/
  clipping : Bool
  /-- 8XY6 and 8XYE shift V[X] in place; otherwise they shift V[Y] (R139, R141). -/
  shiftingIgnoresSource : Bool
  /-- BNNN adds V[X] instead of V0 (R114). -/
  jumpUsesVx : Bool
  /-- A sprite row with a dropped set pixel counts as collided (R174). -/
  clipCountsAsCollision : Bool
  /-- Scroll distances in low-resolution mode are not doubled (R177). -/
  legacyScroll : Bool
  deriving DecidableEq, Repr

/-- The configuration that construction attaches to the state (R252): variant, quirks, and the
two font tables, which the spec makes parameters of the model (R10). -/
structure Config where
  variant : Variant
  quirks : Quirks
  /-- FONT_SMALL: 16 glyphs of 5 bytes (R8, R10). -/
  fontSmall : Vector Byte 80
  /-- FONT_BIG: 10 glyphs of 10 bytes (R8, R10). -/
  fontBig : Vector Byte 100
  deriving DecidableEq, Repr

/-- RANDOM (R10, R142, decision D30): the byte that the `n`-th execution of CXNN draws. A FREE
VALUE: it has no body, so nothing can be proved about which byte it is (log 7). -/
opaque Config.randomByte : Nat → Byte

end Sys2Proof
end

