-- ==== Sys2Proof/Syntax.lean ====
section
/-! DEFINITION. The instructions: one constructor per row of spec/opcode_table.json
(30_encoding.md R85), with the operand fields of R12 and R83. -/

namespace Sys2Proof

/-- A general register index, 0 .. 15 (R21, R90). -/
abbrev Reg := Fin 16

/-- VF, the flag register (R22). -/
abbrev VF : Reg := 15

/-- One constructor per row of the opcode table, in the order of R85. `x` and `y` are register
fields, `n` a 4-bit, `nn` an 8-bit, `nnn` a 12-bit immediate, `m` the operand word of F000. -/
inductive Instr where
  /-- 0000 -/
  | nop
  /-- 00E0 -/
  | cls
  /-- 00EE -/
  | ret
  /-- 00CN -/
  | scd (n : Nibble)
  /-- 00DN -/
  | scu (n : Nibble)
  /-- 00FB -/
  | scr
  /-- 00FC -/
  | scl
  /-- 00FD -/
  | exit
  /-- 00FE -/
  | low
  /-- 00FF -/
  | high
  /-- 1NNN -/
  | jp (nnn : BitVec 12)
  /-- 2NNN -/
  | call (nnn : BitVec 12)
  /-- 3XNN -/
  | seVxNn (x : Reg) (nn : Byte)
  /-- 4XNN -/
  | sneVxNn (x : Reg) (nn : Byte)
  /-- 5XY0 -/
  | seVxVy (x y : Reg)
  /-- 5XY2 -/
  | saveVxVy (x y : Reg)
  /-- 5XY3 -/
  | loadVxVy (x y : Reg)
  /-- 6XNN -/
  | ldVxNn (x : Reg) (nn : Byte)
  /-- 7XNN -/
  | addVxNn (x : Reg) (nn : Byte)
  /-- 8XY0 -/
  | ldVxVy (x y : Reg)
  /-- 8XY1 -/
  | orVxVy (x y : Reg)
  /-- 8XY2 -/
  | andVxVy (x y : Reg)
  /-- 8XY3 -/
  | xorVxVy (x y : Reg)
  /-- 8XY4 -/
  | addVxVy (x y : Reg)
  /-- 8XY5 -/
  | subVxVy (x y : Reg)
  /-- 8XY6 -/
  | shrVxVy (x y : Reg)
  /-- 8XY7 -/
  | subnVxVy (x y : Reg)
  /-- 8XYE -/
  | shlVxVy (x y : Reg)
  /-- 9XY0 -/
  | sneVxVy (x y : Reg)
  /-- ANNN -/
  | ldINnn (nnn : BitVec 12)
  /-- BNNN -/
  | jpV0Nnn (nnn : BitVec 12)
  /-- CXNN -/
  | rndVxNn (x : Reg) (nn : Byte)
  /-- DXYN -/
  | drw (x y : Reg) (n : Nibble)
  /-- EX9E -/
  | skp (x : Reg)
  /-- EXA1 -/
  | sknp (x : Reg)
  /-- F000 MMMM, the two-word instruction (R84, R157) -/
  | ldILong (m : Word)
  /-- FN01: the X field, of which only 0 .. 3 is an instruction (R184; checked in WellFormed) -/
  | plane (x : Reg)
  /-- F002 -/
  | audio
  /-- FX07 -/
  | ldVxDt (x : Reg)
  /-- FX0A -/
  | ldVxK (x : Reg)
  /-- FX15 -/
  | ldDtVx (x : Reg)
  /-- FX18 -/
  | ldStVx (x : Reg)
  /-- FX1E -/
  | addIVx (x : Reg)
  /-- FX29 -/
  | ldFVx (x : Reg)
  /-- FX30 -/
  | ldHfVx (x : Reg)
  /-- FX33 -/
  | ldBVx (x : Reg)
  /-- FX3A -/
  | pitchVx (x : Reg)
  /-- FX55 -/
  | ldMemVx (x : Reg)
  /-- FX65 -/
  | ldVxMem (x : Reg)
  /-- FX75 -/
  | ldRVx (x : Reg)
  /-- FX85 -/
  | ldVxR (x : Reg)
  deriving DecidableEq, Repr

end Sys2Proof
end

