-- ==== Sys2Proof/WellFormed.lean ====
section
/-! DEFINITION. Which terms of `Instr` are instructions of a variant: the variant sets of
30_encoding.md R85 and R86, and the bound X ≤ 3 of FN01 (R85, R87, R184). -/

namespace Sys2Proof

/-- The variant sets of R86: in all variants, in SChip and XOChip, or in XOChip only. -/
inductive VariantSet where
  | all
  | schipUp
  | xochipOnly
  deriving DecidableEq, Repr

/-- Membership in a variant set (R19). -/
def VariantSet.mem : VariantSet → Variant → Bool
  | .all, _ => true
  | .schipUp, v => v != .chip8
  | .xochipOnly, v => v == .xochip

/-- The variant set of an instruction's row (R85, R86). -/
def Instr.variants : Instr → VariantSet
  | .scd _ | .scr | .scl | .exit | .low | .high | .ldHfVx _ | .ldRVx _ | .ldVxR _ => .schipUp
  | .scu _ | .saveVxVy _ _ | .loadVxVy _ _ | .ldILong _ | .plane _ | .audio | .pitchVx _ =>
    .xochipOnly
  | .nop | .cls | .ret | .jp _ | .call _ | .seVxNn _ _ | .sneVxNn _ _ | .seVxVy _ _
  | .ldVxNn _ _ | .addVxNn _ _ | .ldVxVy _ _ | .orVxVy _ _ | .andVxVy _ _ | .xorVxVy _ _
  | .addVxVy _ _ | .subVxVy _ _ | .shrVxVy _ _ | .subnVxVy _ _ | .shlVxVy _ _ | .sneVxVy _ _
  | .ldINnn _ | .jpV0Nnn _ | .rndVxNn _ _ | .drw _ _ _ | .skp _ | .sknp _ | .ldVxDt _
  | .ldVxK _ | .ldDtVx _ | .ldStVx _ | .addIVx _ | .ldFVx _ | .ldBVx _ | .ldMemVx _
  | .ldVxMem _ => .all

/-- The operand bound that the types do not carry: FN01's plane mask is 0 .. 3 (R184). -/
def Instr.operandsOk : Instr → Bool
  | .plane x => decide (x.val ≤ 3)
  | _ => true

/-- `i` is an instruction of variant `v`: its row's variant set holds `v` and its operands are in
range (R85 to R87). -/
def Instr.wellFormed (v : Variant) (i : Instr) : Bool :=
  i.variants.mem v && i.operandsOk

end Sys2Proof
end

