-- ==== Sys2Proof/Decode.lean ====
section
/-! DEFINITION. Instruction encoding and decode (30_encoding.md): the fields of a word (R12, R81),
the decode map (R85 to R87), the length of an instruction (R84), the decoder over bytes
(R64, R80), and the encoder, written from the formats of R82. -/

namespace Sys2Proof

/-! ## Fields and byte order -/

/-- Two bytes as a big-endian word: the byte at the lower address is the high one (R64). -/
def wordOfBytes (hi lo : Byte) : Word := hi ++ lo

/-- The high (first) byte of a word (R64). -/
def Word.hiByte (w : Word) : Byte := w.extractLsb' 8 8

/-- The low (second) byte of a word (R64). -/
def Word.loByte (w : Word) : Byte := w.extractLsb' 0 8

/-- `d1 = op[15:12]` (R12). -/
def Word.d1 (op : Word) : Nibble := op.extractLsb' 12 4

/-- `d2 = op[11:8]` (R12). -/
def Word.d2 (op : Word) : Nibble := op.extractLsb' 8 4

/-- `d3 = op[7:4]` (R12). -/
def Word.d3 (op : Word) : Nibble := op.extractLsb' 4 4

/-- `d4 = N = op[3:0]` (R12). -/
def Word.d4 (op : Word) : Nibble := op.extractLsb' 0 4

/-- `NN = op[7:0]` (R12). -/
def Word.nn (op : Word) : Byte := op.extractLsb' 0 8

/-- `NNN = op[11:0]` (R12). -/
def Word.nnn (op : Word) : BitVec 12 := op.extractLsb' 0 12

/-- A register field as a register index (R83). -/
def Reg.ofNibble (d : Nibble) : Reg := ⟨d.toNat, d.isLt⟩

/-- A register index as a register field (R83). -/
def Reg.toNibble (x : Reg) : Nibble := BitVec.ofFin x

/-- X, the register field d2 (R12). -/
def Word.x (op : Word) : Reg := Reg.ofNibble op.d2

/-- Y, the register field d3 (R12). -/
def Word.y (op : Word) : Reg := Reg.ofNibble op.d3

/-! ## The decode map (R85) -/

/-- Rows with d1 = 0: 16 fixed bits, or `0000 0000 cccc NNNN` (R82, R85). -/
def decode0 (op : Word) : Option Instr :=
  if op.d2 = 0 then
    if op.d3 = 0x0 then (if op.d4 = 0x0 then some .nop else none)
    else if op.d3 = 0xC then some (.scd op.d4)
    else if op.d3 = 0xD then some (.scu op.d4)
    else if op.d3 = 0xE then
      if op.d4 = 0x0 then some .cls
      else if op.d4 = 0xE then some .ret
      else none
    else if op.d3 = 0xF then
      if op.d4 = 0xB then some .scr
      else if op.d4 = 0xC then some .scl
      else if op.d4 = 0xD then some .exit
      else if op.d4 = 0xE then some .low
      else if op.d4 = 0xF then some .high
      else none
    else none
  else none

/-- Rows with d1 = 5 (R85). -/
def decode5 (op : Word) : Option Instr :=
  if op.d4 = 0x0 then some (.seVxVy op.x op.y)
  else if op.d4 = 0x2 then some (.saveVxVy op.x op.y)
  else if op.d4 = 0x3 then some (.loadVxVy op.x op.y)
  else none

/-- Rows with d1 = 8 (R85). -/
def decode8 (op : Word) : Option Instr :=
  if op.d4 = 0x0 then some (.ldVxVy op.x op.y)
  else if op.d4 = 0x1 then some (.orVxVy op.x op.y)
  else if op.d4 = 0x2 then some (.andVxVy op.x op.y)
  else if op.d4 = 0x3 then some (.xorVxVy op.x op.y)
  else if op.d4 = 0x4 then some (.addVxVy op.x op.y)
  else if op.d4 = 0x5 then some (.subVxVy op.x op.y)
  else if op.d4 = 0x6 then some (.shrVxVy op.x op.y)
  else if op.d4 = 0x7 then some (.subnVxVy op.x op.y)
  else if op.d4 = 0xE then some (.shlVxVy op.x op.y)
  else none

/-- Rows with d1 = E (R85). -/
def decodeE (op : Word) : Option Instr :=
  if op.nn = 0x9E then some (.skp op.x)
  else if op.nn = 0xA1 then some (.sknp op.x)
  else none

/-- Rows with d1 = F (R85); `m` is the word after the instruction word, which only F000 uses. -/
def decodeF (op m : Word) : Option Instr :=
  if op.nn = 0x00 then (if op.d2 = 0 then some (.ldILong m) else none)
  else if op.nn = 0x01 then (if op.d2.toNat ≤ 3 then some (.plane op.x) else none)
  else if op.nn = 0x02 then (if op.d2 = 0 then some .audio else none)
  else if op.nn = 0x07 then some (.ldVxDt op.x)
  else if op.nn = 0x0A then some (.ldVxK op.x)
  else if op.nn = 0x15 then some (.ldDtVx op.x)
  else if op.nn = 0x18 then some (.ldStVx op.x)
  else if op.nn = 0x1E then some (.addIVx op.x)
  else if op.nn = 0x29 then some (.ldFVx op.x)
  else if op.nn = 0x30 then some (.ldHfVx op.x)
  else if op.nn = 0x33 then some (.ldBVx op.x)
  else if op.nn = 0x3A then some (.pitchVx op.x)
  else if op.nn = 0x55 then some (.ldMemVx op.x)
  else if op.nn = 0x65 then some (.ldVxMem op.x)
  else if op.nn = 0x75 then some (.ldRVx op.x)
  else if op.nn = 0x85 then some (.ldVxR op.x)
  else none

/-- The single dispatch table of R85, before the variant sets are read (C2). -/
def decodeRow (op m : Word) : Option Instr :=
  if op.d1 = 0x0 then decode0 op
  else if op.d1 = 0x1 then some (.jp op.nnn)
  else if op.d1 = 0x2 then some (.call op.nnn)
  else if op.d1 = 0x3 then some (.seVxNn op.x op.nn)
  else if op.d1 = 0x4 then some (.sneVxNn op.x op.nn)
  else if op.d1 = 0x5 then decode5 op
  else if op.d1 = 0x6 then some (.ldVxNn op.x op.nn)
  else if op.d1 = 0x7 then some (.addVxNn op.x op.nn)
  else if op.d1 = 0x8 then decode8 op
  else if op.d1 = 0x9 then (if op.d4 = 0x0 then some (.sneVxVy op.x op.y) else none)
  else if op.d1 = 0xA then some (.ldINnn op.nnn)
  else if op.d1 = 0xB then some (.jpV0Nnn op.nnn)
  else if op.d1 = 0xC then some (.rndVxNn op.x op.nn)
  else if op.d1 = 0xD then some (.drw op.x op.y op.d4)
  else if op.d1 = 0xE then decodeE op
  else decodeF op m

/-- `decode(op, variant)` of R85, on the instruction word and the word after it (used by F000
only). `none` is DecodeFailure: no row matches, or the row's variant set excludes `v`. -/
def decodeWord (v : Variant) (op m : Word) : Option Instr :=
  (decodeRow op m).filter (fun i => i.variants.mem v)

/-- The first word of the two-word instruction (R84). -/
def longWord : Word := 0xF000

/-- How many words the instruction with first word `op` takes in variant `v`: two for F000 where it
decodes, else one (R84, R86). -/
def instrWords (v : Variant) (op : Word) : Nat :=
  if op = longWord ∧ v = .xochip then 2 else 1

/-- Why a byte list is refused by `decode`. -/
inductive DecodeError where
  /-- The list ends inside the instruction. -/
  | truncated
  /-- The word decodes to no instruction in this variant (R87): the spec's DecodeFailure(op). -/
  | decodeFailure (op : Word)
  deriving DecidableEq, Repr

/-- The decoder over bytes in memory order: the instruction and the bytes after it. Total; it
refuses by name. -/
def decode (v : Variant) : List Byte → Except DecodeError (Instr × List Byte)
  | b0 :: b1 :: rest =>
    let op := wordOfBytes b0 b1
    if instrWords v op = 2 then
      match rest with
      | b2 :: b3 :: rest' =>
        match decodeWord v op (wordOfBytes b2 b3) with
        | some i => .ok (i, rest')
        | none => .error (.decodeFailure op)
      | _ => .error .truncated
    else
      match decodeWord v op 0 with
      | some i => .ok (i, rest)
      | none => .error (.decodeFailure op)
  | _ => .error .truncated

/-! ## The encoder (formats of R82) -/

/-- Format O: 16 fixed bits, given as four nibbles. -/
def fmtO (a b c d : Nibble) : Word := a ++ b ++ c ++ d

/-- Format A: `oooo NNNN NNNN NNNN`. -/
def fmtA (o : Nibble) (nnn : BitVec 12) : Word := o ++ nnn

/-- Format XB: `oooo XXXX NNNN NNNN`. -/
def fmtXB (o : Nibble) (x : Reg) (nn : Byte) : Word := o ++ x.toNibble ++ nn

/-- Formats XY and XYN: `oooo XXXX YYYY ffff`. -/
def fmtXY (o : Nibble) (x y : Reg) (f : Nibble) : Word := o ++ x.toNibble ++ y.toNibble ++ f

/-- The instruction word of an instruction (R82, R85). -/
def Instr.word : Instr → Word
  | .nop => fmtO 0x0 0x0 0x0 0x0
  | .cls => fmtO 0x0 0x0 0xE 0x0
  | .ret => fmtO 0x0 0x0 0xE 0xE
  | .scd n => fmtO 0x0 0x0 0xC n
  | .scu n => fmtO 0x0 0x0 0xD n
  | .scr => fmtO 0x0 0x0 0xF 0xB
  | .scl => fmtO 0x0 0x0 0xF 0xC
  | .exit => fmtO 0x0 0x0 0xF 0xD
  | .low => fmtO 0x0 0x0 0xF 0xE
  | .high => fmtO 0x0 0x0 0xF 0xF
  | .jp nnn => fmtA 0x1 nnn
  | .call nnn => fmtA 0x2 nnn
  | .seVxNn x nn => fmtXB 0x3 x nn
  | .sneVxNn x nn => fmtXB 0x4 x nn
  | .seVxVy x y => fmtXY 0x5 x y 0x0
  | .saveVxVy x y => fmtXY 0x5 x y 0x2
  | .loadVxVy x y => fmtXY 0x5 x y 0x3
  | .ldVxNn x nn => fmtXB 0x6 x nn
  | .addVxNn x nn => fmtXB 0x7 x nn
  | .ldVxVy x y => fmtXY 0x8 x y 0x0
  | .orVxVy x y => fmtXY 0x8 x y 0x1
  | .andVxVy x y => fmtXY 0x8 x y 0x2
  | .xorVxVy x y => fmtXY 0x8 x y 0x3
  | .addVxVy x y => fmtXY 0x8 x y 0x4
  | .subVxVy x y => fmtXY 0x8 x y 0x5
  | .shrVxVy x y => fmtXY 0x8 x y 0x6
  | .subnVxVy x y => fmtXY 0x8 x y 0x7
  | .shlVxVy x y => fmtXY 0x8 x y 0xE
  | .sneVxVy x y => fmtXY 0x9 x y 0x0
  | .ldINnn nnn => fmtA 0xA nnn
  | .jpV0Nnn nnn => fmtA 0xB nnn
  | .rndVxNn x nn => fmtXB 0xC x nn
  | .drw x y n => fmtXY 0xD x y n
  | .skp x => fmtXB 0xE x 0x9E
  | .sknp x => fmtXB 0xE x 0xA1
  | .ldILong _ => fmtO 0xF 0x0 0x0 0x0
  | .plane x => fmtXB 0xF x 0x01
  | .audio => fmtO 0xF 0x0 0x0 0x2
  | .ldVxDt x => fmtXB 0xF x 0x07
  | .ldVxK x => fmtXB 0xF x 0x0A
  | .ldDtVx x => fmtXB 0xF x 0x15
  | .ldStVx x => fmtXB 0xF x 0x18
  | .addIVx x => fmtXB 0xF x 0x1E
  | .ldFVx x => fmtXB 0xF x 0x29
  | .ldHfVx x => fmtXB 0xF x 0x30
  | .ldBVx x => fmtXB 0xF x 0x33
  | .pitchVx x => fmtXB 0xF x 0x3A
  | .ldMemVx x => fmtXB 0xF x 0x55
  | .ldVxMem x => fmtXB 0xF x 0x65
  | .ldRVx x => fmtXB 0xF x 0x75
  | .ldVxR x => fmtXB 0xF x 0x85

/-- The operand words after the instruction word: M for F000, none otherwise (R84). -/
def Instr.operandWords : Instr → List Word
  | .ldILong m => [m]
  | _ => []

/-- The words of an instruction, first word first (R82, R84). -/
def encode (i : Instr) : List Word := i.word :: i.operandWords

/-- The bytes of a list of words as memory holds them (R64). -/
def bytesOfWords (ws : List Word) : List Byte := ws.flatMap fun w => [w.hiByte, w.loByte]

/-! ## The opcode table as data -/

/-- One row of the opcode table: the fixed bits and where they stand (R85, opcode_table.json). -/
structure Row where
  bits : Word
  mask : Word
  variants : VariantSet
  deriving DecidableEq, Repr

/-- `op` has the row's fixed bits. -/
def Row.matchesWord (r : Row) (op : Word) : Bool := op &&& r.mask == r.bits

/-- The 51 rows of R85, in its order. -/
def opcodeTable : List Row :=
  [⟨0x0000, 0xFFFF, .all⟩, ⟨0x00E0, 0xFFFF, .all⟩, ⟨0x00EE, 0xFFFF, .all⟩,
   ⟨0x00C0, 0xFFF0, .schipUp⟩, ⟨0x00D0, 0xFFF0, .xochipOnly⟩, ⟨0x00FB, 0xFFFF, .schipUp⟩,
   ⟨0x00FC, 0xFFFF, .schipUp⟩, ⟨0x00FD, 0xFFFF, .schipUp⟩, ⟨0x00FE, 0xFFFF, .schipUp⟩,
   ⟨0x00FF, 0xFFFF, .schipUp⟩] ++
  [⟨0x1000, 0xF000, .all⟩, ⟨0x2000, 0xF000, .all⟩, ⟨0x3000, 0xF000, .all⟩,
   ⟨0x4000, 0xF000, .all⟩, ⟨0x5000, 0xF00F, .all⟩, ⟨0x5002, 0xF00F, .xochipOnly⟩,
   ⟨0x5003, 0xF00F, .xochipOnly⟩, ⟨0x6000, 0xF000, .all⟩, ⟨0x7000, 0xF000, .all⟩] ++
  [⟨0x8000, 0xF00F, .all⟩, ⟨0x8001, 0xF00F, .all⟩, ⟨0x8002, 0xF00F, .all⟩,
   ⟨0x8003, 0xF00F, .all⟩, ⟨0x8004, 0xF00F, .all⟩, ⟨0x8005, 0xF00F, .all⟩,
   ⟨0x8006, 0xF00F, .all⟩, ⟨0x8007, 0xF00F, .all⟩, ⟨0x800E, 0xF00F, .all⟩,
   ⟨0x9000, 0xF00F, .all⟩] ++
  [⟨0xA000, 0xF000, .all⟩, ⟨0xB000, 0xF000, .all⟩, ⟨0xC000, 0xF000, .all⟩,
   ⟨0xD000, 0xF000, .all⟩, ⟨0xE09E, 0xF0FF, .all⟩, ⟨0xE0A1, 0xF0FF, .all⟩] ++
  [⟨0xF000, 0xFFFF, .xochipOnly⟩, ⟨0xF001, 0xFCFF, .xochipOnly⟩, ⟨0xF002, 0xFFFF, .xochipOnly⟩,
   ⟨0xF007, 0xF0FF, .all⟩, ⟨0xF00A, 0xF0FF, .all⟩, ⟨0xF015, 0xF0FF, .all⟩,
   ⟨0xF018, 0xF0FF, .all⟩, ⟨0xF01E, 0xF0FF, .all⟩] ++
  [⟨0xF029, 0xF0FF, .all⟩, ⟨0xF030, 0xF0FF, .schipUp⟩, ⟨0xF033, 0xF0FF, .all⟩,
   ⟨0xF03A, 0xF0FF, .xochipOnly⟩, ⟨0xF055, 0xF0FF, .all⟩, ⟨0xF065, 0xF0FF, .all⟩,
   ⟨0xF075, 0xF0FF, .schipUp⟩, ⟨0xF085, 0xF0FF, .schipUp⟩]

/-! ## The host's numbering of an instruction's bits -/

/-- An instruction whose first word is bits 15..0 of `w` and whose second word is bits 31..16, as
the four bytes that memory holds; the bits from `nbits` up are taken as 0. -/
def tableWords (nbits w : Nat) : List Word :=
  let v := w % 2 ^ nbits
  [BitVec.ofNat 16 v, BitVec.ofNat 16 (v / 65536)]

/-- What the decoder reads from a word given in the host's numbering; the variant is XOChip, the
one in which every row decodes (R86, log 2). -/
def decodeTableWord (nbits w : Nat) : Option Instr :=
  match decode .xochip (bytesOfWords (tableWords nbits w)) with
  | .ok (i, _) => some i
  | .error _ => none

end Sys2Proof
end

