-- ==== Sys2Proof/Machine/Params.lean ====
section
/-! DEFINITION. The parameters that depend on the variant (00_scope.md R8, R9), the default quirk
records (10_state.md R47), the font tables (70_reset_and_hazards.md R254, R255) and the byte an
address holds right after reset (20_memory.md R69). -/

namespace Sys2Proof

/-- LOAD_BASE: the program load address and the reset pc (R8). -/
def loadBase : Nat := 0x200

/-- MEM_SIZE (R9). -/
def Variant.memSize : Variant → Nat
  | .chip8 | .schip => 4096
  | .xochip => 65536

/-- BUF_W, the width of a plane in buffer pixels (R9). -/
def Variant.bufW : Variant → Nat
  | .chip8 => 64
  | .schip | .xochip => 128

/-- BUF_H, the height of a plane in buffer pixels (R9). -/
def Variant.bufH : Variant → Nat
  | .chip8 => 32
  | .schip | .xochip => 64

/-- The number of entries of a buffer, BUF_W × BUF_H (R32). -/
def Variant.bufSize (v : Variant) : Nat := v.bufW * v.bufH

/-- `hires_capable = variant in S+` (R9, R19). -/
def Variant.hiresCapable : Variant → Bool
  | .chip8 => false
  | .schip | .xochip => true

/-- Which variants expose plane 2 (R9, R32). -/
def Variant.hasPlane2 : Variant → Bool
  | .chip8 | .schip => false
  | .xochip => true

/-- The logical display: W × H logical pixels of `scale` × `scale` buffer pixels each (R43). -/
structure Geometry where
  width : Nat
  height : Nat
  scale : Nat
  deriving DecidableEq, Repr

/-- The table of R43. -/
def Variant.geometry (v : Variant) (highRes : Bool) : Geometry :=
  match v.hiresCapable, highRes with
  | false, _ => ⟨64, 32, 1⟩
  | true, false => ⟨64, 32, 2⟩
  | true, true => ⟨128, 64, 1⟩

/-- The default quirk values per variant (R47, informative). -/
def Variant.defaultQuirks : Variant → Quirks
  | .chip8 =>
    { vfReset := true, memoryIncrement := true, displayWait := true, clipping := true,
      shiftingIgnoresSource := false, jumpUsesVx := false, clipCountsAsCollision := false,
      legacyScroll := false }
  | .schip =>
    { vfReset := false, memoryIncrement := false, displayWait := false, clipping := true,
      shiftingIgnoresSource := true, jumpUsesVx := true, clipCountsAsCollision := true,
      legacyScroll := true }
  | .xochip =>
    { vfReset := false, memoryIncrement := true, displayWait := false, clipping := false,
      shiftingIgnoresSource := false, jumpUsesVx := false, clipCountsAsCollision := false,
      legacyScroll := false }

/-- FONT_SMALL, the default of R254: glyphs 0 .. F, five bytes each (log 3). -/
def fontSmallBytes : List Byte :=
  [0xF0, 0x90, 0x90, 0x90, 0xF0] ++ [0x20, 0x60, 0x20, 0x20, 0x70] ++
  [0xF0, 0x10, 0xF0, 0x80, 0xF0] ++ [0xF0, 0x10, 0xF0, 0x10, 0xF0] ++
  [0x90, 0x90, 0xF0, 0x10, 0x10] ++ [0xF0, 0x80, 0xF0, 0x10, 0xF0] ++
  [0xF0, 0x80, 0xF0, 0x90, 0xF0] ++ [0xF0, 0x10, 0x20, 0x40, 0x40] ++
  [0xF0, 0x90, 0xF0, 0x90, 0xF0] ++ [0xF0, 0x90, 0xF0, 0x10, 0xF0] ++
  [0xF0, 0x90, 0xF0, 0x90, 0x90] ++ [0xE0, 0x90, 0xE0, 0x90, 0xE0] ++
  [0xF0, 0x80, 0x80, 0x80, 0xF0] ++ [0xE0, 0x90, 0x90, 0x90, 0xE0] ++
  [0xF0, 0x80, 0xF0, 0x80, 0xF0] ++ [0xF0, 0x80, 0xF0, 0x80, 0x80]

/-- FONT_BIG, the default of R255: glyphs 0 .. 9, ten bytes each (log 3). -/
def fontBigBytes : List Byte :=
  [0xFF, 0xFF, 0xC3, 0xC3, 0xC3, 0xC3, 0xC3, 0xC3, 0xFF, 0xFF] ++
  [0x18, 0x78, 0x78, 0x18, 0x18, 0x18, 0x18, 0x18, 0xFF, 0xFF] ++
  [0xFF, 0xFF, 0x03, 0x03, 0xFF, 0xFF, 0xC0, 0xC0, 0xFF, 0xFF] ++
  [0xFF, 0xFF, 0x03, 0x03, 0xFF, 0xFF, 0x03, 0x03, 0xFF, 0xFF] ++
  [0xC3, 0xC3, 0xC3, 0xC3, 0xFF, 0xFF, 0x03, 0x03, 0x03, 0x03] ++
  [0xFF, 0xFF, 0xC0, 0xC0, 0xFF, 0xFF, 0x03, 0x03, 0xFF, 0xFF] ++
  [0xFF, 0xFF, 0xC0, 0xC0, 0xFF, 0xFF, 0xC3, 0xC3, 0xFF, 0xFF] ++
  [0xFF, 0xFF, 0x03, 0x03, 0x06, 0x0C, 0x18, 0x18, 0x18, 0x18] ++
  [0xFF, 0xFF, 0xC3, 0xC3, 0xFF, 0xFF, 0xC3, 0xC3, 0xFF, 0xFF] ++
  [0xFF, 0xFF, 0xC3, 0xC3, 0xFF, 0xFF, 0x03, 0x03, 0xFF, 0xFF]

/-- The default FONT_SMALL as the parameter of R10. -/
def defaultFontSmall : Vector Byte 80 := ⟨⟨fontSmallBytes⟩, rfl⟩

/-- The default FONT_BIG as the parameter of R10. -/
def defaultFontBig : Vector Byte 100 := ⟨⟨fontBigBytes⟩, rfl⟩

/-- A variant with its default quirks (R47) and the default fonts (R254, R255). -/
def Config.ofVariant (v : Variant) : Config :=
  { variant := v, quirks := v.defaultQuirks, fontSmall := defaultFontSmall,
    fontBig := defaultFontBig }

/-- The configuration of `State.reset`. DESIGN CHOICE: XOChip, in which every row of the opcode
table decodes, with its default quirks (log 2). -/
def Config.default : Config := Config.ofVariant .xochip

/-- What address `a` holds right after reset, and so what an address that the memory list does not
name reads as: FONT_SMALL at 0 .. 79, FONT_BIG at 80 .. 179, zero elsewhere (R69, R251). -/
def Config.resetByte (c : Config) (a : Nat) : Byte :=
  if h : a < 80 then c.fontSmall[a]
  else if h : a - 80 < 100 then c.fontBig[a - 80]
  else 0

end Sys2Proof
end

