-- ==== Sys2Proof/Machine/State.lean ====
section
/-! DEFINITION. The machine state as plain data (10_state.md R20 to R42), the fault record
(60_exceptions.md R220), the host's events (00_scope.md R7) and the state after reset (R49). -/

namespace Sys2Proof.Machine

/-- Memory: the bytes that differ from what the address holds after reset, by strictly rising
address (R31, R60; log 4). -/
abbrev Memory := List Host.Cell

/-- A boolean pixel buffer, held as the strictly rising list of the indices of its lit pixels; the
pixel at column x and row y has index `y * BUF_W + x` (R32, R33; log 11). -/
abbrev Plane := List Nat

/-- `active_draw_plane` (R34). -/
inductive DrawPlane where
  | none
  | plane1
  | plane2
  | both
  deriving DecidableEq, Repr

/-- Which file an out-of-bounds access was made to (R220, R225). -/
inductive AccessSpace where
  /-- A memory byte address at or past MEM_SIZE. -/
  | memory
  /-- A key index past 15. -/
  | keys
  deriving DecidableEq, Repr

/-- The four kinds of fault of R220, with their info. A fault is the spec's own typed result: the
step that raises it answers a next state that records it (R224, log 8). -/
inductive Fault where
  /-- The fetched word decodes to no instruction in this variant. Raised by the fetch in
  Machine/Fetch.lean (R221). Safe: the spec's own stop. -/
  | decodeFailure (op : Word)
  /-- A call when 16 return addresses are held. Raised by CALL (R222). Safe: the spec's own stop. -/
  | stackOverflow
  /-- A return with an empty stack. Raised by RET (R223). Safe: the spec's own stop. -/
  | stackUnderflow
  /-- An access to a memory byte at or past MEM_SIZE, or a key index past 15; `index` is the first
  such address, or the key index. Raised by the fetch, F000, FX33, FX55, FX65, 5XY2, 5XY3, DXYN,
  F002, EX9E and EXA1, and reported to the host by `load` (R225, R229). Safe: the spec's own stop. -/
  | outOfBounds (space : AccessSpace) (index : Nat)
  deriving DecidableEq, Repr

/-- Reasons to give an instruction no meaning. Every instruction of the table has one, so nothing
raises it; safe. -/
inductive Refusal where
  /-- The instruction of that mnemonic has no meaning in the model. Raised by no arm of exec. Safe. -/
  | notModelled (mnemonic : String)
  deriving DecidableEq, Repr

/-- A fault record: kind and info in `fault`, and A, the pc at the start of the faulting step
(R220). The code is `Fault.code`. -/
structure FaultRecord where
  fault : Fault
  addr : Word
  deriving DecidableEq, Repr

/-- An event of the host (R7, R246). -/
inductive HostEvent where
  /-- `step(is_key_frame)` (R100, R239). -/
  | step (isKeyFrame : Bool)
  /-- `tick_timers()` (R206, R240). -/
  | tickTimers
  /-- `set_key(index, pressed)` (R236). -/
  | setKey (index : Nat) (pressed : Bool)
  /-- `load(bytes)` (R253). -/
  | load (bytes : List Byte)
  /-- `reset()` (R251). -/
  | reset
  deriving DecidableEq, Repr

/-- MachineState (R20): the fields of R21 to R42, the attached configuration (R252), and the
model's own three fields for the host's input and the random draws. -/
structure State where
  /-- variant, quirks and fonts; nothing changes them (R48; log 1) -/
  config : Config
  /-- V0 .. VF (R21) -/
  v : Vector Byte 16
  /-- the program counter (R24) -/
  pc : Word
  /-- I, the index register (R25) -/
  index : Word
  /-- the return-address stack (R26) -/
  stack : Vector Word 16
  /-- sp: the index of the top entry, or none for the empty sentinel -1 (R27; log 12) -/
  sp : Option (Fin 16)
  /-- DT, the delay timer (R28) -/
  dt : Byte
  /-- ST, the sound timer (R29) -/
  st : Byte
  /-- true is pressed (R30) -/
  keys : Vector Bool 16
  /-- main memory (R31) -/
  memory : Memory
  /-- plane 1 (R32) -/
  plane1 : Plane
  /-- plane 2 (R32) -/
  plane2 : Plane
  /-- which planes draw, clear and scroll affect (R34) -/
  activeDrawPlane : DrawPlane
  /-- high_res_mode (R35) -/
  highResMode : Bool
  /-- the RPL flags (R36) -/
  rpl : Vector Byte 16
  /-- pattern_buffer (R37) -/
  pattern : Vector Byte 16
  /-- pitch_register (R38) -/
  pitch : Byte
  /-- the key-frame bit of the running step (R39) -/
  keyFrame : Bool
  /-- next_instruction_is_wide (R40) -/
  wide : Bool
  /-- the recorded fault; the machine is halted while there is one (R41, R226) -/
  fault : Option FaultRecord
  /-- the image of the last load (R42) -/
  loadedImage : List Byte
  /-- MODEL: the level of the step port's is_key_frame input (R7, R239; log 6) -/
  keyFrameIn : Bool
  /-- MODEL: the host events still to be issued, oldest first (R7, R265; log 5) -/
  schedule : List HostEvent
  /-- MODEL: how many RANDOM bytes have been drawn (R10; log 7) -/
  draws : Nat
  deriving DecidableEq, Repr

/-- `new(config)`: construction (R252), with the reset values of R49. -/
def State.new (c : Config) : State where
  config := c
  v := Vector.replicate 16 0
  pc := 0x200
  index := 0
  stack := Vector.replicate 16 0
  sp := none
  dt := 0
  st := 0
  keys := Vector.replicate 16 false
  memory := []
  plane1 := []
  plane2 := []
  activeDrawPlane := .plane1
  highResMode := false
  rpl := Vector.replicate 16 0
  pattern := Vector.replicate 16 0
  pitch := 64
  keyFrame := false
  wide := false
  fault := none
  loadedImage := []
  keyFrameIn := true
  schedule := []
  draws := 0

/-- The machine right after construction and reset, in the default configuration (R49; log 2). -/
def State.reset : State := State.new Config.default

end Sys2Proof.Machine
end

