-- ==== Sys2Proof/Machine/Ops.lean ====
section
/-! DEFINITION. The named operations over the state: memory (20_memory.md), registers, pc and
stack (10_state.md, 40_flow.md), fault entry (60_exceptions.md R224) and the frame that every
instruction runs in (40_flow.md R100, R101, R104), and reset (70_reset_and_hazards.md). -/

namespace Sys2Proof.Machine

/-! ## Faults -/

/-- The numeric codes of R220. -/
def Fault.code : Fault → Nat
  | .decodeFailure _ => 1
  | .stackOverflow => 2
  | .stackUnderflow => 3
  | .outOfBounds _ _ => 4

/-- Fault entry (R224): the state is as it was at the start of the step, except that `fault` holds
the record, whose A is the pc at the start of the step. `s` is that state. -/
def State.takeFault (s : State) (f : Fault) : State :=
  { s with fault := some { fault := f, addr := s.pc } }

/-- The machine is halted while a fault is recorded (R226). -/
def State.halted (s : State) : Bool := s.fault.isSome

/-! ## Memory -/

/-- The byte at `a`; an address the list does not name reads as `dflt a`. -/
def Memory.read (dflt : Nat → Byte) : Memory → Nat → Byte
  | [], a => dflt a
  | (k, c) :: m, a => if a = k then c else Memory.read dflt m a

/-- Store one byte and keep the canonical form: an entry equal to `dflt a` is not listed. -/
def Memory.write (dflt : Nat → Byte) (a : Nat) (b : Byte) : Memory → Memory
  | [] => if b = dflt a then [] else [(a, b)]
  | (k, c) :: m =>
    if a < k then (if b = dflt a then (k, c) :: m else (a, b) :: (k, c) :: m)
    else if a = k then (if b = dflt a then m else (a, b) :: m)
    else (k, c) :: Memory.write dflt a b m

/-- Store bytes at ascending addresses from `a`. -/
def Memory.writeBytes (dflt : Nat → Byte) : Nat → List Byte → Memory → Memory
  | _, [], m => m
  | a, b :: bs, m => Memory.writeBytes dflt (a + 1) bs (Memory.write dflt a b m)

/-- The canonical form from address `lo` on: addresses strictly rising and below `size`, and no
entry equal to what an unlisted address reads as. -/
def Memory.wfFrom (dflt : Nat → Byte) (size : Nat) : Nat → Memory → Bool
  | _, [] => true
  | lo, (a, b) :: m =>
    decide (lo ≤ a) && decide (a < size) && decide (b ≠ dflt a) && Memory.wfFrom dflt size (a + 1) m

/-- The canonical form of a memory of `size` bytes. -/
def Memory.wf (dflt : Nat → Byte) (size : Nat) (m : Memory) : Bool := Memory.wfFrom dflt size 0 m

/-- MEM_SIZE of this machine (R9). -/
def State.memSize (s : State) : Nat := s.config.variant.memSize

/-- The byte memory holds at `a`, without a bounds check. -/
def State.byteAt (s : State) (a : Nat) : Byte := s.memory.read s.config.resetByte a

/-- `MemRead(addr, 1)`: OutOfBoundsAccess at or past MEM_SIZE (R62). -/
def State.memRead (s : State) (a : Nat) : Except Fault Byte :=
  if a < s.memSize then .ok (s.byteAt a) else .error (.outOfBounds .memory a)

/-- `MemRead(addr, 2)`: big-endian; the fault names the first address out of range (R62, R64). -/
def State.memRead2 (s : State) (a : Nat) : Except Fault Word := do
  let hi ← s.memRead a
  let lo ← s.memRead (a + 1)
  return wordOfBytes hi lo

/-- `MemRead` of `n` bytes at ascending addresses, one byte each (R67). -/
def State.readBytes (s : State) : Nat → Nat → Except Fault (List Byte)
  | _, 0 => .ok []
  | a, n + 1 => do
    let b ← s.memRead a
    let bs ← s.readBytes (a + 1) n
    return b :: bs

/-- `MemWrite(addr, 1, v)`: OutOfBoundsAccess at or past MEM_SIZE; every other byte is writable,
the fonts included (R63, R70). -/
def State.memWrite (s : State) (a : Nat) (b : Byte) : Except Fault State :=
  if a < s.memSize then .ok { s with memory := s.memory.write s.config.resetByte a b }
  else .error (.outOfBounds .memory a)

/-- `MemWrite(addr, 2, v)`: the high byte at `addr`, the low byte at `addr + 1`; the fault names the
first address out of range and nothing is written (R63). -/
def State.memWrite2 (s : State) (a : Nat) (w : Word) : Except Fault State := do
  let s ← s.memWrite a w.hiByte
  s.memWrite (a + 1) w.loByte

/-- `MemWrite` of bytes at ascending addresses, one byte each; a fault at any of them discards all
(R63, R67, R224). -/
def State.writeBytes (s : State) : Nat → List Byte → Except Fault State
  | _, [] => .ok s
  | a, b :: bs => do
    let s ← s.memWrite a b
    s.writeBytes (a + 1) bs

/-- The effective address `I + k` of a data access, an unbounded integer (R66, R162). -/
def State.dataAddr (s : State) (k : Nat) : Nat := s.index.toNat + k

/-! ## General registers -/

/-- `V[x]` (R21). -/
def State.readV (s : State) (x : Reg) : Byte := s.v.get x

/-- `V[x] <- b` (R21). -/
def State.writeV (s : State) (x : Reg) (b : Byte) : State := { s with v := s.v.set x.val b }

/-- Writes to a list of registers, in order. -/
def State.writeRegs (s : State) : List Reg → List Byte → State
  | x :: xs, b :: bs => (s.writeV x b).writeRegs xs bs
  | _, _ => s

/-! ## Program counter -/

/-- `pc <- wrap16(pc + n)` (R102). -/
def State.advancePc (s : State) (n : Word) : State := { s with pc := s.pc + n }

/-- `pc <- wrap16(pc - 2)`, the rewind of DXYN and FX0A (R102). -/
def State.rewindPc (s : State) : State := { s with pc := s.pc - 2 }

/-- `pc <- target` (R102). -/
def State.setPc (s : State) (target : Word) : State := { s with pc := target }

/-- The look-ahead at the word at `pc`: 0xF000 in every variant, false past MEM_SIZE, never a
fault (R103). -/
def State.lookahead (s : State) (pc : Word) : Bool :=
  match s.memRead2 pc.toNat with
  | .ok w => w == longWord
  | .error _ => false

/-- The state a handler starts from: key_frame written from the step's input (R100), pc advanced
past the instruction word (R101), `wide` set by the look-ahead (R103). `s` is the state at the
start of the step. -/
def State.fetched (s : State) : State :=
  { s with keyFrame := s.keyFrameIn, pc := s.pc + 2, wide := s.lookahead (s.pc + 2) }

/-- The distance a taken skip adds: 2, and 2 more when the next word is wide (R105). -/
def State.skipDistance (s : State) : Word := if s.wide then 4 else 2

/-- `skip_if(c)` (R105). -/
def State.skipIf (s : State) (c : Bool) : State := if c then s.advancePc s.skipDistance else s

/-- Run one handler as an instruction of the step that starts in `s` (R104): the handler works on
the state after the fetch; a raise discards all it did and enters the fault (R15, R224). -/
def State.execute (s : State) (handler : State → Except Fault State) :
    Host.Outcome State Fault Refusal :=
  match handler s.fetched with
  | .ok t => .next t
  | .error f => .next (s.takeFault f)

/-! ## Return stack -/

/-- Push a return address; the 17th push raises StackOverflow (R109, R222). -/
def State.push (s : State) (w : Word) : Except Fault State :=
  match s.sp with
  | none => .ok { s with sp := some 0, stack := s.stack.set 0 w }
  | some k =>
    if h : k.val + 1 < 16 then
      .ok { s with sp := some ⟨k.val + 1, h⟩, stack := s.stack.set (k.val + 1) w }
    else .error .stackOverflow

/-- Pop the top return address into pc; an empty stack raises StackUnderflow (R107, R223). -/
def State.popPc (s : State) : Except Fault State :=
  match s.sp with
  | none => .error .stackUnderflow
  | some k =>
    .ok { s with
      pc := s.stack.get k
      sp := if k.val = 0 then none else some ⟨k.val - 1, by omega⟩ }

/-- sp as the spec's signed integer in [-1, 15] (R27). -/
def State.spInt (s : State) : Int :=
  match s.sp with
  | none => -1
  | some k => k.val

/-! ## Reset and load -/

/-- The `reset()` event: every field at its reset value (R49, R251), except keys and the
configuration, which a reset keeps (R48, R251), and the model's own fields (log 5, 6, 7). -/
def State.resetEvent (s : State) : State :=
  { State.new s.config with
    keys := s.keys, keyFrameIn := s.keyFrameIn, schedule := s.schedule, draws := s.draws }

/-- `exit_reset()` (R256): a reset that keeps the RPL flags and writes the last image again. -/
def State.exitReset (s : State) : State :=
  { s.resetEvent with
    rpl := s.rpl
    loadedImage := s.loadedImage
    memory := s.resetEvent.memory.writeBytes s.config.resetByte loadBase s.loadedImage }

/-- `load(bytes)` (R229, R253): refused with no change when the image does not fit. -/
def State.load (s : State) (bytes : List Byte) : Except Fault State :=
  if bytes.length > s.memSize - loadBase then .error (.outOfBounds .memory s.memSize)
  else .ok { s with
    memory := s.memory.writeBytes s.config.resetByte loadBase bytes
    loadedImage := bytes }

/-- One draw of RANDOM: a free byte (R10, R142; log 7), and the counter that makes the next draw
another one. -/
def State.draw (s : State) : Byte × State :=
  (Config.randomByte s.draws, { s with draws := s.draws + 1 })

end Sys2Proof.Machine
end

