-- ==== Sys2Proof/Machine/Operands.lean ====
section
/-! DEFINITION. Operand forms: register ranges (30_encoding.md R91), the jump register (40_flow.md
R114), the shift source (41_alu.md R139, R141), key indices (44_keys_timers_audio.md R200), glyph
addresses and decimal digits (42_index_memory.md R152 to R154) and sprite shapes
(43_display.md R172). -/

namespace Sys2Proof.Machine

/-- The register a 4-bit sum or difference of register numbers names. -/
def Reg.ofNat (n : Nat) : Reg := ⟨n % 16, Nat.mod_lt n (by decide)⟩

/-- The sixteen register (and key) indices, in rising order. -/
def allRegs : List Reg := [0, 1, 2, 3, 4, 5, 6, 7, 8, 9, 10, 11, 12, 13, 14, 15]

/-- The registers from `x` to `y`, both ends included, rising or falling (R91, R158): the k-th is
V[X + k] when X ≤ Y and V[X - k] otherwise. -/
def regRange (x y : Reg) : List Reg :=
  if x.val ≤ y.val then (List.range (y.val - x.val + 1)).map fun k => Reg.ofNat (x.val + k)
  else (List.range (x.val - y.val + 1)).map fun k => Reg.ofNat (x.val - k)

/-- The registers V0 .. VX (R91). -/
def regsUpTo (x : Reg) : List Reg := regRange 0 x

/-- The values of a list of registers. -/
def State.readRegs (s : State) (xs : List Reg) : List Byte := xs.map s.readV

/-- The register BNNN adds: V[d2], the high nibble of NNN, under jump_uses_vx, else V0
(R114, C4). -/
def State.jumpReg (s : State) (nnn : BitVec 12) : Reg :=
  if s.config.quirks.jumpUsesVx then Reg.ofNibble (nnn.extractLsb' 8 4) else 0

/-- The source of a shift: V[X] under shifting_ignores_source, else V[Y] (R139, R141). -/
def State.shiftSource (s : State) (x y : Reg) : Byte :=
  if s.config.quirks.shiftingIgnoresSource then s.readV x else s.readV y

/-- The key a register selects; past 15 it raises OutOfBoundsAccess (R200, R201, R225). -/
def keyIndex (b : Byte) : Except Fault (Fin 16) :=
  if h : b.toNat < 16 then .ok ⟨b.toNat, h⟩ else .error (.outOfBounds .keys b.toNat)

/-- The smallest pressed key (R202). -/
def State.lowestKey (s : State) : Option Reg := allRegs.find? fun k => s.keys.get k

/-- The address of a small-font glyph: five bytes a glyph, by the low nibble (R152). -/
def smallGlyphAddr (b : Byte) : Word := BitVec.ofNat 16 (5 * (b.toNat % 16))

/-- The address of a big-font glyph: ten bytes a glyph from 80, by the low nibble (R153). -/
def bigGlyphAddr (b : Byte) : Word := BitVec.ofNat 16 (80 + 10 * (b.toNat % 16))

/-- The decimal digits of a byte: hundreds, tens, units (R154). -/
def bcdDigits (b : Byte) : List Byte :=
  [BitVec.ofNat 8 (b.toNat / 100), BitVec.ofNat 8 (b.toNat / 10 % 10),
   BitVec.ofNat 8 (b.toNat % 10)]

/-- The shape of a sprite: rows, columns and bytes per row (R172). -/
structure SpriteShape where
  rows : Nat
  cols : Nat
  bytesPerRow : Nat
  deriving DecidableEq, Repr

/-- N rows of 8 columns, or 16 rows of 16 columns when N = 0 (R172). -/
def spriteShape (n : Nibble) : SpriteShape :=
  if n = 0 then ⟨16, 16, 2⟩ else ⟨n.toNat, 8, 1⟩

/-- S, the bytes of one sprite image (R172). -/
def SpriteShape.bytes (sh : SpriteShape) : Nat := sh.rows * sh.bytesPerRow

/-- The sprite bit at image `k`, row `r`, column `c` of the sprite's bytes; bit 7 is the leftmost
column (R172). -/
def spriteBit (sh : SpriteShape) (bytes : List Byte) (k r c : Nat) : Bool :=
  (bytes.getD (k * sh.bytes + r * sh.bytesPerRow + c / 8) 0).getLsbD (7 - c % 8)

end Sys2Proof.Machine
end

