-- ==== Sys2Proof/Machine/Flags.lean ====
section
/-! DEFINITION. Every computation of VF, the machine's only flag (10_state.md R22, R51): carry,
not-borrow, shifted-out bits, the vf_reset clear, and the collision value. VF is written after the
result (41_alu.md R130). -/

namespace Sys2Proof.Machine

/-- A condition as a flag value. -/
def flagByte (c : Bool) : Byte := if c then 1 else 0

/-- The carry of a + b (R137). -/
def carryFlag (a b : Byte) : Byte := flagByte (a.toNat + b.toNat > 255)

/-- The not-borrow of a - b: 1 when a ≥ b (R138, R140). -/
def notBorrowFlag (a b : Byte) : Byte := flagByte (a.toNat ≥ b.toNat)

/-- The bit a right shift by one drops (R139). -/
def shrFlag (a : Byte) : Byte := flagByte (a.getLsbD 0)

/-- The bit a left shift by one drops (R141). -/
def shlFlag (a : Byte) : Byte := flagByte (a.getLsbD 7)

/-- `V[X] <- r`, then `VF <- f`: when X = F the flag is what stays (R22, R130). -/
def State.writeResultFlag (s : State) (x : Reg) (r f : Byte) : State :=
  (s.writeV x r).writeV VF f

/-- `V[X] <- r`, then `VF <- 0` under vf_reset (R134 to R136). -/
def State.writeLogic (s : State) (x : Reg) (r : Byte) : State :=
  if s.config.quirks.vfReset then s.writeResultFlag x r 0 else s.writeV x r

/-- The collision value: the number of collided rows in high resolution, else whether there is one
(R174). -/
def collisionFlag (highRes : Bool) (collidedRows : Nat) : Byte :=
  if highRes then BitVec.ofNat 8 collidedRows else flagByte (collidedRows > 0)

end Sys2Proof.Machine
end

