-- ==== Sys2Proof/Machine/Alu.lean ====
section
/-! DEFINITION. The meanings of the ALU instructions (41_alu.md R131 to R142): operands are read
first, then V[X] is written, then VF (R130). -/

namespace Sys2Proof.Machine

/-- 6XNN: `V[X] <- NN` (R131). -/
def execLdVxNn (x : Reg) (nn : Byte) (s : State) : Host.Outcome State Fault Refusal :=
  s.execute fun t => .ok (t.writeV x nn)

/-- 7XNN: `V[X] <- wrap8(V[X] + NN)`, no flag (R132). -/
def execAddVxNn (x : Reg) (nn : Byte) (s : State) : Host.Outcome State Fault Refusal :=
  s.execute fun t => .ok (t.writeV x (t.readV x + nn))

/-- 8XY0: `V[X] <- V[Y]` (R133). -/
def execLdVxVy (x y : Reg) (s : State) : Host.Outcome State Fault Refusal :=
  s.execute fun t => .ok (t.writeV x (t.readV y))

/-- 8XY1: `V[X] <- V[X] OR V[Y]` (R134). -/
def execOrVxVy (x y : Reg) (s : State) : Host.Outcome State Fault Refusal :=
  s.execute fun t => .ok (t.writeLogic x (t.readV x ||| t.readV y))

/-- 8XY2: `V[X] <- V[X] AND V[Y]` (R135). -/
def execAndVxVy (x y : Reg) (s : State) : Host.Outcome State Fault Refusal :=
  s.execute fun t => .ok (t.writeLogic x (t.readV x &&& t.readV y))

/-- 8XY3: `V[X] <- V[X] XOR V[Y]` (R136). -/
def execXorVxVy (x y : Reg) (s : State) : Host.Outcome State Fault Refusal :=
  s.execute fun t => .ok (t.writeLogic x (t.readV x ^^^ t.readV y))

/-- 8XY4: `V[X] <- wrap8(V[X] + V[Y])`, VF the carry (R137). -/
def execAddVxVy (x y : Reg) (s : State) : Host.Outcome State Fault Refusal :=
  s.execute fun t =>
    .ok (t.writeResultFlag x (t.readV x + t.readV y) (carryFlag (t.readV x) (t.readV y)))

/-- 8XY5: `V[X] <- wrap8(V[X] - V[Y])`, VF the not-borrow (R138). -/
def execSubVxVy (x y : Reg) (s : State) : Host.Outcome State Fault Refusal :=
  s.execute fun t =>
    .ok (t.writeResultFlag x (t.readV x - t.readV y) (notBorrowFlag (t.readV x) (t.readV y)))

/-- 8XY6: `V[X] <- source >> 1`, VF the bit shifted out (R139). -/
def execShrVxVy (x y : Reg) (s : State) : Host.Outcome State Fault Refusal :=
  s.execute fun t =>
    .ok (t.writeResultFlag x (t.shiftSource x y >>> 1) (shrFlag (t.shiftSource x y)))

/-- 8XY7: `V[X] <- wrap8(V[Y] - V[X])`, VF the not-borrow (R140). -/
def execSubnVxVy (x y : Reg) (s : State) : Host.Outcome State Fault Refusal :=
  s.execute fun t =>
    .ok (t.writeResultFlag x (t.readV y - t.readV x) (notBorrowFlag (t.readV y) (t.readV x)))

/-- 8XYE: `V[X] <- wrap8(source << 1)`, VF the bit shifted out (R141). -/
def execShlVxVy (x y : Reg) (s : State) : Host.Outcome State Fault Refusal :=
  s.execute fun t =>
    .ok (t.writeResultFlag x (t.shiftSource x y <<< 1) (shlFlag (t.shiftSource x y)))

/-- CXNN: `V[X] <- draw() AND NN` (R142). -/
def execRndVxNn (x : Reg) (nn : Byte) (s : State) : Host.Outcome State Fault Refusal :=
  s.execute fun t => .ok (t.draw.2.writeV x (t.draw.1 &&& nn))

end Sys2Proof.Machine
end

