-- ==== Sys2Proof/Machine/Plane.lean ====
section
/-! DEFINITION. The pixel buffers: reading and flipping a pixel (10_state.md R33), plane selection,
sprite compositing and scrolling (43_display.md R170, R173, R174, R176, R177). -/

namespace Sys2Proof.Machine

/-- Entry `i` of the buffer is lit. -/
def Plane.lit (p : Plane) (i : Nat) : Bool := p.contains i

/-- Flip entry `i`, keeping the list of lit entries strictly rising. -/
def Plane.toggle (i : Nat) : Plane → Plane
  | [] => [i]
  | j :: p =>
    if i < j then i :: j :: p
    else if i = j then p
    else j :: Plane.toggle i p

/-- The list of lit entries is strictly rising from `lo` on and below `size`. -/
def Plane.wfFrom (size : Nat) : Nat → Plane → Bool
  | _, [] => true
  | lo, i :: p => decide (lo ≤ i) && decide (i < size) && Plane.wfFrom size (i + 1) p

/-- The form of a buffer of `size` entries. -/
def Plane.wf (size : Nat) (p : Plane) : Bool := Plane.wfFrom size 0 p

/-- The logical geometry in force (R43). -/
def State.geometry (s : State) : Geometry := s.config.variant.geometry s.highResMode

/-- Name of one of the two planes. -/
inductive PlaneId where
  | one
  | two
  deriving DecidableEq, Repr

/-- `selected_planes()`, in order (R170). -/
def State.selectedPlanes (s : State) : List PlaneId :=
  match s.activeDrawPlane with
  | .none => []
  | .plane1 => [.one]
  | .plane2 => [.two]
  | .both => [.one, .two]

/-- A plane by name. -/
def State.plane (s : State) : PlaneId → Plane
  | .one => s.plane1
  | .two => s.plane2

/-- Replace a plane by name. -/
def State.setPlane (s : State) (k : PlaneId) (p : Plane) : State :=
  match k with
  | .one => { s with plane1 := p }
  | .two => { s with plane2 := p }

/-- The buffer pixel at column `x` and row `y` of a plane; a position outside the buffer reads as
false (R33, R176). -/
def State.pixel (s : State) (k : PlaneId) (x y : Nat) : Bool :=
  decide (x < s.config.variant.bufW) && decide (y < s.config.variant.bufH) &&
    (s.plane k).lit (y * s.config.variant.bufW + x)

/-- Apply an operation to every selected plane (R170, C9). -/
def State.onSelected (s : State) (f : Plane → Plane) : State :=
  s.selectedPlanes.foldl (fun t k => t.setPlane k (f (t.plane k))) s

/-! ## Sprite compositing -/

/-- What placing one set sprite bit did (R173). -/
inductive Plot where
  | dropped
  | hit
  | clear
  deriving DecidableEq, Repr

/-- The buffer entries of the logical pixel (lx, ly): its s × s block (R173). -/
def blockEntries (bufW : Nat) (g : Geometry) (lx ly : Nat) : List Nat :=
  (List.range g.scale).flatMap fun dy =>
    (List.range g.scale).map fun dx => (ly * g.scale + dy) * bufW + (lx * g.scale + dx)

/-- Flip entries in turn; also whether one of them was lit when it was flipped (R173). -/
def flipEntries (p : Plane) (entries : List Nat) : Plane × Bool :=
  entries.foldl (fun acc i => (Plane.toggle i acc.1, acc.2 || acc.1.lit i)) (p, false)

/-- The drawing parameters that stay fixed during one DXYN. -/
structure DrawEnv where
  bufW : Nat
  geometry : Geometry
  clipping : Bool
  clipCounts : Bool
  shape : SpriteShape
  bytes : List Byte
  x0 : Nat
  y0 : Nat
  deriving DecidableEq, Repr

/-- `plot(p, x0 + c, y0 + r)` for a set sprite bit: clip or wrap, then flip the block (R173). -/
def plot (e : DrawEnv) (p : Plane) (r c : Nat) : Plane × Plot :=
  let lx := e.x0 + c
  let ly := e.y0 + r
  if e.clipping && (decide (lx ≥ e.geometry.width) || decide (ly ≥ e.geometry.height)) then
    (p, .dropped)
  else
    let q := flipEntries p
      (blockEntries e.bufW e.geometry (lx % e.geometry.width) (ly % e.geometry.height))
    (q.1, if q.2 then .hit else .clear)

/-- Whether a plot makes its row collide (R174). -/
def Plot.collides (clipCounts : Bool) : Plot → Bool
  | .dropped => clipCounts
  | .hit => true
  | .clear => false

/-- Row `r` of image `k`, column by column; also whether the row collided (R174, R175). -/
def drawRow (e : DrawEnv) (k r : Nat) (p : Plane) : Plane × Bool :=
  (List.range e.shape.cols).foldl
    (fun acc c =>
      if spriteBit e.shape e.bytes k r c then
        let q := plot e acc.1 r c
        (q.1, acc.2 || q.2.collides e.clipCounts)
      else acc)
    (p, false)

/-- Image `k`, row by row; also how many rows collided (R174, R175). -/
def drawImage (e : DrawEnv) (k : Nat) (p : Plane) : Plane × Nat :=
  (List.range e.shape.rows).foldl
    (fun acc r =>
      let q := drawRow e k r acc.1
      (q.1, acc.2 + q.2.toNat))
    (p, 0)

/-- Image 0 on the first selected plane, image 1 on the second; also how many rows collided in all
(R172, R174, R175). -/
def drawPlanes (e : DrawEnv) (s : State) : State × Nat :=
  s.selectedPlanes.zipIdx.foldl
    (fun acc pk =>
      let q := drawImage e pk.2 (acc.1.plane pk.1)
      (acc.1.setPlane pk.1 q.1, acc.2 + q.2))
    (s, 0)

/-! ## Scrolling -/

/-- f: how many buffer pixels one unit of scroll distance is (R177). -/
def State.scrollUnit (s : State) : Nat :=
  if s.highResMode || s.config.quirks.legacyScroll then 1 else 2

/-- `p[x, y] <- old[x, y - d]` (R176). -/
def Plane.scrollDown (w h d : Nat) (p : Plane) : Plane :=
  (p.map (· + d * w)).filter fun i => decide (i < w * h)

/-- `p[x, y] <- old[x, y + d]` (R176). -/
def Plane.scrollUp (w d : Nat) (p : Plane) : Plane :=
  (p.filter fun i => decide (d * w ≤ i)).map (· - d * w)

/-- `p[x, y] <- old[x - d, y]` (R176). -/
def Plane.scrollRight (w d : Nat) (p : Plane) : Plane :=
  (p.filter fun i => decide (i % w + d < w)).map (· + d)

/-- `p[x, y] <- old[x + d, y]` (R176). -/
def Plane.scrollLeft (w d : Nat) (p : Plane) : Plane :=
  (p.filter fun i => decide (d ≤ i % w)).map (· - d)

end Sys2Proof.Machine
end

