-- ==== Sys2Proof/Machine/Display.lean ====
section
/-! DEFINITION. The meanings of the display instructions (43_display.md R171, R175, R178 to R184). -/

namespace Sys2Proof.Machine

/-- 00E0: clear every selected plane (R171). -/
def execCls (s : State) : Host.Outcome State Fault Refusal :=
  s.execute fun t => .ok (t.onSelected fun _ => [])

/-- The sprite bytes DXYN reads: one image for each selected plane, from I on (R172, R175). -/
def State.spriteBytes (t : State) (n : Nibble) : Except Fault (List Byte) :=
  t.readBytes (t.dataAddr 0) (t.selectedPlanes.length * (spriteShape n).bytes)

/-- The drawing parameters of DXYN: base coordinates modulo the logical screen (R175). -/
def State.drawEnv (t : State) (x y : Reg) (n : Nibble) (bytes : List Byte) : DrawEnv where
  bufW := t.config.variant.bufW
  geometry := t.geometry
  clipping := t.config.quirks.clipping
  clipCounts := t.config.quirks.clipCountsAsCollision
  shape := spriteShape n
  bytes := bytes
  x0 := (t.readV x).toNat % t.geometry.width
  y0 := (t.readV y).toNat % t.geometry.height

/-- DXYN stalls: display_wait is set and the step is not a key frame (R175). -/
def State.drawStalled (t : State) : Bool := t.config.quirks.displayWait && !t.keyFrame

/-- DXYN: stall, or read the sprite, draw it on the selected planes and write VF last (R175). -/
def execDrw (x y : Reg) (n : Nibble) (s : State) : Host.Outcome State Fault Refusal :=
  s.execute fun t =>
    if t.drawStalled then .ok t.rewindPc
    else do
      let bytes ← t.spriteBytes n
      let q := drawPlanes (t.drawEnv x y n bytes) t
      return q.1.writeV VF (collisionFlag t.highResMode q.2)

/-- 00CN: scroll the selected planes down by N units (R177, R178). -/
def execScd (n : Nibble) (s : State) : Host.Outcome State Fault Refusal :=
  s.execute fun t => .ok (t.onSelected
    (Plane.scrollDown t.config.variant.bufW t.config.variant.bufH (n.toNat * t.scrollUnit)))

/-- 00DN: scroll the selected planes up by N units (R177, R179). -/
def execScu (n : Nibble) (s : State) : Host.Outcome State Fault Refusal :=
  s.execute fun t => .ok (t.onSelected
    (Plane.scrollUp t.config.variant.bufW (n.toNat * t.scrollUnit)))

/-- 00FB: scroll the selected planes right by 4 units (R177, R180). -/
def execScr (s : State) : Host.Outcome State Fault Refusal :=
  s.execute fun t => .ok (t.onSelected
    (Plane.scrollRight t.config.variant.bufW (4 * t.scrollUnit)))

/-- 00FC: scroll the selected planes left by 4 units (R177, R181). -/
def execScl (s : State) : Host.Outcome State Fault Refusal :=
  s.execute fun t => .ok (t.onSelected
    (Plane.scrollLeft t.config.variant.bufW (4 * t.scrollUnit)))

/-- 00FE: low resolution; the planes keep their pixels (R182). -/
def execLow (s : State) : Host.Outcome State Fault Refusal :=
  s.execute fun t => .ok { t with highResMode := false }

/-- 00FF: high resolution; the planes keep their pixels (R183). -/
def execHigh (s : State) : Host.Outcome State Fault Refusal :=
  s.execute fun t => .ok { t with highResMode := true }

/-- `[None, Plane1, Plane2, Both][X]`; X above 3 does not decode, and only its low two bits are
used here (R184). -/
def drawPlaneOf (x : Reg) : DrawPlane :=
  if x.val % 4 = 0 then .none
  else if x.val % 4 = 1 then .plane1
  else if x.val % 4 = 2 then .plane2
  else .both

/-- FN01: select the planes to draw on (R184). -/
def execPlane (x : Reg) (s : State) : Host.Outcome State Fault Refusal :=
  s.execute fun t => .ok { t with activeDrawPlane := drawPlaneOf x }

end Sys2Proof.Machine
end

