-- ==== Sys2Proof/Machine/Flow.lean ====
section
/-! DEFINITION. The meanings of the control-flow instructions (40_flow.md R106 to R115). Every
handler starts from the state after the fetch, where pc is A + 2 (R104). -/

namespace Sys2Proof.Machine

/-- 0000: nothing (R106). -/
def execNop (s : State) : Host.Outcome State Fault Refusal :=
  s.execute fun t => .ok t

/-- 00EE: pop the return address into pc; StackUnderflow on an empty stack (R107). -/
def execRet (s : State) : Host.Outcome State Fault Refusal :=
  s.execute fun t => t.popPc

/-- 1NNN: `pc <- NNN` (R108). -/
def execJp (nnn : BitVec 12) (s : State) : Host.Outcome State Fault Refusal :=
  s.execute fun t => .ok (t.setPc (nnn.setWidth 16))

/-- 2NNN: push pc = A + 2, then `pc <- NNN`; StackOverflow on the 17th (R109). -/
def execCall (nnn : BitVec 12) (s : State) : Host.Outcome State Fault Refusal :=
  s.execute fun t => do
    let t ← t.push t.pc
    return t.setPc (nnn.setWidth 16)

/-- 3XNN: `skip_if(V[X] = NN)` (R110). -/
def execSeVxNn (x : Reg) (nn : Byte) (s : State) : Host.Outcome State Fault Refusal :=
  s.execute fun t => .ok (t.skipIf (t.readV x == nn))

/-- 4XNN: `skip_if(V[X] != NN)` (R111). -/
def execSneVxNn (x : Reg) (nn : Byte) (s : State) : Host.Outcome State Fault Refusal :=
  s.execute fun t => .ok (t.skipIf (t.readV x != nn))

/-- 5XY0: `skip_if(V[X] = V[Y])` (R112). -/
def execSeVxVy (x y : Reg) (s : State) : Host.Outcome State Fault Refusal :=
  s.execute fun t => .ok (t.skipIf (t.readV x == t.readV y))

/-- 9XY0: `skip_if(V[X] != V[Y])` (R113). -/
def execSneVxVy (x y : Reg) (s : State) : Host.Outcome State Fault Refusal :=
  s.execute fun t => .ok (t.skipIf (t.readV x != t.readV y))

/-- BNNN: `pc <- NNN + V[r]`, r being 0 or d2 (R114). -/
def execJpV0Nnn (nnn : BitVec 12) (s : State) : Host.Outcome State Fault Refusal :=
  s.execute fun t =>
    .ok (t.setPc (nnn.setWidth 16 + (t.readV (t.jumpReg nnn)).setWidth 16))

/-- 00FD: the exit reset (R115, R256). -/
def execExit (s : State) : Host.Outcome State Fault Refusal :=
  s.execute fun t => .ok t.exitReset

end Sys2Proof.Machine
end

