-- ==== Sys2Proof/Machine/Index.lean ====
section
/-! DEFINITION. The meanings of the index-register, memory-transfer and RPL instructions
(42_index_memory.md R150 to R161). A block transfer completes or changes nothing (R224). -/

namespace Sys2Proof.Machine

/-- ANNN: `I <- NNN` (R150). -/
def execLdINnn (nnn : BitVec 12) (s : State) : Host.Outcome State Fault Refusal :=
  s.execute fun t => .ok { t with index := nnn.setWidth 16 }

/-- FX1E: `I <- wrap16(I + V[X])`, no flag (R151). -/
def execAddIVx (x : Reg) (s : State) : Host.Outcome State Fault Refusal :=
  s.execute fun t => .ok { t with index := t.index + (t.readV x).setWidth 16 }

/-- FX29: `I <- 5 * (V[X] AND 0x0F)` (R152). -/
def execLdFVx (x : Reg) (s : State) : Host.Outcome State Fault Refusal :=
  s.execute fun t => .ok { t with index := smallGlyphAddr (t.readV x) }

/-- FX30: `I <- 80 + 10 * (V[X] AND 0x0F)` (R153). -/
def execLdHfVx (x : Reg) (s : State) : Host.Outcome State Fault Refusal :=
  s.execute fun t => .ok { t with index := bigGlyphAddr (t.readV x) }

/-- FX33: the decimal digits of V[X] at I, I + 1, I + 2 (R154). -/
def execLdBVx (x : Reg) (s : State) : Host.Outcome State Fault Refusal :=
  s.execute fun t => t.writeBytes (t.dataAddr 0) (bcdDigits (t.readV x))

/-- `I <- wrap16(I + X + 1)` under memory_increment, after FX55 and FX65 (R155, R156, D16). -/
def State.postIncrement (t : State) (x : Reg) : State :=
  if t.config.quirks.memoryIncrement then
    { t with index := t.index + BitVec.ofNat 16 (x.val + 1) }
  else t

/-- FX55: store V0 .. VX at I, then the post-increment (R155). -/
def execLdMemVx (x : Reg) (s : State) : Host.Outcome State Fault Refusal :=
  s.execute fun t => do
    let t ← t.writeBytes (t.dataAddr 0) (t.readRegs (regsUpTo x))
    return t.postIncrement x

/-- FX65: load V0 .. VX from I, then the post-increment (R156). -/
def execLdVxMem (x : Reg) (s : State) : Host.Outcome State Fault Refusal :=
  s.execute fun t => do
    let bs ← t.readBytes (t.dataAddr 0) (x.val + 1)
    return (t.writeRegs (regsUpTo x) bs).postIncrement x

/-- F000 M: `I <- M`, and pc past the operand word (R157); the operand was read by the fetch
(log 10). -/
def execLdILong (m : Word) (s : State) : Host.Outcome State Fault Refusal :=
  s.execute fun t => .ok ({ t with index := m }.advancePc 2)

/-- 5XY2: store V[X] .. V[Y], rising or falling, at I; I is unchanged (R158). -/
def execSaveVxVy (x y : Reg) (s : State) : Host.Outcome State Fault Refusal :=
  s.execute fun t => t.writeBytes (t.dataAddr 0) (t.readRegs (regRange x y))

/-- 5XY3: load V[X] .. V[Y], rising or falling, from I; I is unchanged (R159). -/
def execLoadVxVy (x y : Reg) (s : State) : Host.Outcome State Fault Refusal :=
  s.execute fun t => do
    let bs ← t.readBytes (t.dataAddr 0) (regRange x y).length
    return t.writeRegs (regRange x y) bs

/-- FX75: `rpl[k] <- V[k]` for k = 0 .. X (R160). -/
def execLdRVx (x : Reg) (s : State) : Host.Outcome State Fault Refusal :=
  s.execute fun t =>
    .ok { t with rpl := (regsUpTo x).foldl (fun f k => f.set k.val (t.readV k)) t.rpl }

/-- FX85: `V[k] <- rpl[k]` for k = 0 .. X (R161). -/
def execLdVxR (x : Reg) (s : State) : Host.Outcome State Fault Refusal :=
  s.execute fun t => .ok (t.writeRegs (regsUpTo x) ((regsUpTo x).map fun k => t.rpl.get k))

end Sys2Proof.Machine
end

