-- ==== Sys2Proof/Machine/KeysTimersAudio.lean ====
section
/-! DEFINITION. The meanings of the keypad, timer and audio instructions (44_keys_timers_audio.md
R200 to R205, R208, R209). -/

namespace Sys2Proof.Machine

/-- EX9E: `skip_if(keys[V[X]])`; a key index past 15 raises OutOfBoundsAccess (R200). -/
def execSkp (x : Reg) (s : State) : Host.Outcome State Fault Refusal :=
  s.execute fun t => do
    let k ← keyIndex (t.readV x)
    return t.skipIf (t.keys.get k)

/-- EXA1: `skip_if(not keys[V[X]])`; a key index past 15 raises OutOfBoundsAccess (R201). -/
def execSknp (x : Reg) (s : State) : Host.Outcome State Fault Refusal :=
  s.execute fun t => do
    let k ← keyIndex (t.readV x)
    return t.skipIf (!t.keys.get k)

/-- FX0A: the smallest pressed key into V[X]; with no key pressed the same instruction runs again
in the next step (R202). -/
def execLdVxK (x : Reg) (s : State) : Host.Outcome State Fault Refusal :=
  s.execute fun t =>
    match t.lowestKey with
    | some k => .ok (t.writeV x (BitVec.ofNat 8 k.val))
    | none => .ok t.rewindPc

/-- FX07: `V[X] <- DT` (R203). -/
def execLdVxDt (x : Reg) (s : State) : Host.Outcome State Fault Refusal :=
  s.execute fun t => .ok (t.writeV x t.dt)

/-- FX15: `DT <- V[X]` (R204). -/
def execLdDtVx (x : Reg) (s : State) : Host.Outcome State Fault Refusal :=
  s.execute fun t => .ok { t with dt := t.readV x }

/-- FX18: `ST <- V[X]` (R205). -/
def execLdStVx (x : Reg) (s : State) : Host.Outcome State Fault Refusal :=
  s.execute fun t => .ok { t with st := t.readV x }

/-- F002: the 16 bytes at I into the pattern buffer; I is unchanged (R208). -/
def execAudio (s : State) : Host.Outcome State Fault Refusal :=
  s.execute fun t => do
    let bs ← t.readBytes (t.dataAddr 0) 16
    return { t with
      pattern := allRegs.foldl (fun f k => f.set k.val (bs.getD k.val 0)) t.pattern }

/-- FX3A: `pitch <- V[X]` (R209). -/
def execPitchVx (x : Reg) (s : State) : Host.Outcome State Fault Refusal :=
  s.execute fun t => .ok { t with pitch := t.readV x }

end Sys2Proof.Machine
end

