-- ==== Sys2Proof/Machine/Fetch.lean ====
section
/-! DEFINITION. The fetch unit (40_flow.md R101), the operand word of F000 (42_index_memory.md R157),
decode, and the instruction a `step` event runs (R100), with the priority of faults
(60_exceptions.md R227). -/

namespace Sys2Proof.Machine

/-- The instruction word at pc (R101). -/
def State.fetchWord (s : State) : Except Fault Word := s.memRead2 s.pc.toNat

/-- The operand word of a two-word instruction, at wrap16(A + 2); a one-word instruction has none
and reads nothing (R84, R157). -/
def State.fetchOperand (s : State) (op : Word) : Except Fault Word :=
  if instrWords s.config.variant op = 2 then s.memRead2 (s.pc + 2).toNat else .ok 0

/-- The decoded word, or DecodeFailure(op) (R85, R221). -/
def State.decoded (s : State) (op m : Word) : Except Fault Instr :=
  match decodeWord s.config.variant op m with
  | some i => .ok i
  | none => .error (.decodeFailure op)

/-- The instruction at pc, or the fault of its fetch or decode (R100, R227). -/
def State.fetchInstr (s : State) : Except Fault Instr := do
  let op ← s.fetchWord
  let m ← s.fetchOperand op
  s.decoded op m

/-- The `step` event, its is_key_frame input being `keyFrameIn` (R100): a halted machine changes
nothing (R226); a fault of fetch or decode is entered (R224); else the instruction runs. -/
def State.stepInstr (s : State) : Host.Outcome State Fault Refusal :=
  if s.halted then .next s
  else
    match s.fetchInstr with
    | .ok i => exec i s
    | .error f => .next (s.takeFault f)

end Sys2Proof.Machine
end

