-- ==== Sys2Proof/Machine/Events.lean ====
section
/-! DEFINITION. The host's events (00_scope.md R7, 60_exceptions.md R236 to R241, R246): each is one
atomic transition (R6). `reset()` and `load` are in Machine/Ops.lean, `step` in Machine/Fetch.lean. -/

namespace Sys2Proof.Machine

/-- A timer after one tick: one less, floored at 0 (R206). -/
def tickByte (b : Byte) : Byte := if b = 0 then 0 else b - 1

/-- `tick_timers()` (R206): both timers, nothing else, also while halted. -/
def State.tickTimers (s : State) : State := { s with dt := tickByte s.dt, st := tickByte s.st }

/-- `set_key(index, pressed)` (R236): an index past 15 is refused with no change. -/
def State.setKey (s : State) (index : Nat) (pressed : Bool) : State :=
  if h : index < 16 then { s with keys := s.keys.set index pressed } else s

/-- `load(bytes)` as an event: a refused image changes nothing (R229, R253). -/
def State.loadEvent (s : State) (bytes : List Byte) : State :=
  match s.load bytes with
  | .ok t => t
  | .error _ => s

/-- One host event. `step(kf)` drives the is_key_frame input and executes one instruction. -/
def State.event (s : State) : HostEvent → Host.Outcome State Fault Refusal
  | .step kf => { s with keyFrameIn := kf }.stepInstr
  | .tickTimers => .next s.tickTimers
  | .setKey index pressed => .next (s.setKey index pressed)
  | .load bytes => .next (s.loadEvent bytes)
  | .reset => .next s.resetEvent

/-- The next transition of the machine: the oldest scheduled event, or, when the host has scheduled
nothing, a `step` whose is_key_frame input is the level `keyFrameIn` (R6, R265; log 5, log 6). -/
def State.nextEvent (s : State) : Host.Outcome State Fault Refusal :=
  match s.schedule with
  | [] => s.stepInstr
  | e :: es => { s with schedule := es }.event e

/-- The typed result the host gets back from a `step` that ended in `s`: Ok, or Err with the record
(R224, R226, R239). -/
def State.stepResult (s : State) : Except FaultRecord Unit :=
  match s.fault with
  | none => .ok ()
  | some r => .error r

end Sys2Proof.Machine
end

