-- ==== Sys2Proof/Machine/Step.lean ====
section
/-! DEFINITION. One transition of the machine, and the state that makes the next one run a given
word. -/

namespace Sys2Proof.Machine

/-- One transition: the next event of the host (R6; log 5). -/
def step (s : State) : Host.Outcome State Fault Refusal := s.nextEvent

/-- `s` with an instruction, in the host's numbering, stored where the next step fetches it: the
first word at pc, the second at wrap16(pc + 2). Nothing is scheduled and no fault is recorded, so
the next transition is a step that fetches (log 15). -/
def State.withFetchWord (s : State) (nbits w : Nat) : State :=
  let bs := bytesOfWords (tableWords nbits w)
  let m := s.memory.writeBytes s.config.resetByte s.pc.toNat (bs.take 2)
  let m := m.writeBytes s.config.resetByte (s.pc + 2).toNat (bs.drop 2)
  { s with memory := m, schedule := [], fault := none }

end Sys2Proof.Machine
end

