-- ==== Sys2Proof/Machine/Outputs.lean ====
section
/-! DEFINITION. The block's read-only outputs (00_scope.md R7): the display port
(43_display.md R185, 60_exceptions.md R237) and the audio port (44_keys_timers_audio.md R207, R210,
60_exceptions.md R238). They are functions of the state (10_state.md R44). -/

namespace Sys2Proof.Machine

/-- `beep = (ST > 0)` (R207). -/
def State.beep (s : State) : Bool := decide (s.st.toNat > 0)

/-- n - 1/2 ≤ 4000 · 2^((pitch - 64)/48), multiplied out to integers: (2n - 1)^48 · 2^64 ≤
8000^48 · 2^pitch. -/
def frequencyAtLeast (pitch n : Nat) : Bool :=
  decide ((2 * n - 1) ^ 48 * 2 ^ 64 ≤ 8000 ^ 48 * 2 ^ pitch)

/-- The largest n below acc + 2^bits that `frequencyAtLeast` accepts, bit by bit. -/
def frequencySearch (pitch : Nat) : Nat → Nat → Nat
  | 0, acc => acc
  | k + 1, acc =>
    if frequencyAtLeast pitch (acc + 2 ^ k) then frequencySearch pitch k (acc + 2 ^ k)
    else frequencySearch pitch k acc

/-- `sound_frequency`: the integer nearest to 4000 · 2^((pitch - 64)/48) (R210). -/
def soundFrequencyOf (pitch : Byte) : Nat := frequencySearch pitch.toNat 17 0

/-- The `sound_frequency` output (R210, R238). -/
def State.soundFrequency (s : State) : Nat := soundFrequencyOf s.pitch

/-- A plane as the display port shows it: BUF_W × BUF_H booleans, row-major (R33, R185). -/
def State.planeBuffer (s : State) (k : PlaneId) : List Bool :=
  (List.range (s.config.variant.bufSize)).map fun i => (s.plane k).lit i

/-- The plane-1 output (R237). -/
def State.displayPlane1 (s : State) : List Bool := s.planeBuffer .one

/-- The plane-2 output, exposed on XOChip only (R32, R237). -/
def State.displayPlane2 (s : State) : Option (List Bool) :=
  if s.config.variant.hasPlane2 then some (s.planeBuffer .two) else none

/-- The `pattern_buffer` output (R238). -/
def State.patternBuffer (s : State) : List Byte := s.pattern.toList

/-- The `pitch_register` output (R238). -/
def State.pitchRegister (s : State) : Byte := s.pitch

end Sys2Proof.Machine
end

