-- ==== Sys2Proof/Safety.lean ====
section
/-! DEFINITION. What claims about the machine are stated in: the invariant of the state, safe
states and runs, the frame of an instruction, and the vocabulary of the display rules. -/

namespace Sys2Proof.Machine

/-! ## The invariant -/

/-- What holds of every state that construction and the block's events produce. -/
structure State.Inv (s : State) : Prop where
  /-- Memory has its canonical form and no byte at or past MEM_SIZE (R31, R60; log 4). -/
  memory : s.memory.wf s.config.resetByte s.memSize = true
  /-- Each plane is a buffer of BUF_W × BUF_H entries (R32, R50; log 11). -/
  planes : ∀ k, (s.plane k).wf s.config.variant.bufSize = true
  /-- Plane 2 stays all false outside XOChip (R32). -/
  plane2 : s.config.variant.hasPlane2 = false → s.plane2 = []
  /-- Plane 1 is the one drawn on outside XOChip (R34). -/
  drawPlane : s.config.variant.hasPlane2 = false → s.activeDrawPlane = .plane1
  /-- There is no high-resolution mode on Chip8 (R35). -/
  highRes : s.config.variant.hiresCapable = false → s.highResMode = false
  /-- The image of the last load fits above LOAD_BASE (R42, R253). -/
  image : s.loadedImage.length ≤ s.memSize - loadBase

/-! ## Safe runs -/

/-- A state that can be the end of a successful run: no fault is recorded (R247). -/
def State.Safe (s : State) : Prop := s.fault = none

/-- `t` is reached from `s` by transitions of the machine. -/
inductive Reaches : State → State → Prop where
  | refl (s : State) : Reaches s s
  | step {s t u : State} : Reaches s t → Machine.step t = .next u → Reaches s u

/-! ## Frames -/

/-- Which parts of the state an instruction may write. Nothing by default. -/
structure Effects where
  regs : Reg → Prop := fun _ => False
  mem : Nat → Prop := fun _ => False
  index : Prop := False
  stack : Prop := False
  dt : Prop := False
  st : Prop := False
  planes : PlaneId → Prop := fun _ => False
  drawPlane : Prop := False
  highRes : Prop := False
  rpl : Prop := False
  pattern : Prop := False
  pitch : Prop := False
  draws : Prop := False

/-- From `s`, the state at the start of a step, to `t`, the state after it, nothing changed but the
parts `w` names, pc, and the two fields every fetch writes, whose new values stand here (R100,
R103). Memory is compared byte by byte. -/
structure Frame (w : Effects) (s t : State) : Prop where
  regs : ∀ r, ¬ w.regs r → t.readV r = s.readV r
  mem : ∀ a, ¬ w.mem a → t.byteAt a = s.byteAt a
  index : ¬ w.index → t.index = s.index
  stack : ¬ w.stack → t.stack = s.stack ∧ t.sp = s.sp
  dt : ¬ w.dt → t.dt = s.dt
  st : ¬ w.st → t.st = s.st
  planes : ∀ k, ¬ w.planes k → t.plane k = s.plane k
  drawPlane : ¬ w.drawPlane → t.activeDrawPlane = s.activeDrawPlane
  highRes : ¬ w.highRes → t.highResMode = s.highResMode
  rpl : ¬ w.rpl → t.rpl = s.rpl
  pattern : ¬ w.pattern → t.pattern = s.pattern
  pitch : ¬ w.pitch → t.pitch = s.pitch
  draws : ¬ w.draws → t.draws = s.draws
  config : t.config = s.config
  keys : t.keys = s.keys
  fault : t.fault = s.fault
  image : t.loadedImage = s.loadedImage
  keyFrameIn : t.keyFrameIn = s.keyFrameIn
  schedule : t.schedule = s.schedule
  keyFrame : t.keyFrame = s.keyFrameIn
  wide : t.wide = s.lookahead (s.pc + 2)

/-- Which general registers an instruction may write: its destination, and VF where the rule writes
a flag (R23). -/
def mayWriteReg (vfReset : Bool) (r : Reg) : Instr → Prop
  | .ldVxNn x _ | .addVxNn x _ | .ldVxVy x _ | .rndVxNn x _ | .ldVxDt x | .ldVxK x => r = x
  | .orVxVy x _ | .andVxVy x _ | .xorVxVy x _ => r = x ∨ (vfReset = true ∧ r = VF)
  | .addVxVy x _ | .subVxVy x _ | .subnVxVy x _ | .shrVxVy x _ | .shlVxVy x _ => r = x ∨ r = VF
  | .drw _ _ _ => r = VF
  | .ldVxMem x | .ldVxR x => r ≤ x
  | .loadVxVy x y => (x ≤ r ∧ r ≤ y) ∨ (y ≤ r ∧ r ≤ x)
  | .exit => True
  | .nop | .cls | .ret | .scd _ | .scu _ | .scr | .scl | .low | .high | .jp _ | .call _
  | .seVxNn _ _ | .sneVxNn _ _ | .seVxVy _ _ | .saveVxVy _ _ | .sneVxVy _ _ | .ldINnn _
  | .jpV0Nnn _ | .skp _ | .sknp _ | .ldILong _ | .plane _ | .audio | .ldDtVx _ | .ldStVx _
  | .addIVx _ | .ldFVx _ | .ldHfVx _ | .ldBVx _ | .pitchVx _ | .ldMemVx _ | .ldRVx _ => False

/-! ## Vocabulary of the rules -/

/-- The words `op` of an instruction's row: `op` decodes to `i` in the variants of the row's set and
to nothing in the others, whatever word follows (R85, R86). -/
def HasRow (i : Instr) (op : Word) (vs : VariantSet) : Prop :=
  ∀ v m, decodeWord v op m = if vs.mem v then some i else none

/-- Where a skip goes: A + 2 when the condition fails, else A + 4, and A + 6 past the word 0xF000
(R105). -/
def skipTarget (s : State) (c : Bool) : Word :=
  if c then (if s.lookahead (s.pc + 2) then s.pc + 6 else s.pc + 4) else s.pc + 2

/-- The state after a step that starts in `s` and raises `f`: `s` with the record (R220, R224). -/
def State.recorded (s : State) (f : Fault) : State := { s with fault := some ⟨f, s.pc⟩ }

/-- The first address at or past MEM_SIZE of a transfer that starts at I and runs past it (R225). -/
def State.firstOutside (s : State) : Nat := max s.index.toNat s.memSize

/-- The sprite bit of image `j` at row `r` and column `c`, read from memory at I (R172). -/
def State.spriteBitAt (s : State) (n : Nibble) (j r c : Nat) : Bool :=
  let sh := spriteShape n
  (s.byteAt (s.dataAddr (j * sh.bytes + r * sh.bytesPerRow + c / 8))).getLsbD (7 - c % 8)

/-- Column and row of the sprite's top left pixel (R175). -/
def State.spriteBase (s : State) (x y : Reg) : Nat × Nat :=
  ((s.readV x).toNat % s.geometry.width, (s.readV y).toNat % s.geometry.height)

/-- A sprite pixel at row `r`, column `c` falls past the right or bottom edge and is dropped
(R173). -/
def State.spriteDropped (s : State) (x y : Reg) (r c : Nat) : Bool :=
  s.config.quirks.clipping &&
    (decide (s.geometry.width ≤ (s.spriteBase x y).1 + c) ||
      decide (s.geometry.height ≤ (s.spriteBase x y).2 + r))

/-- Image `j` flips the buffer pixel (bx, by): the one sprite position whose block holds it, with
wrap-around or clipping, has its bit set (R172, R173). -/
def State.spriteFlips (s : State) (x y : Reg) (n : Nibble) (j bx by_ : Nat) : Bool :=
  let g := s.geometry
  let sh := spriteShape n
  let c := (bx / g.scale + g.width - (s.spriteBase x y).1) % g.width
  let r := (by_ / g.scale + g.height - (s.spriteBase x y).2) % g.height
  decide (c < sh.cols) && decide (r < sh.rows) && s.spriteBitAt n j r c &&
    !s.spriteDropped x y r c

/-- A buffer pixel of the block of sprite position (r, c) is lit on plane `k` (R173). -/
def State.blockLit (s : State) (k : PlaneId) (x y : Reg) (r c : Nat) : Bool :=
  let g := s.geometry
  (List.range g.scale).any fun dy => (List.range g.scale).any fun dx =>
    s.pixel k (((s.spriteBase x y).1 + c) % g.width * g.scale + dx)
      (((s.spriteBase x y).2 + r) % g.height * g.scale + dy)

/-- Row `r` of image `j`, drawn on plane `k` as it is in `s`, collides: a set bit of it is dropped
and dropped bits count, or hits a lit pixel (R174). -/
def State.rowCollides (s : State) (k : PlaneId) (x y : Reg) (n : Nibble) (j r : Nat) : Bool :=
  (List.range (spriteShape n).cols).any fun c =>
    s.spriteBitAt n j r c &&
      (if s.spriteDropped x y r c then s.config.quirks.clipCountsAsCollision
       else s.blockLit k x y r c)

/-- How many rows of the images of one DXYN collide, over the selected planes (R174). -/
def State.collidedRows (s : State) (x y : Reg) (n : Nibble) : Nat :=
  (s.selectedPlanes.zipIdx.map fun kj =>
    (List.range (spriteShape n).rows).countP fun r => s.rowCollides kj.1 x y n kj.2 r).sum

/-- How many bytes one DXYN reads: an image for each selected plane (R172, R175). -/
def State.spriteLength (s : State) (n : Nibble) : Nat :=
  s.selectedPlanes.length * (spriteShape n).bytes

end Sys2Proof.Machine
end

