-- ==== Sys2Proof/Certificates/Slice0/Obligations.lean ====
section
/-! DEFINITION. The statements about the machine. Each names the rules of spec/ it formalises; a
clause that rests on a decision the spec marks as its own (D<n>), or on the model's log, says so. -/

open Sys2Proof Sys2Proof.Machine

/-! ## Encoding and decode -/

/-- Encoding an instruction of a variant to bytes and decoding them gives it back, with every
operand at every value, and leaves the bytes that follow (R80 to R85). -/
def Obligations.DecodeOfEncodeIsIdentity : Prop :=
  ∀ (v : Variant) (i : Instr) (rest : List Byte), i.wellFormed v = true →
    decode v (bytesOfWords (encode i) ++ rest) = .ok (i, rest)

/-- Whatever bytes decode, they are the encoding of a well-formed instruction followed by the rest:
no two byte strings of one length mean the same, and no reserved encoding is accepted. -/
def Obligations.DecodedBytesAreTheEncoding : Prop :=
  ∀ (v : Variant) (bs rest : List Byte) (i : Instr), decode v bs = .ok (i, rest) →
    i.wellFormed v = true ∧ bs = bytesOfWords (encode i) ++ rest

/-- A word decodes in a variant exactly when a row of the opcode table matches it and the row's
variant set holds the variant; no two rows match one word (R85, R87; variant sets D1, D18). -/
def Obligations.DecodeAcceptsExactlyTheTable : Prop :=
  (∀ (v : Variant) (op m : Word), (decodeWord v op m).isSome = true ↔
      ∃ r ∈ opcodeTable, r.matchesWord op = true ∧ r.variants.mem v = true) ∧
  (∀ (op : Word), opcodeTable.countP (fun r => r.matchesWord op) ≤ 1)

/-- Words written out from the spec's examples decode to the instructions they stand for. -/
def Obligations.ExampleWordsDecode : Prop :=
  decodeWord .chip8 0x8124 0 = some (.addVxVy 1 2) ∧ decodeWord .chip8 0x6A02 0 = some (.ldVxNn 10 2) ∧
  decodeWord .chip8 0xD015 0 = some (.drw 0 1 5) ∧ decodeWord .chip8 0x00EE 0 = some .ret ∧
  decodeWord .schip 0x00C3 0 = some (.scd 3) ∧ decodeWord .xochip 0xF000 0x1234 = some (.ldILong 0x1234) ∧
  decodeWord .schip 0xF000 0x1234 = none ∧ decodeWord .chip8 0x0123 0 = none

/-! ## The step -/

/-- When the word at pc decodes to `i` (with its operand word, for F000), one step with no fault
recorded is `exec i`: at the state itself when the host has scheduled nothing, and at the state with
the is_key_frame input driven when it has scheduled a `step` (R100, R101, R157; the schedule is the
model's form of the host's input, log 5, log 6). -/
def Obligations.StepRunsTheDecodedInstruction : Prop :=
  ∀ (s : State) (i : Instr), s.fault = none → s.pc.toNat + 1 < s.memSize →
    let op := wordOfBytes (s.byteAt s.pc.toNat) (s.byteAt (s.pc.toNat + 1))
    let p := (s.pc + 2).toNat
    (op = longWord → p + 1 < s.memSize) →
    decodeWord s.config.variant op (wordOfBytes (s.byteAt p) (s.byteAt (p + 1))) = some i →
    (s.schedule = [] → step s = exec i s) ∧
    (∀ kf es, s.schedule = .step kf :: es →
      step s = exec i { s with schedule := es, keyFrameIn := kf })

/-- The fetch and the decode fault first, in that order, and the step then only records the fault:
a fetch past MEM_SIZE names the first address outside, a word that does not decode names itself
(R62, R101, R221, R224, R225, R227; decisions D2, D5). -/
def Obligations.FetchAndDecodeFaultsAreRecorded : Prop :=
  ∀ (s : State), s.fault = none → s.schedule = [] →
    (s.memSize ≤ s.pc.toNat + 1 →
      step s = .next (s.recorded (.outOfBounds .memory (max s.pc.toNat s.memSize)))) ∧
    (s.pc.toNat + 1 < s.memSize →
      let op := wordOfBytes (s.byteAt s.pc.toNat) (s.byteAt (s.pc.toNat + 1))
      (∀ m, decodeWord s.config.variant op m = none) →
      step s = .next (s.recorded (.decodeFailure op)))

/-- The look-ahead is true exactly when the next word lies wholly in memory and is F0 00, in every
variant; it is never a fault, since it is a plain boolean (R103; decision D8). -/
def Obligations.LookaheadSeesF000InEveryVariant : Prop :=
  ∀ (s : State) (pc : Word), s.lookahead pc = true ↔
    pc.toNat + 1 < s.memSize ∧ s.byteAt pc.toNat = 0xF0 ∧ s.byteAt (pc.toNat + 1) = 0x00

/-- Every transition of the machine ends in a next state: the block never stops by itself (R247),
and no instruction is refused; a fault is entered in a next state (R224; log 8). -/
def Obligations.EveryTransitionHasANextState : Prop :=
  ∀ s : State, ∃ t, step s = .next t

/-- Faults are precise: a step of an unhalted machine that ends with a fault recorded left
everything else as it was before the step, key_frame and wide included, and the record's A is the
pc at the start of the step. Only the host's inputs (the schedule, the is_key_frame level) moved on
(R220, R224; decision D2). -/
def Obligations.FaultsArePrecise : Prop :=
  ∀ (s t : State) (r : FaultRecord), s.fault = none → step s = .next t → t.fault = some r →
    r.addr = s.pc ∧
    t = { s with fault := some r, schedule := t.schedule, keyFrameIn := t.keyFrameIn }

/-- While a fault is recorded a `step` changes nothing, and of the host's events only `reset` clears
the record (R226; decision D2). Only the host's inputs move on (log 5, log 6). -/
def Obligations.HaltedUntilReset : Prop :=
  ∀ (s t : State) (r : FaultRecord), s.fault = some r → step s = .next t →
    (s.schedule = [] → t = s) ∧
    (∀ kf es, s.schedule = .step kf :: es → t = { s with schedule := es, keyFrameIn := kf }) ∧
    ((∀ es, s.schedule ≠ .reset :: es) → t.fault = some r) ∧
    (∀ es, s.schedule = .reset :: es → t.fault = none)

/-! ## Whole-machine rules -/

/-- The invariant holds of a freshly constructed machine in every configuration, `State.reset`
among them. -/
def Obligations.ConstructionMeetsTheInvariant : Prop :=
  (∀ c : Config, (State.new c).Inv) ∧ State.reset.Inv

/-- Every transition keeps the invariant: memory keeps its canonical form within MEM_SIZE, the planes
keep their size, plane 2 and the plane selector stay as they are outside XOChip, there is no
high-resolution mode on Chip8, the loaded image fits (R31, R32, R34, R35, R50; the canonical forms
are the model's, log 4 and log 11). -/
def Obligations.EveryTransitionKeepsTheInvariant : Prop :=
  ∀ s t : State, s.Inv → step s = .next t → t.Inv

/-- No event changes the configuration (R48), and keys change only by a scheduled `set_key`
(R30). -/
def Obligations.ConfigurationFixedKeysOnlyFromTheHost : Prop :=
  ∀ s t : State, step s = .next t →
    t.config = s.config ∧
    ((∀ k b es, s.schedule ≠ .setKey k b :: es) → t.keys = s.keys)

/-- Which instructions write the registers outside V, memory and the planes: apart from the exit
reset, each field changes only under the instructions its rule names (R25 to R29, R34 to R38,
R61). -/
def Obligations.SpecialRegistersHaveOneWriter : Prop :=
  ∀ (i : Instr) (s t : State), exec i s = .next t → i ≠ .exit →
    (t.dt = s.dt ∨ ∃ x, i = .ldDtVx x) ∧
    (t.st = s.st ∨ ∃ x, i = .ldStVx x) ∧
    (t.pitch = s.pitch ∨ ∃ x, i = .pitchVx x) ∧
    (t.pattern = s.pattern ∨ i = .audio) ∧
    (t.rpl = s.rpl ∨ ∃ x, i = .ldRVx x) ∧
    (t.activeDrawPlane = s.activeDrawPlane ∨ ∃ x, i = .plane x) ∧
    (t.highResMode = s.highResMode ∨ i = .low ∨ i = .high) ∧
    (t.stack = s.stack ∨ ∃ a, i = .call a) ∧
    (t.sp = s.sp ∨ i = .ret ∨ ∃ a, i = .call a) ∧
    ((∀ a, t.byteAt a = s.byteAt a) ∨ (∃ x, i = .ldBVx x) ∨ (∃ x, i = .ldMemVx x) ∨
      ∃ x y, i = .saveVxVy x y) ∧
    (t.index = s.index ∨ (∃ a, i = .ldINnn a) ∨ (∃ x, i = .addIVx x) ∨ (∃ x, i = .ldFVx x) ∨
      (∃ x, i = .ldHfVx x) ∨ (∃ m, i = .ldILong m) ∨ (∃ x, i = .ldMemVx x) ∨ ∃ x, i = .ldVxMem x) ∧
    ((∀ k, t.plane k = s.plane k) ∨ i = .cls ∨ (∃ x y n, i = .drw x y n) ∨ (∃ n, i = .scd n) ∨
      (∃ n, i = .scu n) ∨ i = .scr ∨ i = .scl)

/-- A general register changes only under an instruction that may write it: its destination
registers, and VF where the instruction has a flag (R23). -/
def Obligations.GeneralRegistersChangeOnlyByTheirWriters : Prop :=
  ∀ (i : Instr) (s t : State) (r : Reg), exec i s = .next t → t.readV r ≠ s.readV r →
    mayWriteReg s.config.quirks.vfReset r i

/-- The key-frame input reaches nothing but the key_frame field: two runs of one instruction that
differ only in it end in states that differ only in it, unless the instruction is DXYN under
display_wait (R39; the input's level is a field of the model, log 6). -/
def Obligations.OnlyDisplayWaitReadsTheKeyFrame : Prop :=
  ∀ (i : Instr) (s t : State) (b : Bool), exec i s = .next t →
    ((∀ x y n, i ≠ .drw x y n) ∨ s.config.quirks.displayWait = false) →
    ∃ u, exec i { s with keyFrameIn := b } = .next u ∧
      { u with keyFrame := t.keyFrame, keyFrameIn := t.keyFrameIn } = t

/-! ## Reset, load and the host's other events -/

/-- What construction leaves: registers zeroed, pc at the load address, the stack empty, the fonts in
memory and zero elsewhere, the planes clear, the configuration attached, which the source states; and
no key pressed and no fault, which the spec decides (R49, R69, R252; decisions D27 for the keys, D2
for the fault; log 13). -/
def Obligations.ConstructionLeavesTheStatedValues : Prop :=
  ∀ c : Config, let s := State.new c
    (∀ r, s.readV r = 0) ∧ s.pc.toNat = 0x200 ∧ s.spInt = -1 ∧ s.fault = none ∧ s.config = c ∧
    (∀ k, s.keys.get k = false) ∧ (∀ k x y, s.pixel k x y = false) ∧
    (∀ a, (h : a < 80) → s.byteAt a = c.fontSmall[a]) ∧
    (∀ a, (h : a < 100) → s.byteAt (80 + a) = c.fontBig[a]) ∧
    (∀ a, 180 ≤ a → s.byteAt a = 0)

/-- The values the spec decides for the rest of the state at construction (R49; its decisions D26
and D27, C7). -/
def Obligations.ConstructionLeavesTheDecidedValues : Prop :=
  ∀ c : Config, let s := State.new c
    s.index = 0 ∧ s.dt = 0 ∧ s.st = 0 ∧ (∀ k, s.stack.get k = 0) ∧ (∀ k, s.rpl.get k = 0) ∧
    (∀ k, s.pattern.get k = 0) ∧ s.pitch.toNat = 64 ∧ s.activeDrawPlane = .plane1 ∧
    s.highResMode = false ∧ s.keyFrame = false ∧ s.wide = false ∧ s.loadedImage = []

/-- The `reset()` event, from any state: the state of a fresh construction in the same configuration,
but for the keys and the model's own inputs and draw count (R251; decision D27; log 5, log 6,
log 7). -/
def Obligations.ResetReinitialisesAllButKeys : Prop :=
  ∀ (s : State) (es : List HostEvent), s.schedule = .reset :: es →
    ∃ t, step s = .next t ∧ t.keys = s.keys ∧
      t = { State.new s.config with
        keys := s.keys, keyFrameIn := s.keyFrameIn, schedule := es, draws := s.draws }

/-- EXIT: a reset that keeps the RPL flags, the keys and the image of the last load, and writes that
image at 0x200 again (R115, R256; decision D26). -/
def Obligations.ExitRestartsTheLoadedProgram : Prop :=
  HasRow .exit 0x00FD .schipUp ∧
  ∀ s : State, ∃ t, exec .exit s = .next t ∧
    t.rpl = s.rpl ∧ t.keys = s.keys ∧ t.config = s.config ∧ t.loadedImage = s.loadedImage ∧
    t.schedule = s.schedule ∧ t.keyFrameIn = s.keyFrameIn ∧ t.draws = s.draws ∧
    (∀ r, t.readV r = 0) ∧ t.pc.toNat = 0x200 ∧ t.index = 0 ∧ t.spInt = -1 ∧
    (∀ k, t.stack.get k = 0) ∧ t.dt = 0 ∧ t.st = 0 ∧ (∀ k x y, t.pixel k x y = false) ∧
    t.activeDrawPlane = .plane1 ∧ t.highResMode = false ∧ (∀ k, t.pattern.get k = 0) ∧
    t.pitch.toNat = 64 ∧ t.keyFrame = false ∧ t.wide = false ∧ t.fault = none ∧
    (s.Inv → ∀ k, (h : k < s.loadedImage.length) → t.byteAt (loadBase + k) = s.loadedImage[k]) ∧
    (∀ a, a < loadBase ∨ loadBase + s.loadedImage.length ≤ a →
      t.byteAt a = s.config.resetByte a)

/-- `load(bytes)`: an image that fits is written from 0x200 on and recorded, and nothing else
changes; one that does not fit is refused with OutOfBoundsAccess(memory, MEM_SIZE) and changes
nothing (R229, R253; decision D29). -/
def Obligations.LoadWritesTheImageOrNothing : Prop :=
  ∀ (s : State) (bs : List Byte) (es : List HostEvent), s.Inv → s.schedule = .load bs :: es →
    ∃ t, step s = .next t ∧
      (bs.length ≤ s.memSize - 0x200 →
        (∀ k, (h : k < bs.length) → t.byteAt (0x200 + k) = bs[k]) ∧
        (∀ a, a < 0x200 ∨ 0x200 + bs.length ≤ a → t.byteAt a = s.byteAt a) ∧
        t = { s with memory := t.memory, loadedImage := bs, schedule := es }) ∧
      (s.memSize - 0x200 < bs.length →
        s.load bs = .error (.outOfBounds .memory s.memSize) ∧ t = { s with schedule := es })

/-- `tick_timers()`: both timers go down by one, never below 0, and nothing else changes, also while
the machine is halted; `beep` is true exactly when ST is not 0 after it. `set_key(index, pressed)`:
writes that key and nothing else; an index past 15 is refused with no change (R206, R207, R236;
decision D13). -/
def Obligations.TickDecrementsTimersAndSetKeyWritesOneKey : Prop :=
  (∀ (s : State) (es : List HostEvent), s.schedule = .tickTimers :: es →
    ∃ t, step s = .next t ∧ t.dt.toNat = s.dt.toNat - 1 ∧ t.st.toNat = s.st.toNat - 1 ∧
      t = { s with dt := t.dt, st := t.st, schedule := es } ∧
      (t.beep = true ↔ 1 < s.st.toNat)) ∧
  ∀ (s : State) (n : Nat) (b : Bool) (es : List HostEvent), s.schedule = .setKey n b :: es →
    ∃ t, step s = .next t ∧ t = { s with keys := t.keys, schedule := es } ∧
      (∀ k : Fin 16, t.keys.get k = if k.val = n then b else s.keys.get k)

/-- `sound_frequency` is the integer nearest to 4000 · 2^((pitch - 64)/48) (R210). -/
def Obligations.SoundFrequencyIsTheNearestInteger : Prop :=
  ∀ s : State,
    |(s.soundFrequency : ℝ) - 4000 * (2 : ℝ) ^ (((s.pitch.toNat : ℝ) - 64) / 48)| < 1 / 2

/-- The display port shows BUF_W × BUF_H booleans of each plane, row-major, plane 2 on XOChip only
(R33, R185, R237). -/
def Obligations.DisplayPortIsRowMajor : Prop :=
  ∀ s : State, let w := s.config.variant.bufW; let h := s.config.variant.bufH
    s.displayPlane1.length = w * h ∧
    (∀ x y, x < w → y < h → s.displayPlane1[y * w + x]? = some (s.pixel .one x y)) ∧
    (s.config.variant ≠ .xochip → s.displayPlane2 = none) ∧
    (s.config.variant = .xochip → ∃ buf, s.displayPlane2 = some buf ∧ buf.length = w * h ∧
      ∀ x y, x < w → y < h → buf[y * w + x]? = some (s.pixel .two x y))

/-! ## Memory -/

/-- The access primitives. A byte read after a byte write gives the value written, another address is
left alone, and at or past MEM_SIZE both raise OutOfBoundsAccess with the address. A word write puts
the high byte at the lower address, a word read gives it back, and a word access that runs past
MEM_SIZE raises with the first address outside (R62 to R64; decision D5). -/
def Obligations.MemoryReadsWhatWasWritten : Prop :=
  ∀ (s : State) (a : Nat) (b : Byte) (w : Word), s.Inv →
    (a < s.memSize → ∃ t, s.memWrite a b = .ok t ∧ t.memRead a = .ok b ∧ t.Inv ∧
      (∀ a', a' ≠ a → t.memRead a' = s.memRead a') ∧ t = { s with memory := t.memory }) ∧
    (s.memSize ≤ a → s.memWrite a b = .error (.outOfBounds .memory a) ∧
      s.memRead a = .error (.outOfBounds .memory a)) ∧
    (a + 1 < s.memSize → ∃ t, s.memWrite2 a w = .ok t ∧ t.memRead2 a = .ok w ∧
      (t.byteAt a).toNat = w.toNat / 256 ∧ (t.byteAt (a + 1)).toNat = w.toNat % 256 ∧
      (∀ a', a' ≠ a → a' ≠ a + 1 → t.memRead a' = s.memRead a') ∧
      t = { s with memory := t.memory }) ∧
    (s.memSize ≤ a + 1 →
      s.memWrite2 a w = .error (.outOfBounds .memory (max a s.memSize)) ∧
      s.memRead2 a = .error (.outOfBounds .memory (max a s.memSize)))

/-- A store is seen by the next fetch: after FX55 has written two or more registers at I, fetching at
I gives the word V0, V1 (R73). -/
def Obligations.FetchSeesAStoreAtOnce : Prop :=
  ∀ (s t : State) (x : Reg), s.Inv → 1 ≤ x.val → s.index.toNat + x.val < s.memSize →
    exec (.ldMemVx x) s = .next t →
    State.fetchWord { t with pc := s.index } = .ok (wordOfBytes (s.readV 0) (s.readV 1))

/-! ## Control flow -/

/-- NOP does nothing but the fetch (R106). -/
def Obligations.NopOnlyAdvances : Prop :=
  HasRow .nop 0x0000 .all ∧
  ∀ s : State, ∃ t, exec .nop s = .next t ∧ t.pc = s.pc + 2 ∧ Frame {} s t

/-- JP NNN goes to NNN; JP V0, NNN goes to NNN + V0, or to NNN + V[d2] under jump_uses_vx; neither
wraps (R108, R114). -/
def Obligations.JumpsGoToTheirTargets : Prop :=
  (∀ nnn : BitVec 12, HasRow (.jp nnn) (fmtA 0x1 nnn) .all ∧
    HasRow (.jpV0Nnn nnn) (fmtA 0xB nnn) .all) ∧
  ∀ (s : State) (nnn : BitVec 12),
    (∃ t, exec (.jp nnn) s = .next t ∧ t.pc.toNat = nnn.toNat ∧ Frame {} s t) ∧
    (∀ r : Reg, r.val = (if s.config.quirks.jumpUsesVx then nnn.toNat / 256 else 0) →
      ∃ t, exec (.jpV0Nnn nnn) s = .next t ∧
        t.pc.toNat = nnn.toNat + (s.readV r).toNat ∧ Frame {} s t)

/-- CALL pushes A + 2 and goes to NNN; with 16 addresses held it raises StackOverflow
(R109; decision D4). -/
def Obligations.CallPushesTheReturnAddress : Prop :=
  (∀ nnn : BitVec 12, HasRow (.call nnn) (fmtA 0x2 nnn) .all) ∧
  ∀ (s : State) (nnn : BitVec 12),
    (s.spInt ≠ 15 → ∃ t, exec (.call nnn) s = .next t ∧ t.pc.toNat = nnn.toNat ∧
      t.spInt = s.spInt + 1 ∧
      (∀ k : Fin 16, t.stack.get k = if (k.val : Int) = t.spInt then s.pc + 2 else s.stack.get k) ∧
      Frame { stack := True } s t) ∧
    (s.spInt = 15 → exec (.call nnn) s = .next (s.recorded .stackOverflow))

/-- RET goes to the top entry and pops it, leaving the entries as they are; on an empty stack it
raises StackUnderflow (R107; decision D4). -/
def Obligations.RetPopsTheReturnAddress : Prop :=
  HasRow .ret 0x00EE .all ∧
  ∀ s : State,
    (∀ k : Fin 16, s.spInt = (k.val : Int) → ∃ t, exec .ret s = .next t ∧ t.pc = s.stack.get k ∧
      t.spInt = s.spInt - 1 ∧ t.stack = s.stack ∧ Frame { stack := True } s t) ∧
    (s.spInt = -1 → exec .ret s = .next (s.recorded .stackUnderflow))

/-- A call that succeeds and a return from the state it leaves come back to the address after the
call, with the stack depth as before (R107, R109). -/
def Obligations.ReturnUndoesCall : Prop :=
  ∀ (s t : State) (nnn : BitVec 12), s.spInt ≠ 15 → exec (.call nnn) s = .next t →
    ∃ u, exec .ret t = .next u ∧ u.pc = s.pc + 2 ∧ u.sp = s.sp

/-- The four register skips: A + 4 when the condition holds, A + 6 when the next word is F000, else
A + 2 (R105, R110 to R113). -/
def Obligations.RegisterSkipsStepOverTheNextInstruction : Prop :=
  (∀ (x y : Reg) (nn : Byte), HasRow (.seVxNn x nn) (fmtXB 0x3 x nn) .all ∧
    HasRow (.sneVxNn x nn) (fmtXB 0x4 x nn) .all ∧ HasRow (.seVxVy x y) (fmtXY 0x5 x y 0x0) .all ∧
    HasRow (.sneVxVy x y) (fmtXY 0x9 x y 0x0) .all) ∧
  ∀ (s : State) (x y : Reg) (nn : Byte),
    (∃ t, exec (.seVxNn x nn) s = .next t ∧
      t.pc = skipTarget s (decide (s.readV x = nn)) ∧ Frame {} s t) ∧
    (∃ t, exec (.sneVxNn x nn) s = .next t ∧
      t.pc = skipTarget s (decide (s.readV x ≠ nn)) ∧ Frame {} s t) ∧
    (∃ t, exec (.seVxVy x y) s = .next t ∧
      t.pc = skipTarget s (decide (s.readV x = s.readV y)) ∧ Frame {} s t) ∧
    (∃ t, exec (.sneVxVy x y) s = .next t ∧
      t.pc = skipTarget s (decide (s.readV x ≠ s.readV y)) ∧ Frame {} s t)

/-- SKP and SKNP skip on the key V[X]; a key index past 15 raises OutOfBoundsAccess(keys, V[X])
(R105, R200, R201; decision D13). -/
def Obligations.KeySkipsReadTheKeyOfVx : Prop :=
  (∀ x : Reg, HasRow (.skp x) (fmtXB 0xE x 0x9E) .all ∧ HasRow (.sknp x) (fmtXB 0xE x 0xA1) .all) ∧
  ∀ (s : State) (x : Reg),
    (∀ k : Fin 16, (s.readV x).toNat = k.val →
      (∃ t, exec (.skp x) s = .next t ∧ t.pc = skipTarget s (s.keys.get k) ∧ Frame {} s t) ∧
      (∃ t, exec (.sknp x) s = .next t ∧ t.pc = skipTarget s (!s.keys.get k) ∧ Frame {} s t)) ∧
    (15 < (s.readV x).toNat →
      exec (.skp x) s = .next (s.recorded (.outOfBounds .keys (s.readV x).toNat)) ∧
      exec (.sknp x) s = .next (s.recorded (.outOfBounds .keys (s.readV x).toNat)))

/-! ## ALU -/

/-- LD VX, NN and ADD VX, NN: the value, or the sum modulo 256; VF only as the destination
(R131, R132). -/
def Obligations.ImmediateLoadAndAdd : Prop :=
  (∀ (x : Reg) (nn : Byte), HasRow (.ldVxNn x nn) (fmtXB 0x6 x nn) .all ∧
    HasRow (.addVxNn x nn) (fmtXB 0x7 x nn) .all) ∧
  ∀ (s : State) (x : Reg) (nn : Byte),
    (∃ t, exec (.ldVxNn x nn) s = .next t ∧ t.pc = s.pc + 2 ∧ t.readV x = nn ∧
      Frame { regs := (· = x) } s t) ∧
    (∃ t, exec (.addVxNn x nn) s = .next t ∧ t.pc = s.pc + 2 ∧
      (t.readV x).toNat = ((s.readV x).toNat + nn.toNat) % 256 ∧ Frame { regs := (· = x) } s t)

/-- LD VX, VY copies V[Y] (R133; decision D10). -/
def Obligations.RegisterCopy : Prop :=
  (∀ x y : Reg, HasRow (.ldVxVy x y) (fmtXY 0x8 x y 0x0) .all) ∧
  ∀ (s : State) (x y : Reg), ∃ t, exec (.ldVxVy x y) s = .next t ∧ t.pc = s.pc + 2 ∧
    t.readV x = s.readV y ∧ Frame { regs := (· = x) } s t

/-- OR, AND and XOR combine V[X] and V[Y] bit by bit into V[X]; under vf_reset VF is 0 afterwards,
also when X = F, and otherwise VF changes only as the destination (R134 to R136). -/
def Obligations.LogicCombinesAndResetsVF : Prop :=
  (∀ x y : Reg, HasRow (.orVxVy x y) (fmtXY 0x8 x y 0x1) .all ∧
    HasRow (.andVxVy x y) (fmtXY 0x8 x y 0x2) .all ∧
    HasRow (.xorVxVy x y) (fmtXY 0x8 x y 0x3) .all) ∧
  ∀ (s : State) (x y : Reg), let a := s.readV x; let b := s.readV y
    let q := s.config.quirks.vfReset
    let post : State → Byte → Prop := fun t r =>
      t.pc = s.pc + 2 ∧ (q = true → t.readV VF = 0) ∧ ((q = false ∨ x ≠ VF) → t.readV x = r) ∧
      Frame { regs := fun k => k = x ∨ (q = true ∧ k = VF) } s t
    (∃ t r, exec (.orVxVy x y) s = .next t ∧ post t r ∧
      ∀ k, k < 8 → r.getLsbD k = (a.getLsbD k || b.getLsbD k)) ∧
    (∃ t r, exec (.andVxVy x y) s = .next t ∧ post t r ∧
      ∀ k, k < 8 → r.getLsbD k = (a.getLsbD k && b.getLsbD k)) ∧
    (∃ t r, exec (.xorVxVy x y) s = .next t ∧ post t r ∧
      ∀ k, k < 8 → r.getLsbD k = (a.getLsbD k ^^ b.getLsbD k))

/-- ADD VX, VY: the sum modulo 256 in V[X], VF = 1 exactly when a + b > 255; the flag is what VF
holds when X = F, and the old VF is the operand when Y = F (R130, R137; order of writes D9). -/
def Obligations.AddSetsCarry : Prop :=
  (∀ x y : Reg, HasRow (.addVxVy x y) (fmtXY 0x8 x y 0x4) .all) ∧
  ∀ (s : State) (x y : Reg), let a := (s.readV x).toNat; let b := (s.readV y).toNat
    ∃ t, exec (.addVxVy x y) s = .next t ∧ t.pc = s.pc + 2 ∧
      (x ≠ VF → (t.readV x).toNat = (a + b) % 256) ∧
      (t.readV VF).toNat = (if a + b > 255 then 1 else 0) ∧
      Frame { regs := fun k => k = x ∨ k = VF } s t

/-- SUB and SUBN: V[X] - V[Y] and V[Y] - V[X] modulo 256 in V[X], VF = 0 exactly on a borrow
(R130, R138, R140; order of writes D9). -/
def Obligations.SubtractSetsNotBorrow : Prop :=
  (∀ x y : Reg, HasRow (.subVxVy x y) (fmtXY 0x8 x y 0x5) .all ∧
    HasRow (.subnVxVy x y) (fmtXY 0x8 x y 0x7) .all) ∧
  ∀ (s : State) (x y : Reg), let a := (s.readV x).toNat; let b := (s.readV y).toNat
    (∃ t, exec (.subVxVy x y) s = .next t ∧ t.pc = s.pc + 2 ∧
      (x ≠ VF → (t.readV x).toNat = (256 + a - b) % 256) ∧
      (t.readV VF).toNat = (if a < b then 0 else 1) ∧
      Frame { regs := fun k => k = x ∨ k = VF } s t) ∧
    (∃ t, exec (.subnVxVy x y) s = .next t ∧ t.pc = s.pc + 2 ∧
      (x ≠ VF → (t.readV x).toNat = (256 + b - a) % 256) ∧
      (t.readV VF).toNat = (if b < a then 0 else 1) ∧
      Frame { regs := fun k => k = x ∨ k = VF } s t)

/-- SHR and SHL: the source, V[X] under shifting_ignores_source and V[Y] otherwise, shifted by one
into V[X], VF the bit shifted out (R130, R139, R141; order of writes D9). -/
def Obligations.ShiftsMoveOneBitIntoVF : Prop :=
  (∀ x y : Reg, HasRow (.shrVxVy x y) (fmtXY 0x8 x y 0x6) .all ∧
    HasRow (.shlVxVy x y) (fmtXY 0x8 x y 0xE) .all) ∧
  ∀ (s : State) (x y : Reg),
    let a := (if s.config.quirks.shiftingIgnoresSource then s.readV x else s.readV y).toNat
    (∃ t, exec (.shrVxVy x y) s = .next t ∧ t.pc = s.pc + 2 ∧
      (x ≠ VF → (t.readV x).toNat = a / 2) ∧ (t.readV VF).toNat = a % 2 ∧
      Frame { regs := fun k => k = x ∨ k = VF } s t) ∧
    (∃ t, exec (.shlVxVy x y) s = .next t ∧ t.pc = s.pc + 2 ∧
      (x ≠ VF → (t.readV x).toNat = 2 * a % 256) ∧ (t.readV VF).toNat = a / 128 ∧
      Frame { regs := fun k => k = x ∨ k = VF } s t)

/-- RND: the next RANDOM byte AND NN in V[X], a bit set only where NN has it; the draw is used up.
RANDOM is a free value, so this holds whatever the byte is (R142; decision D30; log 7). -/
def Obligations.RandomIsMaskedByNn : Prop :=
  (∀ (x : Reg) (nn : Byte), HasRow (.rndVxNn x nn) (fmtXB 0xC x nn) .all) ∧
  ∀ (s : State) (x : Reg) (nn : Byte), ∃ t, exec (.rndVxNn x nn) s = .next t ∧ t.pc = s.pc + 2 ∧
    (∀ k, k < 8 → (t.readV x).getLsbD k =
      (nn.getLsbD k && (Config.randomByte s.draws).getLsbD k)) ∧
    t.draws = s.draws + 1 ∧ Frame { regs := (· = x), draws := True } s t

/-! ## Index register, memory transfers, RPL flags -/

/-- LD I, ADD I, LD F and LD HF set I: NNN; I + V[X] modulo 2^16 with VF untouched; 5 and
80 + 10 times the low nibble of V[X] (R150 to R153; decisions D7, D14). -/
def Obligations.IndexRegisterIsSet : Prop :=
  (∀ (x : Reg) (nnn : BitVec 12), HasRow (.ldINnn nnn) (fmtA 0xA nnn) .all ∧
    HasRow (.addIVx x) (fmtXB 0xF x 0x1E) .all ∧ HasRow (.ldFVx x) (fmtXB 0xF x 0x29) .all ∧
    HasRow (.ldHfVx x) (fmtXB 0xF x 0x30) .schipUp) ∧
  ∀ (s : State) (x : Reg) (nnn : BitVec 12),
    (∃ t, exec (.ldINnn nnn) s = .next t ∧ t.pc = s.pc + 2 ∧ t.index.toNat = nnn.toNat ∧
      Frame { index := True } s t) ∧
    (∃ t, exec (.addIVx x) s = .next t ∧ t.pc = s.pc + 2 ∧
      t.index.toNat = (s.index.toNat + (s.readV x).toNat) % 65536 ∧ Frame { index := True } s t) ∧
    (∃ t, exec (.ldFVx x) s = .next t ∧ t.pc = s.pc + 2 ∧
      t.index.toNat = 5 * ((s.readV x).toNat % 16) ∧ Frame { index := True } s t) ∧
    (∃ t, exec (.ldHfVx x) s = .next t ∧ t.pc = s.pc + 2 ∧
      t.index.toNat = 80 + 10 * ((s.readV x).toNat % 16) ∧ Frame { index := True } s t)

/-- LD B: the decimal digits of V[X] at I, I + 1, I + 2, hundreds first; no other byte of memory
changes (R154; decision D15). -/
def Obligations.BcdStoresThreeDigits : Prop :=
  (∀ x : Reg, HasRow (.ldBVx x) (fmtXB 0xF x 0x33) .all) ∧
  ∀ (s : State) (x : Reg), s.Inv → s.index.toNat + 2 < s.memSize →
    let v := (s.readV x).toNat
    ∃ t, exec (.ldBVx x) s = .next t ∧ t.pc = s.pc + 2 ∧
      (t.byteAt (s.dataAddr 0)).toNat = v / 100 ∧ (t.byteAt (s.dataAddr 1)).toNat = v / 10 % 10 ∧
      (t.byteAt (s.dataAddr 2)).toNat = v % 10 ∧
      Frame { mem := fun a => s.dataAddr 0 ≤ a ∧ a ≤ s.dataAddr 2 } s t

/-- LD [I], VX: V0 .. VX at I .. I + X and no other byte; then I + X + 1 under memory_increment
(R155; decision D16). -/
def Obligations.BlockStoreWritesV0ToVx : Prop :=
  (∀ x : Reg, HasRow (.ldMemVx x) (fmtXB 0xF x 0x55) .all) ∧
  ∀ (s : State) (x : Reg), s.Inv → s.index.toNat + x.val < s.memSize →
    ∃ t, exec (.ldMemVx x) s = .next t ∧ t.pc = s.pc + 2 ∧
      (∀ k : Reg, k ≤ x → t.byteAt (s.dataAddr k.val) = s.readV k) ∧
      (s.config.quirks.memoryIncrement = true →
        t.index.toNat = (s.index.toNat + x.val + 1) % 65536) ∧
      Frame { mem := fun a => s.dataAddr 0 ≤ a ∧ a ≤ s.dataAddr x.val,
              index := s.config.quirks.memoryIncrement = true } s t

/-- LD VX, [I]: V0 .. VX from I .. I + X; then I + X + 1 under memory_increment; no byte of memory
changes (R156; decision D16). -/
def Obligations.BlockLoadReadsV0ToVx : Prop :=
  (∀ x : Reg, HasRow (.ldVxMem x) (fmtXB 0xF x 0x65) .all) ∧
  ∀ (s : State) (x : Reg), s.index.toNat + x.val < s.memSize →
    ∃ t, exec (.ldVxMem x) s = .next t ∧ t.pc = s.pc + 2 ∧
      (∀ k : Reg, k ≤ x → t.readV k = s.byteAt (s.dataAddr k.val)) ∧
      (s.config.quirks.memoryIncrement = true →
        t.index.toNat = (s.index.toNat + x.val + 1) % 65536) ∧
      Frame { regs := (· ≤ x), index := s.config.quirks.memoryIncrement = true } s t

/-- FX55, then FX65 with the same X and I and memory untouched between, gives the registers back
(R155, R156; the source's round trip, 95_test_vectors.md W4). -/
def Obligations.BlockStoreThenLoadIsARoundTrip : Prop :=
  ∀ (s t u : State) (x : Reg), s.Inv → s.index.toNat + x.val < s.memSize →
    exec (.ldMemVx x) s = .next t → u.memory = t.memory → u.config = t.config →
    u.index = s.index →
    ∃ w, exec (.ldVxMem x) u = .next w ∧ ∀ r : Reg, r ≤ x → w.readV r = s.readV r

/-- LD I, long M: on XOChip, I is the operand word and pc passes both words; `m` is the operand word
the fetch read (log 10). The step of an F000 takes the big-endian word at wrap16(A + 2) for it, and
raises OutOfBoundsAccess when that word does not lie wholly in memory (R157). -/
def Obligations.LongLoadSetsIndexFromItsOperandWord : Prop :=
  (∀ m v, decodeWord v 0xF000 m = if v = .xochip then some (.ldILong m) else none) ∧
  (∀ (s : State) (m : Word), ∃ t, exec (.ldILong m) s = .next t ∧ t.pc = s.pc + 4 ∧ t.index = m ∧
    Frame { index := True } s t) ∧
  ∀ s : State, s.fault = none → s.schedule = [] → s.config.variant = .xochip →
    s.pc.toNat + 1 < s.memSize →
    wordOfBytes (s.byteAt s.pc.toNat) (s.byteAt (s.pc.toNat + 1)) = 0xF000 →
    let p := (s.pc + 2).toNat
    (p + 1 < s.memSize → ∃ t, step s = .next t ∧ t.pc = s.pc + 4 ∧
      t.index = wordOfBytes (s.byteAt p) (s.byteAt (p + 1)) ∧ Frame { index := True } s t) ∧
    (s.memSize ≤ p + 1 → step s = .next (s.recorded (.outOfBounds .memory (max p s.memSize))))

/-- SAVE and LOAD VX-VY: the registers from X to Y, both included, rising or falling, to and from
ascending addresses from I; I is unchanged and nothing else moves (R158, R159; decision D17). -/
def Obligations.RangeSaveAndLoad : Prop :=
  (∀ x y : Reg, HasRow (.saveVxVy x y) (fmtXY 0x5 x y 0x2) .xochipOnly ∧
    HasRow (.loadVxVy x y) (fmtXY 0x5 x y 0x3) .xochipOnly) ∧
  ∀ (s : State) (x y : Reg), let n := if x.val ≤ y.val then y.val - x.val else x.val - y.val
    s.index.toNat + n < s.memSize →
    (s.Inv → ∃ t, exec (.saveVxVy x y) s = .next t ∧ t.pc = s.pc + 2 ∧
      (∀ (k : Nat) (r : Reg), k ≤ n → r.val = (if x.val ≤ y.val then x.val + k else x.val - k) →
        t.byteAt (s.dataAddr k) = s.readV r) ∧
      Frame { mem := fun a => s.dataAddr 0 ≤ a ∧ a ≤ s.dataAddr n } s t) ∧
    (∃ t, exec (.loadVxVy x y) s = .next t ∧ t.pc = s.pc + 2 ∧
      (∀ (k : Nat) (r : Reg), k ≤ n → r.val = (if x.val ≤ y.val then x.val + k else x.val - k) →
        t.readV r = s.byteAt (s.dataAddr k)) ∧
      Frame { regs := fun r => (x ≤ r ∧ r ≤ y) ∨ (y ≤ r ∧ r ≤ x) } s t)

/-- LD R, VX and LD VX, R copy V0 .. VX to and from the RPL flags, and no other entry
(R160, R161). -/
def Obligations.RplFlagsSaveAndRestore : Prop :=
  (∀ x : Reg, HasRow (.ldRVx x) (fmtXB 0xF x 0x75) .schipUp ∧
    HasRow (.ldVxR x) (fmtXB 0xF x 0x85) .schipUp) ∧
  ∀ (s : State) (x : Reg),
    (∃ t, exec (.ldRVx x) s = .next t ∧ t.pc = s.pc + 2 ∧
      (∀ k : Reg, t.rpl.get k = if k ≤ x then s.readV k else s.rpl.get k) ∧
      Frame { rpl := True } s t) ∧
    (∃ t, exec (.ldVxR x) s = .next t ∧ t.pc = s.pc + 2 ∧
      (∀ k : Reg, k ≤ x → t.readV k = s.rpl.get k) ∧ Frame { regs := (· ≤ x) } s t)

/-- Every transfer through I that runs past MEM_SIZE changes nothing and records OutOfBoundsAccess
with the first address outside (R62, R224, R225; decisions D2, D5, D23). -/
def Obligations.TransfersPastMemoryChangeNothing : Prop :=
  ∀ (s : State) (x y : Reg) (n : Nibble),
    let out := Host.Outcome.next (s.recorded (.outOfBounds .memory s.firstOutside))
    (s.memSize ≤ s.index.toNat + 2 → exec (.ldBVx x) s = out) ∧
    (s.memSize ≤ s.index.toNat + x.val → exec (.ldMemVx x) s = out ∧ exec (.ldVxMem x) s = out) ∧
    (s.memSize ≤ s.index.toNat + (if x.val ≤ y.val then y.val - x.val else x.val - y.val) →
      exec (.saveVxVy x y) s = out ∧ exec (.loadVxVy x y) s = out) ∧
    (s.memSize ≤ s.index.toNat + 15 → exec .audio s = out) ∧
    ((s.config.quirks.displayWait = false ∨ s.keyFrameIn = true) → 0 < s.spriteLength n →
      s.memSize < s.index.toNat + s.spriteLength n → exec (.drw x y n) s = out)

/-! ## Display -/

/-- CLS clears every pixel of the selected planes and nothing else (R170, R171). -/
def Obligations.ClearScreenClearsSelectedPlanes : Prop :=
  HasRow .cls 0x00E0 .all ∧
  ∀ s : State, ∃ t, exec .cls s = .next t ∧ t.pc = s.pc + 2 ∧
    (∀ k ∈ s.selectedPlanes, ∀ x y, t.pixel k x y = false) ∧
    Frame { planes := (· ∈ s.selectedPlanes) } s t

/-- A DXYN that display_wait holds back rewinds pc to A and does nothing else, whatever its sprite
bytes are (R175, R227). -/
def Obligations.DrawWaitsForTheKeyFrame : Prop :=
  ∀ (s : State) (x y : Reg) (n : Nibble), s.config.quirks.displayWait = true →
    s.keyFrameIn = false → ∃ t, exec (.drw x y n) s = .next t ∧ t.pc = s.pc ∧ Frame {} s t

/-- DXYN, pixel by pixel: on the selected planes a buffer pixel changes exactly when the sprite
position whose block holds it, with wrap-around or clipping, has its bit set; VF is the number of
rows that collided in high resolution and whether one did otherwise, against the pixels as they
were before; with no plane selected VF is 0 and no byte is read (R172 to R175; decisions D19 to
D22, D37). -/
def Obligations.DrawXorsTheSpriteAndReportsCollision : Prop :=
  (∀ (x y : Reg) (n : Nibble), HasRow (.drw x y n) (fmtXY 0xD x y n) .all) ∧
  ∀ (s : State) (x y : Reg) (n : Nibble), s.Inv →
    (s.config.quirks.displayWait = false ∨ s.keyFrameIn = true) →
    (s.selectedPlanes = [] ∨ s.index.toNat + s.spriteLength n ≤ s.memSize) →
    ∃ t, exec (.drw x y n) s = .next t ∧ t.pc = s.pc + 2 ∧
      (∀ k j, (k, j) ∈ s.selectedPlanes.zipIdx → ∀ bx by_, bx < s.config.variant.bufW →
        by_ < s.config.variant.bufH →
        t.pixel k bx by_ = (s.pixel k bx by_ ^^ s.spriteFlips x y n j bx by_)) ∧
      (t.readV VF).toNat =
        (if s.highResMode then s.collidedRows x y n
         else if 0 < s.collidedRows x y n then 1 else 0) ∧
      Frame { regs := (· = VF), planes := (· ∈ s.selectedPlanes) } s t

/-- Drawing one sprite twice at one place restores every pixel; and when the planes were clear, VF after
the second draw counts the rows that have a set bit that is placed, or a dropped one that counts (in
low resolution, whether there is one). X and Y are not F here, since the first draw writes VF and so
moves the second; DrawXorsTheSpriteAndReportsCollision covers each such draw (R173, R174, C5; the
source's redraw property, 95_test_vectors.md W5; decisions D19, D20, D21, D37). -/
def Obligations.DrawingTwiceRestoresEveryPixel : Prop :=
  ∀ (s : State) (x y : Reg) (n : Nibble), s.Inv → x ≠ VF → y ≠ VF →
    (s.config.quirks.displayWait = false ∨ s.keyFrameIn = true) →
    (s.selectedPlanes = [] ∨ s.index.toNat + s.spriteLength n ≤ s.memSize) →
    ∃ t u, exec (.drw x y n) s = .next t ∧ exec (.drw x y n) t = .next u ∧
      (∀ k, u.plane k = s.plane k) ∧
      (s.plane1 = [] → s.plane2 = [] →
        let rows := (s.selectedPlanes.zipIdx.map fun kj =>
          (List.range (spriteShape n).rows).countP fun r =>
            (List.range (spriteShape n).cols).any fun c => s.spriteBitAt n kj.2 r c &&
              (!s.spriteDropped x y r c || s.config.quirks.clipCountsAsCollision)).sum
        (u.readV VF).toNat = if s.highResMode then rows else if 0 < rows then 1 else 0)

/-- SCD and SCU move the selected planes by N units of one or two buffer rows; pixels moved off are
lost, vacated rows are clear (R176 to R179; distances D24). -/
def Obligations.VerticalScrolls : Prop :=
  (∀ n : Nibble, HasRow (.scd n) (fmtO 0x0 0x0 0xC n) .schipUp ∧
    HasRow (.scu n) (fmtO 0x0 0x0 0xD n) .xochipOnly) ∧
  ∀ (s : State) (n : Nibble), s.Inv →
    let d := n.toNat * (if s.highResMode || s.config.quirks.legacyScroll then 1 else 2)
    (∃ t, exec (.scd n) s = .next t ∧ t.pc = s.pc + 2 ∧
      (∀ k ∈ s.selectedPlanes, ∀ x y, x < s.config.variant.bufW → y < s.config.variant.bufH →
        t.pixel k x y = (decide (d ≤ y) && s.pixel k x (y - d))) ∧
      Frame { planes := (· ∈ s.selectedPlanes) } s t) ∧
    (∃ t, exec (.scu n) s = .next t ∧ t.pc = s.pc + 2 ∧
      (∀ k ∈ s.selectedPlanes, ∀ x y, x < s.config.variant.bufW → y < s.config.variant.bufH →
        t.pixel k x y = s.pixel k x (y + d)) ∧
      Frame { planes := (· ∈ s.selectedPlanes) } s t)

/-- SCR and SCL move the selected planes by 4 units of one or two buffer columns (R176, R177, R180,
R181; distances D24). -/
def Obligations.HorizontalScrolls : Prop :=
  HasRow .scr 0x00FB .schipUp ∧ HasRow .scl 0x00FC .schipUp ∧
  ∀ s : State, s.Inv →
    let d := 4 * (if s.highResMode || s.config.quirks.legacyScroll then 1 else 2)
    (∃ t, exec .scr s = .next t ∧ t.pc = s.pc + 2 ∧
      (∀ k ∈ s.selectedPlanes, ∀ x y, x < s.config.variant.bufW → y < s.config.variant.bufH →
        t.pixel k x y = (decide (d ≤ x) && s.pixel k (x - d) y)) ∧
      Frame { planes := (· ∈ s.selectedPlanes) } s t) ∧
    (∃ t, exec .scl s = .next t ∧ t.pc = s.pc + 2 ∧
      (∀ k ∈ s.selectedPlanes, ∀ x y, x < s.config.variant.bufW → y < s.config.variant.bufH →
        t.pixel k x y = s.pixel k (x + d) y) ∧
      Frame { planes := (· ∈ s.selectedPlanes) } s t)

/-- LOW and HIGH set the resolution mode and nothing else: the planes keep their pixels
(R182, R183; decision D25). -/
def Obligations.ResolutionSwitchKeepsThePixels : Prop :=
  HasRow .low 0x00FE .schipUp ∧ HasRow .high 0x00FF .schipUp ∧
  ∀ s : State,
    (∃ t, exec .low s = .next t ∧ t.pc = s.pc + 2 ∧ t.highResMode = false ∧
      Frame { highRes := True } s t) ∧
    (∃ t, exec .high s = .next t ∧ t.pc = s.pc + 2 ∧ t.highResMode = true ∧
      Frame { highRes := True } s t)

/-- PLANE X selects none, plane 1, plane 2 or both by X = 0 .. 3; a larger X does not decode
(R184; decision D18). -/
def Obligations.PlaneSelectsByTwoBitMask : Prop :=
  (∀ x : Reg, x.val ≤ 3 → HasRow (.plane x) (fmtXB 0xF x 0x01) .xochipOnly) ∧
  (∀ (x : Reg) v m, 3 < x.val → decodeWord v (fmtXB 0xF x 0x01) m = none) ∧
  ∀ (s : State) (x : Reg), x.val ≤ 3 → ∃ t, exec (.plane x) s = .next t ∧ t.pc = s.pc + 2 ∧
    [DrawPlane.none, .plane1, .plane2, .both][x.val]? = some t.activeDrawPlane ∧
    Frame { drawPlane := True } s t

/-! ## Keys, timers, audio -/

/-- LD VX, K: with a key pressed, the smallest pressed index in V[X]; with none, pc goes back to A and
nothing else changes (R202; decision D12). -/
def Obligations.WaitForKeyTakesTheLowestOrWaits : Prop :=
  (∀ x : Reg, HasRow (.ldVxK x) (fmtXB 0xF x 0x0A) .all) ∧
  ∀ (s : State) (x : Reg),
    (∀ k : Reg, s.keys.get k = true → (∀ j, j < k → s.keys.get j = false) →
      ∃ t, exec (.ldVxK x) s = .next t ∧ t.pc = s.pc + 2 ∧ (t.readV x).toNat = k.val ∧
        Frame { regs := (· = x) } s t) ∧
    ((∀ k, s.keys.get k = false) → ∃ t, exec (.ldVxK x) s = .next t ∧ t.pc = s.pc ∧ Frame {} s t)

/-- LD VX, DT reads the delay timer; LD DT, VX and LD ST, VX write the timers; a non-zero ST beeps at
once (R203 to R205, R207; decisions D11, D35). -/
def Obligations.TimerTransfers : Prop :=
  (∀ x : Reg, HasRow (.ldVxDt x) (fmtXB 0xF x 0x07) .all ∧
    HasRow (.ldDtVx x) (fmtXB 0xF x 0x15) .all ∧ HasRow (.ldStVx x) (fmtXB 0xF x 0x18) .all) ∧
  ∀ (s : State) (x : Reg),
    (∃ t, exec (.ldVxDt x) s = .next t ∧ t.pc = s.pc + 2 ∧ t.readV x = s.dt ∧
      Frame { regs := (· = x) } s t) ∧
    (∃ t, exec (.ldDtVx x) s = .next t ∧ t.pc = s.pc + 2 ∧ t.dt = s.readV x ∧
      Frame { dt := True } s t) ∧
    (∃ t, exec (.ldStVx x) s = .next t ∧ t.pc = s.pc + 2 ∧ t.st = s.readV x ∧
      (t.beep = true ↔ s.readV x ≠ 0) ∧ Frame { st := True } s t)

/-- AUDIO copies the 16 bytes at I into the pattern buffer, I unchanged; PITCH writes the pitch
register (R208, R209; decision D17). -/
def Obligations.AudioLoadsThePatternAndPitchItsRegister : Prop :=
  (HasRow .audio 0xF002 .xochipOnly ∧
    ∀ x : Reg, HasRow (.pitchVx x) (fmtXB 0xF x 0x3A) .xochipOnly) ∧
  (∀ s : State, s.index.toNat + 15 < s.memSize → ∃ t, exec .audio s = .next t ∧ t.pc = s.pc + 2 ∧
    (∀ k : Fin 16, t.pattern.get k = s.byteAt (s.dataAddr k.val)) ∧ Frame { pattern := True } s t) ∧
  ∀ (s : State) (x : Reg), ∃ t, exec (.pitchVx x) s = .next t ∧ t.pc = s.pc + 2 ∧
    t.pitch = s.readV x ∧ Frame { pitch := True } s t
end

