-- ==== Sys2Proof/Laws/Decode.lean ====
section
/-! SUPPORT. Laws of the encoding formats: the fields of a word built by a format, and a word as the
format of its fields (30_encoding.md R82, R83; 00_scope.md R12; 20_memory.md R64). -/

namespace Sys2Proof

/-! ## Appended fields as numbers -/

theorem toNat_append {n m : Nat} (a : BitVec n) (b : BitVec m) :
    (a ++ b).toNat = a.toNat * 2 ^ m + b.toNat := by
  rw [BitVec.toNat_append, Nat.shiftLeft_eq, Nat.mul_comm,
    Nat.two_pow_add_eq_or_of_lt b.isLt]

theorem toNat_wordOfBytes (a b : Byte) : (wordOfBytes a b).toNat = a.toNat * 256 + b.toNat :=
  toNat_append a b

theorem toNat_fmtO (a b c d : Nibble) :
    (fmtO a b c d).toNat = ((a.toNat * 16 + b.toNat) * 16 + c.toNat) * 16 + d.toNat := by
  refine (toNat_append (a ++ b ++ c) d).trans ?_
  rw [toNat_append (a ++ b) c, toNat_append a b]; norm_num

theorem toNat_fmtA (o : Nibble) (nnn : BitVec 12) :
    (fmtA o nnn).toNat = o.toNat * 4096 + nnn.toNat := toNat_append o nnn

@[simp] theorem Reg.toNat_toNibble (x : Reg) : x.toNibble.toNat = x.val := rfl

theorem toNat_fmtXB (o : Nibble) (x : Reg) (nn : Byte) :
    (fmtXB o x nn).toNat = (o.toNat * 16 + x.val) * 256 + nn.toNat := by
  refine (toNat_append (o ++ x.toNibble) nn).trans ?_
  rw [toNat_append o x.toNibble, Reg.toNat_toNibble]; norm_num

theorem toNat_fmtXY (o : Nibble) (x y : Reg) (f : Nibble) :
    (fmtXY o x y f).toNat = ((o.toNat * 16 + x.val) * 16 + y.val) * 16 + f.toNat := by
  refine (toNat_append (o ++ x.toNibble ++ y.toNibble) f).trans ?_
  rw [toNat_append (o ++ x.toNibble) y.toNibble, toNat_append o x.toNibble,
    Reg.toNat_toNibble, Reg.toNat_toNibble]; norm_num

/-! ## Fields as numbers -/

theorem toNat_hiByte (w : Word) : w.hiByte.toNat = w.toNat / 256 := by
  have := w.isLt
  rw [Word.hiByte, BitVec.extractLsb'_toNat, Nat.shiftRight_eq_div_pow]; omega

theorem toNat_loByte (w : Word) : w.loByte.toNat = w.toNat % 256 := by
  rw [Word.loByte, BitVec.extractLsb'_toNat]; rfl

theorem toNat_d1 (w : Word) : w.d1.toNat = w.toNat / 4096 := by
  have := w.isLt
  rw [Word.d1, BitVec.extractLsb'_toNat, Nat.shiftRight_eq_div_pow]; omega

theorem toNat_d2 (w : Word) : w.d2.toNat = w.toNat / 256 % 16 := by
  rw [Word.d2, BitVec.extractLsb'_toNat, Nat.shiftRight_eq_div_pow]

theorem toNat_d3 (w : Word) : w.d3.toNat = w.toNat / 16 % 16 := by
  rw [Word.d3, BitVec.extractLsb'_toNat, Nat.shiftRight_eq_div_pow]

theorem toNat_d4 (w : Word) : w.d4.toNat = w.toNat % 16 := by
  rw [Word.d4, BitVec.extractLsb'_toNat]; rfl

theorem toNat_nn (w : Word) : w.nn.toNat = w.toNat % 256 := by
  rw [Word.nn, BitVec.extractLsb'_toNat]; rfl

theorem toNat_nnn (w : Word) : w.nnn.toNat = w.toNat % 4096 := by
  rw [Word.nnn, BitVec.extractLsb'_toNat]; rfl

theorem val_x (w : Word) : w.x.val = w.toNat / 256 % 16 := toNat_d2 w

theorem val_y (w : Word) : w.y.val = w.toNat / 16 % 16 := toNat_d3 w

/-! ## Bytes and words -/

@[simp] theorem wordOfBytes_hi_lo (w : Word) : wordOfBytes w.hiByte w.loByte = w :=
  BitVec.eq_of_toNat_eq (by rw [toNat_wordOfBytes, toNat_hiByte, toNat_loByte]; omega)

@[simp] theorem hiByte_wordOfBytes (a b : Byte) : (wordOfBytes a b).hiByte = a :=
  BitVec.eq_of_toNat_eq (by have := b.isLt; rw [toNat_hiByte, toNat_wordOfBytes]; omega)

@[simp] theorem loByte_wordOfBytes (a b : Byte) : (wordOfBytes a b).loByte = b :=
  BitVec.eq_of_toNat_eq (by have := b.isLt; rw [toNat_loByte, toNat_wordOfBytes]; omega)

/-! ## Fields of a format -/

@[simp] theorem d1_fmtO (a b c d : Nibble) : (fmtO a b c d).d1 = a :=
  BitVec.eq_of_toNat_eq (by
    have := b.isLt; have := c.isLt; have := d.isLt; rw [toNat_d1, toNat_fmtO]; omega)

@[simp] theorem d2_fmtO (a b c d : Nibble) : (fmtO a b c d).d2 = b :=
  BitVec.eq_of_toNat_eq (by
    have := b.isLt; have := c.isLt; have := d.isLt; rw [toNat_d2, toNat_fmtO]; omega)

@[simp] theorem d3_fmtO (a b c d : Nibble) : (fmtO a b c d).d3 = c :=
  BitVec.eq_of_toNat_eq (by
    have := b.isLt; have := c.isLt; have := d.isLt; rw [toNat_d3, toNat_fmtO]; omega)

@[simp] theorem d4_fmtO (a b c d : Nibble) : (fmtO a b c d).d4 = d :=
  BitVec.eq_of_toNat_eq (by
    have := b.isLt; have := c.isLt; have := d.isLt; rw [toNat_d4, toNat_fmtO]; omega)

@[simp] theorem d1_fmtA (o : Nibble) (nnn : BitVec 12) : (fmtA o nnn).d1 = o :=
  BitVec.eq_of_toNat_eq (by have := nnn.isLt; rw [toNat_d1, toNat_fmtA]; omega)

@[simp] theorem nnn_fmtA (o : Nibble) (nnn : BitVec 12) : (fmtA o nnn).nnn = nnn :=
  BitVec.eq_of_toNat_eq (by have := nnn.isLt; rw [toNat_nnn, toNat_fmtA]; omega)

@[simp] theorem d1_fmtXB (o : Nibble) (x : Reg) (nn : Byte) : (fmtXB o x nn).d1 = o :=
  BitVec.eq_of_toNat_eq (by
    have := x.isLt; have := nn.isLt; rw [toNat_d1, toNat_fmtXB]; omega)

@[simp] theorem x_fmtXB (o : Nibble) (x : Reg) (nn : Byte) : (fmtXB o x nn).x = x :=
  Fin.ext (by have := x.isLt; have := nn.isLt; rw [val_x, toNat_fmtXB]; omega)

@[simp] theorem d2_fmtXB (o : Nibble) (x : Reg) (nn : Byte) : (fmtXB o x nn).d2 = x.toNibble :=
  BitVec.eq_of_toNat_eq (by
    have := x.isLt; have := nn.isLt
    rw [toNat_d2, toNat_fmtXB, Reg.toNat_toNibble]; omega)

@[simp] theorem nn_fmtXB (o : Nibble) (x : Reg) (nn : Byte) : (fmtXB o x nn).nn = nn :=
  BitVec.eq_of_toNat_eq (by
    have := x.isLt; have := nn.isLt; rw [toNat_nn, toNat_fmtXB]; omega)

@[simp] theorem d1_fmtXY (o : Nibble) (x y : Reg) (f : Nibble) : (fmtXY o x y f).d1 = o :=
  BitVec.eq_of_toNat_eq (by
    have := x.isLt; have := y.isLt; have := f.isLt; rw [toNat_d1, toNat_fmtXY]; omega)

@[simp] theorem x_fmtXY (o : Nibble) (x y : Reg) (f : Nibble) : (fmtXY o x y f).x = x :=
  Fin.ext (by
    have := x.isLt; have := y.isLt; have := f.isLt; rw [val_x, toNat_fmtXY]; omega)

@[simp] theorem y_fmtXY (o : Nibble) (x y : Reg) (f : Nibble) : (fmtXY o x y f).y = y :=
  Fin.ext (by
    have := x.isLt; have := y.isLt; have := f.isLt; rw [val_y, toNat_fmtXY]; omega)

@[simp] theorem d4_fmtXY (o : Nibble) (x y : Reg) (f : Nibble) : (fmtXY o x y f).d4 = f :=
  BitVec.eq_of_toNat_eq (by
    have := x.isLt; have := y.isLt; have := f.isLt; rw [toNat_d4, toNat_fmtXY]; omega)

@[simp] theorem nn_fmtO (a b c d : Nibble) : (fmtO a b c d).nn = c ++ d :=
  BitVec.eq_of_toNat_eq (by
    have := c.isLt; have := d.isLt; rw [toNat_nn, toNat_fmtO, toNat_append]; omega)

/-! ## A word as a format of its fields -/

theorem eq_fmtO (w : Word) : w = fmtO w.d1 w.d2 w.d3 w.d4 :=
  BitVec.eq_of_toNat_eq (by
    have := w.isLt; rw [toNat_fmtO, toNat_d1, toNat_d2, toNat_d3, toNat_d4]; omega)

theorem eq_fmtA (w : Word) : w = fmtA w.d1 w.nnn :=
  BitVec.eq_of_toNat_eq (by rw [toNat_fmtA, toNat_d1, toNat_nnn]; omega)

theorem eq_fmtXB (w : Word) : w = fmtXB w.d1 w.x w.nn :=
  BitVec.eq_of_toNat_eq (by
    have := w.isLt; rw [toNat_fmtXB, toNat_d1, val_x, toNat_nn]; omega)

theorem eq_fmtXY (w : Word) : w = fmtXY w.d1 w.x w.y w.d4 :=
  BitVec.eq_of_toNat_eq (by
    have := w.isLt; rw [toNat_fmtXY, toNat_d1, val_x, val_y, toNat_d4]; omega)

/-! ## Inverting one level of the decode map -/

theorem eq_some_of_ite_some {α : Type} {c : Prop} [Decidable c] {a b : α} {e : Option α}
    (h : (if c then some a else e) = some b) : (c ∧ a = b) ∨ (¬c ∧ e = some b) := by
  split at h
  · exact .inl ⟨‹_›, Option.some.inj h⟩
  · exact .inr ⟨‹_›, h⟩

theorem eq_some_of_ite {α : Type} {c : Prop} [Decidable c] {a e : Option α} {b : α}
    (h : (if c then a else e) = some b) : (c ∧ a = some b) ∨ (¬c ∧ e = some b) := by
  split at h
  · exact .inl ⟨‹_›, h⟩
  · exact .inr ⟨‹_›, h⟩

theorem word_of_decode0 {op : Word} {i : Instr} (h1 : op.d1 = 0x0) (h : decode0 op = some i) :
    i.word = op ∧ i.operandsOk = true := by
  have e := eq_fmtO op
  rw [h1] at e
  unfold decode0 at h
  rcases eq_some_of_ite h with ⟨h2, h⟩ | ⟨-, h⟩ <;> [rw [h2] at e; cases h]
  rcases eq_some_of_ite h with ⟨h3, h⟩ | ⟨-, h⟩
  · rcases eq_some_of_ite_some h with ⟨h4, rfl⟩ | ⟨-, h⟩ <;> [skip; cases h]
    rw [h3, h4] at e; exact ⟨e.symm, rfl⟩
  iterate 2
    rcases eq_some_of_ite_some h with ⟨h3, rfl⟩ | ⟨-, h⟩
    · rw [h3] at e; exact ⟨e.symm, rfl⟩
  iterate 2
    rcases eq_some_of_ite h with ⟨h3, h⟩ | ⟨-, h⟩
    · repeat
        rcases eq_some_of_ite_some h with ⟨h4, rfl⟩ | ⟨-, h⟩
        · rw [h3, h4] at e; exact ⟨e.symm, rfl⟩
      cases h
  cases h

theorem word_of_decode5 {op : Word} {i : Instr} (h1 : op.d1 = 0x5) (h : decode5 op = some i) :
    i.word = op ∧ i.operandsOk = true := by
  have e := eq_fmtXY op
  rw [h1] at e
  unfold decode5 at h
  iterate 3
    rcases eq_some_of_ite_some h with ⟨h4, rfl⟩ | ⟨-, h⟩
    · rw [h4] at e; exact ⟨e.symm, rfl⟩
  cases h

theorem word_of_decode8 {op : Word} {i : Instr} (h1 : op.d1 = 0x8) (h : decode8 op = some i) :
    i.word = op ∧ i.operandsOk = true := by
  have e := eq_fmtXY op
  rw [h1] at e
  unfold decode8 at h
  iterate 9
    rcases eq_some_of_ite_some h with ⟨h4, rfl⟩ | ⟨-, h⟩
    · rw [h4] at e; exact ⟨e.symm, rfl⟩
  cases h

theorem word_of_decodeE {op : Word} {i : Instr} (h1 : op.d1 = 0xE) (h : decodeE op = some i) :
    i.word = op ∧ i.operandsOk = true := by
  have e := eq_fmtXB op
  rw [h1] at e
  unfold decodeE at h
  iterate 2
    rcases eq_some_of_ite_some h with ⟨h2, rfl⟩ | ⟨-, h⟩
    · rw [h2] at e; exact ⟨e.symm, rfl⟩
  cases h

theorem word_of_decodeF {op m : Word} {i : Instr} (h1 : op.d1 = 0xF)
    (h : decodeF op m = some i) : i.word = op ∧ i.operandsOk = true := by
  have e := eq_fmtXB op
  rw [h1] at e
  have hx : op.d2 = 0 → op.x = 0 := congrArg Reg.ofNibble
  unfold decodeF at h
  rcases eq_some_of_ite h with ⟨h2, h⟩ | ⟨-, h⟩
  · rcases eq_some_of_ite_some h with ⟨h3, rfl⟩ | ⟨-, h⟩ <;> [skip; cases h]
    rw [h2, hx h3] at e; exact ⟨e.symm, rfl⟩
  rcases eq_some_of_ite h with ⟨h2, h⟩ | ⟨-, h⟩
  · rcases eq_some_of_ite_some h with ⟨h3, rfl⟩ | ⟨-, h⟩ <;> [skip; cases h]
    rw [h2] at e; exact ⟨e.symm, decide_eq_true h3⟩
  rcases eq_some_of_ite h with ⟨h2, h⟩ | ⟨-, h⟩
  · rcases eq_some_of_ite_some h with ⟨h3, rfl⟩ | ⟨-, h⟩ <;> [skip; cases h]
    rw [h2, hx h3] at e; exact ⟨e.symm, rfl⟩
  iterate 13
    rcases eq_some_of_ite_some h with ⟨h2, rfl⟩ | ⟨-, h⟩
    · rw [h2] at e; exact ⟨e.symm, rfl⟩
  cases h

/-! ## Decoding and rows -/

/-- A word that the dispatch table maps to `i`, whatever word follows, is a word of `i`'s row
(R85, R86). -/
theorem Machine.HasRow.of_decodeRow {i : Instr} {op : Word} {vs : VariantSet}
    (h : ∀ m, decodeRow op m = some i) (hv : i.variants = vs) : Machine.HasRow i op vs := by
  intro v m
  rw [decodeWord, h m, ← hv]
  cases hm : i.variants.mem v <;> simp [Option.filter, hm]

theorem decodeF_congr {op : Word} (h : ¬(op.nn = 0 ∧ op.d2 = 0)) (m m' : Word) :
    decodeF op m = decodeF op m' := by
  unfold decodeF
  by_cases h0 : op.nn = 0x00
  · rw [if_pos h0, if_pos h0, if_neg (fun h2 => h ⟨h0, h2⟩), if_neg (fun h2 => h ⟨h0, h2⟩)]
  · rw [if_neg h0, if_neg h0]

/-- Only F000 reads the word that follows (R84). -/
theorem decodeRow_congr {op : Word} (h : op ≠ longWord) (m m' : Word) :
    decodeRow op m = decodeRow op m' := by
  have key : op.d1 = 0xF → decodeF op m = decodeF op m' := fun h1 =>
    decodeF_congr (fun ⟨h2, h3⟩ => h (by
      rw [eq_fmtXB op, h1, h2, show op.x = 0 from congrArg Reg.ofNibble h3]; rfl)) m m'
  by_cases h1 : op.d1 = 0xF
  · simp only [decodeRow, key h1]
  · have : op.d1 = 0 ∨ op.d1 = 1 ∨ op.d1 = 2 ∨ op.d1 = 3 ∨ op.d1 = 4 ∨ op.d1 = 5 ∨ op.d1 = 6 ∨
        op.d1 = 7 ∨ op.d1 = 8 ∨ op.d1 = 9 ∨ op.d1 = 10 ∨ op.d1 = 11 ∨ op.d1 = 12 ∨ op.d1 = 13 ∨
        op.d1 = 14 := by clear key; bv_omega
    rcases this with h | h | h | h | h | h | h | h | h | h | h | h | h | h | h <;>
      simp [decodeRow, h]

theorem decodeWord_congr {op : Word} (h : op ≠ longWord) (v : Variant) (m m' : Word) :
    decodeWord v op m = decodeWord v op m' := by
  rw [decodeWord, decodeWord, decodeRow_congr h m m']

/-- F000 decodes on XOChip only, to the load of the word that follows (R85, R86). -/
theorem decodeWord_longWord (v : Variant) (m : Word) :
    decodeWord v longWord m = if v = .xochip then some (.ldILong m) else none := by
  cases v <;> rfl

theorem decodeWord_eq_some {v : Variant} {op m : Word} {i : Instr} :
    decodeWord v op m = some i ↔ decodeRow op m = some i ∧ i.variants.mem v = true := by
  rw [decodeWord, Option.filter_eq_some_iff]

end Sys2Proof
end

