-- ==== Sys2Proof/Laws/State.lean ====
section
/-! SUPPORT. One lemma per field of State per update, each true by unfolding the update once, so that
no later proof unfolds a record update. -/

namespace Sys2Proof.Machine

/-! ## takeFault -/

@[simp] theorem State.takeFault_config (s : State) (f : Fault) :
    (s.takeFault f).config = s.config := rfl
@[simp] theorem State.takeFault_v (s : State) (f : Fault) : (s.takeFault f).v = s.v := rfl
@[simp] theorem State.takeFault_pc (s : State) (f : Fault) : (s.takeFault f).pc = s.pc := rfl
@[simp] theorem State.takeFault_index (s : State) (f : Fault) :
    (s.takeFault f).index = s.index := rfl
@[simp] theorem State.takeFault_stack (s : State) (f : Fault) :
    (s.takeFault f).stack = s.stack := rfl
@[simp] theorem State.takeFault_sp (s : State) (f : Fault) : (s.takeFault f).sp = s.sp := rfl
@[simp] theorem State.takeFault_dt (s : State) (f : Fault) : (s.takeFault f).dt = s.dt := rfl
@[simp] theorem State.takeFault_st (s : State) (f : Fault) : (s.takeFault f).st = s.st := rfl
@[simp] theorem State.takeFault_keys (s : State) (f : Fault) : (s.takeFault f).keys = s.keys := rfl
@[simp] theorem State.takeFault_memory (s : State) (f : Fault) :
    (s.takeFault f).memory = s.memory := rfl
@[simp] theorem State.takeFault_plane1 (s : State) (f : Fault) :
    (s.takeFault f).plane1 = s.plane1 := rfl
@[simp] theorem State.takeFault_plane2 (s : State) (f : Fault) :
    (s.takeFault f).plane2 = s.plane2 := rfl
@[simp] theorem State.takeFault_activeDrawPlane (s : State) (f : Fault) :
    (s.takeFault f).activeDrawPlane = s.activeDrawPlane := rfl
@[simp] theorem State.takeFault_highResMode (s : State) (f : Fault) :
    (s.takeFault f).highResMode = s.highResMode := rfl
@[simp] theorem State.takeFault_rpl (s : State) (f : Fault) : (s.takeFault f).rpl = s.rpl := rfl
@[simp] theorem State.takeFault_pattern (s : State) (f : Fault) :
    (s.takeFault f).pattern = s.pattern := rfl
@[simp] theorem State.takeFault_pitch (s : State) (f : Fault) :
    (s.takeFault f).pitch = s.pitch := rfl
@[simp] theorem State.takeFault_keyFrame (s : State) (f : Fault) :
    (s.takeFault f).keyFrame = s.keyFrame := rfl
@[simp] theorem State.takeFault_wide (s : State) (f : Fault) : (s.takeFault f).wide = s.wide := rfl
@[simp] theorem State.takeFault_fault (s : State) (f : Fault) :
    (s.takeFault f).fault = some ⟨f, s.pc⟩ := rfl
@[simp] theorem State.takeFault_loadedImage (s : State) (f : Fault) :
    (s.takeFault f).loadedImage = s.loadedImage := rfl
@[simp] theorem State.takeFault_keyFrameIn (s : State) (f : Fault) :
    (s.takeFault f).keyFrameIn = s.keyFrameIn := rfl
@[simp] theorem State.takeFault_schedule (s : State) (f : Fault) :
    (s.takeFault f).schedule = s.schedule := rfl
@[simp] theorem State.takeFault_draws (s : State) (f : Fault) :
    (s.takeFault f).draws = s.draws := rfl

/-! ## fetched -/

@[simp] theorem State.fetched_config (s : State) : s.fetched.config = s.config := rfl
@[simp] theorem State.fetched_v (s : State) : s.fetched.v = s.v := rfl
@[simp] theorem State.fetched_pc (s : State) : s.fetched.pc = s.pc + 2 := rfl
@[simp] theorem State.fetched_index (s : State) : s.fetched.index = s.index := rfl
@[simp] theorem State.fetched_stack (s : State) : s.fetched.stack = s.stack := rfl
@[simp] theorem State.fetched_sp (s : State) : s.fetched.sp = s.sp := rfl
@[simp] theorem State.fetched_dt (s : State) : s.fetched.dt = s.dt := rfl
@[simp] theorem State.fetched_st (s : State) : s.fetched.st = s.st := rfl
@[simp] theorem State.fetched_keys (s : State) : s.fetched.keys = s.keys := rfl
@[simp] theorem State.fetched_memory (s : State) : s.fetched.memory = s.memory := rfl
@[simp] theorem State.fetched_plane1 (s : State) : s.fetched.plane1 = s.plane1 := rfl
@[simp] theorem State.fetched_plane2 (s : State) : s.fetched.plane2 = s.plane2 := rfl
@[simp] theorem State.fetched_activeDrawPlane (s : State) :
    s.fetched.activeDrawPlane = s.activeDrawPlane := rfl
@[simp] theorem State.fetched_highResMode (s : State) : s.fetched.highResMode = s.highResMode := rfl
@[simp] theorem State.fetched_rpl (s : State) : s.fetched.rpl = s.rpl := rfl
@[simp] theorem State.fetched_pattern (s : State) : s.fetched.pattern = s.pattern := rfl
@[simp] theorem State.fetched_pitch (s : State) : s.fetched.pitch = s.pitch := rfl
@[simp] theorem State.fetched_keyFrame (s : State) : s.fetched.keyFrame = s.keyFrameIn := rfl
@[simp] theorem State.fetched_wide (s : State) : s.fetched.wide = s.lookahead (s.pc + 2) := rfl
@[simp] theorem State.fetched_fault (s : State) : s.fetched.fault = s.fault := rfl
@[simp] theorem State.fetched_loadedImage (s : State) : s.fetched.loadedImage = s.loadedImage := rfl
@[simp] theorem State.fetched_keyFrameIn (s : State) : s.fetched.keyFrameIn = s.keyFrameIn := rfl
@[simp] theorem State.fetched_schedule (s : State) : s.fetched.schedule = s.schedule := rfl
@[simp] theorem State.fetched_draws (s : State) : s.fetched.draws = s.draws := rfl

/-! ## writeV -/

@[simp] theorem State.writeV_config (s : State) (x : Reg) (b : Byte) :
    (s.writeV x b).config = s.config := rfl
@[simp] theorem State.writeV_v (s : State) (x : Reg) (b : Byte) :
    (s.writeV x b).v = s.v.set x.val b := rfl
@[simp] theorem State.writeV_pc (s : State) (x : Reg) (b : Byte) : (s.writeV x b).pc = s.pc := rfl
@[simp] theorem State.writeV_index (s : State) (x : Reg) (b : Byte) :
    (s.writeV x b).index = s.index := rfl
@[simp] theorem State.writeV_stack (s : State) (x : Reg) (b : Byte) :
    (s.writeV x b).stack = s.stack := rfl
@[simp] theorem State.writeV_sp (s : State) (x : Reg) (b : Byte) : (s.writeV x b).sp = s.sp := rfl
@[simp] theorem State.writeV_dt (s : State) (x : Reg) (b : Byte) : (s.writeV x b).dt = s.dt := rfl
@[simp] theorem State.writeV_st (s : State) (x : Reg) (b : Byte) : (s.writeV x b).st = s.st := rfl
@[simp] theorem State.writeV_keys (s : State) (x : Reg) (b : Byte) :
    (s.writeV x b).keys = s.keys := rfl
@[simp] theorem State.writeV_memory (s : State) (x : Reg) (b : Byte) :
    (s.writeV x b).memory = s.memory := rfl
@[simp] theorem State.writeV_plane1 (s : State) (x : Reg) (b : Byte) :
    (s.writeV x b).plane1 = s.plane1 := rfl
@[simp] theorem State.writeV_plane2 (s : State) (x : Reg) (b : Byte) :
    (s.writeV x b).plane2 = s.plane2 := rfl
@[simp] theorem State.writeV_activeDrawPlane (s : State) (x : Reg) (b : Byte) :
    (s.writeV x b).activeDrawPlane = s.activeDrawPlane := rfl
@[simp] theorem State.writeV_highResMode (s : State) (x : Reg) (b : Byte) :
    (s.writeV x b).highResMode = s.highResMode := rfl
@[simp] theorem State.writeV_rpl (s : State) (x : Reg) (b : Byte) :
    (s.writeV x b).rpl = s.rpl := rfl
@[simp] theorem State.writeV_pattern (s : State) (x : Reg) (b : Byte) :
    (s.writeV x b).pattern = s.pattern := rfl
@[simp] theorem State.writeV_pitch (s : State) (x : Reg) (b : Byte) :
    (s.writeV x b).pitch = s.pitch := rfl
@[simp] theorem State.writeV_keyFrame (s : State) (x : Reg) (b : Byte) :
    (s.writeV x b).keyFrame = s.keyFrame := rfl
@[simp] theorem State.writeV_wide (s : State) (x : Reg) (b : Byte) :
    (s.writeV x b).wide = s.wide := rfl
@[simp] theorem State.writeV_fault (s : State) (x : Reg) (b : Byte) :
    (s.writeV x b).fault = s.fault := rfl
@[simp] theorem State.writeV_loadedImage (s : State) (x : Reg) (b : Byte) :
    (s.writeV x b).loadedImage = s.loadedImage := rfl
@[simp] theorem State.writeV_keyFrameIn (s : State) (x : Reg) (b : Byte) :
    (s.writeV x b).keyFrameIn = s.keyFrameIn := rfl
@[simp] theorem State.writeV_schedule (s : State) (x : Reg) (b : Byte) :
    (s.writeV x b).schedule = s.schedule := rfl
@[simp] theorem State.writeV_draws (s : State) (x : Reg) (b : Byte) :
    (s.writeV x b).draws = s.draws := rfl

/-! ## advancePc -/

@[simp] theorem State.advancePc_config (s : State) (n : Word) :
    (s.advancePc n).config = s.config := rfl
@[simp] theorem State.advancePc_v (s : State) (n : Word) : (s.advancePc n).v = s.v := rfl
@[simp] theorem State.advancePc_pc (s : State) (n : Word) : (s.advancePc n).pc = s.pc + n := rfl
@[simp] theorem State.advancePc_index (s : State) (n : Word) :
    (s.advancePc n).index = s.index := rfl
@[simp] theorem State.advancePc_stack (s : State) (n : Word) :
    (s.advancePc n).stack = s.stack := rfl
@[simp] theorem State.advancePc_sp (s : State) (n : Word) : (s.advancePc n).sp = s.sp := rfl
@[simp] theorem State.advancePc_dt (s : State) (n : Word) : (s.advancePc n).dt = s.dt := rfl
@[simp] theorem State.advancePc_st (s : State) (n : Word) : (s.advancePc n).st = s.st := rfl
@[simp] theorem State.advancePc_keys (s : State) (n : Word) : (s.advancePc n).keys = s.keys := rfl
@[simp] theorem State.advancePc_memory (s : State) (n : Word) :
    (s.advancePc n).memory = s.memory := rfl
@[simp] theorem State.advancePc_plane1 (s : State) (n : Word) :
    (s.advancePc n).plane1 = s.plane1 := rfl
@[simp] theorem State.advancePc_plane2 (s : State) (n : Word) :
    (s.advancePc n).plane2 = s.plane2 := rfl
@[simp] theorem State.advancePc_activeDrawPlane (s : State) (n : Word) :
    (s.advancePc n).activeDrawPlane = s.activeDrawPlane := rfl
@[simp] theorem State.advancePc_highResMode (s : State) (n : Word) :
    (s.advancePc n).highResMode = s.highResMode := rfl
@[simp] theorem State.advancePc_rpl (s : State) (n : Word) : (s.advancePc n).rpl = s.rpl := rfl
@[simp] theorem State.advancePc_pattern (s : State) (n : Word) :
    (s.advancePc n).pattern = s.pattern := rfl
@[simp] theorem State.advancePc_pitch (s : State) (n : Word) :
    (s.advancePc n).pitch = s.pitch := rfl
@[simp] theorem State.advancePc_keyFrame (s : State) (n : Word) :
    (s.advancePc n).keyFrame = s.keyFrame := rfl
@[simp] theorem State.advancePc_wide (s : State) (n : Word) : (s.advancePc n).wide = s.wide := rfl
@[simp] theorem State.advancePc_fault (s : State) (n : Word) :
    (s.advancePc n).fault = s.fault := rfl
@[simp] theorem State.advancePc_loadedImage (s : State) (n : Word) :
    (s.advancePc n).loadedImage = s.loadedImage := rfl
@[simp] theorem State.advancePc_keyFrameIn (s : State) (n : Word) :
    (s.advancePc n).keyFrameIn = s.keyFrameIn := rfl
@[simp] theorem State.advancePc_schedule (s : State) (n : Word) :
    (s.advancePc n).schedule = s.schedule := rfl
@[simp] theorem State.advancePc_draws (s : State) (n : Word) :
    (s.advancePc n).draws = s.draws := rfl

/-! ## rewindPc -/

@[simp] theorem State.rewindPc_config (s : State) : s.rewindPc.config = s.config := rfl
@[simp] theorem State.rewindPc_v (s : State) : s.rewindPc.v = s.v := rfl
@[simp] theorem State.rewindPc_pc (s : State) : s.rewindPc.pc = s.pc - 2 := rfl
@[simp] theorem State.rewindPc_index (s : State) : s.rewindPc.index = s.index := rfl
@[simp] theorem State.rewindPc_stack (s : State) : s.rewindPc.stack = s.stack := rfl
@[simp] theorem State.rewindPc_sp (s : State) : s.rewindPc.sp = s.sp := rfl
@[simp] theorem State.rewindPc_dt (s : State) : s.rewindPc.dt = s.dt := rfl
@[simp] theorem State.rewindPc_st (s : State) : s.rewindPc.st = s.st := rfl
@[simp] theorem State.rewindPc_keys (s : State) : s.rewindPc.keys = s.keys := rfl
@[simp] theorem State.rewindPc_memory (s : State) : s.rewindPc.memory = s.memory := rfl
@[simp] theorem State.rewindPc_plane1 (s : State) : s.rewindPc.plane1 = s.plane1 := rfl
@[simp] theorem State.rewindPc_plane2 (s : State) : s.rewindPc.plane2 = s.plane2 := rfl
@[simp] theorem State.rewindPc_activeDrawPlane (s : State) :
    s.rewindPc.activeDrawPlane = s.activeDrawPlane := rfl
@[simp] theorem State.rewindPc_highResMode (s : State) :
    s.rewindPc.highResMode = s.highResMode := rfl
@[simp] theorem State.rewindPc_rpl (s : State) : s.rewindPc.rpl = s.rpl := rfl
@[simp] theorem State.rewindPc_pattern (s : State) : s.rewindPc.pattern = s.pattern := rfl
@[simp] theorem State.rewindPc_pitch (s : State) : s.rewindPc.pitch = s.pitch := rfl
@[simp] theorem State.rewindPc_keyFrame (s : State) : s.rewindPc.keyFrame = s.keyFrame := rfl
@[simp] theorem State.rewindPc_wide (s : State) : s.rewindPc.wide = s.wide := rfl
@[simp] theorem State.rewindPc_fault (s : State) : s.rewindPc.fault = s.fault := rfl
@[simp] theorem State.rewindPc_loadedImage (s : State) :
    s.rewindPc.loadedImage = s.loadedImage := rfl
@[simp] theorem State.rewindPc_keyFrameIn (s : State) : s.rewindPc.keyFrameIn = s.keyFrameIn := rfl
@[simp] theorem State.rewindPc_schedule (s : State) : s.rewindPc.schedule = s.schedule := rfl
@[simp] theorem State.rewindPc_draws (s : State) : s.rewindPc.draws = s.draws := rfl

/-! ## setPc -/

@[simp] theorem State.setPc_config (s : State) (w : Word) : (s.setPc w).config = s.config := rfl
@[simp] theorem State.setPc_v (s : State) (w : Word) : (s.setPc w).v = s.v := rfl
@[simp] theorem State.setPc_pc (s : State) (w : Word) : (s.setPc w).pc = w := rfl
@[simp] theorem State.setPc_index (s : State) (w : Word) : (s.setPc w).index = s.index := rfl
@[simp] theorem State.setPc_stack (s : State) (w : Word) : (s.setPc w).stack = s.stack := rfl
@[simp] theorem State.setPc_sp (s : State) (w : Word) : (s.setPc w).sp = s.sp := rfl
@[simp] theorem State.setPc_dt (s : State) (w : Word) : (s.setPc w).dt = s.dt := rfl
@[simp] theorem State.setPc_st (s : State) (w : Word) : (s.setPc w).st = s.st := rfl
@[simp] theorem State.setPc_keys (s : State) (w : Word) : (s.setPc w).keys = s.keys := rfl
@[simp] theorem State.setPc_memory (s : State) (w : Word) : (s.setPc w).memory = s.memory := rfl
@[simp] theorem State.setPc_plane1 (s : State) (w : Word) : (s.setPc w).plane1 = s.plane1 := rfl
@[simp] theorem State.setPc_plane2 (s : State) (w : Word) : (s.setPc w).plane2 = s.plane2 := rfl
@[simp] theorem State.setPc_activeDrawPlane (s : State) (w : Word) :
    (s.setPc w).activeDrawPlane = s.activeDrawPlane := rfl
@[simp] theorem State.setPc_highResMode (s : State) (w : Word) :
    (s.setPc w).highResMode = s.highResMode := rfl
@[simp] theorem State.setPc_rpl (s : State) (w : Word) : (s.setPc w).rpl = s.rpl := rfl
@[simp] theorem State.setPc_pattern (s : State) (w : Word) : (s.setPc w).pattern = s.pattern := rfl
@[simp] theorem State.setPc_pitch (s : State) (w : Word) : (s.setPc w).pitch = s.pitch := rfl
@[simp] theorem State.setPc_keyFrame (s : State) (w : Word) :
    (s.setPc w).keyFrame = s.keyFrame := rfl
@[simp] theorem State.setPc_wide (s : State) (w : Word) : (s.setPc w).wide = s.wide := rfl
@[simp] theorem State.setPc_fault (s : State) (w : Word) : (s.setPc w).fault = s.fault := rfl
@[simp] theorem State.setPc_loadedImage (s : State) (w : Word) :
    (s.setPc w).loadedImage = s.loadedImage := rfl
@[simp] theorem State.setPc_keyFrameIn (s : State) (w : Word) :
    (s.setPc w).keyFrameIn = s.keyFrameIn := rfl
@[simp] theorem State.setPc_schedule (s : State) (w : Word) :
    (s.setPc w).schedule = s.schedule := rfl
@[simp] theorem State.setPc_draws (s : State) (w : Word) : (s.setPc w).draws = s.draws := rfl

/-! ## skipIf -/

@[simp] theorem State.skipIf_config (s : State) (c : Bool) :
    (s.skipIf c).config = s.config := by cases c <;> rfl
@[simp] theorem State.skipIf_v (s : State) (c : Bool) : (s.skipIf c).v = s.v := by cases c <;> rfl
@[simp] theorem State.skipIf_pc (s : State) (c : Bool) :
    (s.skipIf c).pc = if c then s.pc + s.skipDistance else s.pc := by cases c <;> rfl
@[simp] theorem State.skipIf_index (s : State) (c : Bool) :
    (s.skipIf c).index = s.index := by cases c <;> rfl
@[simp] theorem State.skipIf_stack (s : State) (c : Bool) :
    (s.skipIf c).stack = s.stack := by cases c <;> rfl
@[simp] theorem State.skipIf_sp (s : State) (c : Bool) :
    (s.skipIf c).sp = s.sp := by cases c <;> rfl
@[simp] theorem State.skipIf_dt (s : State) (c : Bool) :
    (s.skipIf c).dt = s.dt := by cases c <;> rfl
@[simp] theorem State.skipIf_st (s : State) (c : Bool) :
    (s.skipIf c).st = s.st := by cases c <;> rfl
@[simp] theorem State.skipIf_keys (s : State) (c : Bool) :
    (s.skipIf c).keys = s.keys := by cases c <;> rfl
@[simp] theorem State.skipIf_memory (s : State) (c : Bool) :
    (s.skipIf c).memory = s.memory := by cases c <;> rfl
@[simp] theorem State.skipIf_plane1 (s : State) (c : Bool) :
    (s.skipIf c).plane1 = s.plane1 := by cases c <;> rfl
@[simp] theorem State.skipIf_plane2 (s : State) (c : Bool) :
    (s.skipIf c).plane2 = s.plane2 := by cases c <;> rfl
@[simp] theorem State.skipIf_activeDrawPlane (s : State) (c : Bool) :
    (s.skipIf c).activeDrawPlane = s.activeDrawPlane := by cases c <;> rfl
@[simp] theorem State.skipIf_highResMode (s : State) (c : Bool) :
    (s.skipIf c).highResMode = s.highResMode := by cases c <;> rfl
@[simp] theorem State.skipIf_rpl (s : State) (c : Bool) :
    (s.skipIf c).rpl = s.rpl := by cases c <;> rfl
@[simp] theorem State.skipIf_pattern (s : State) (c : Bool) :
    (s.skipIf c).pattern = s.pattern := by cases c <;> rfl
@[simp] theorem State.skipIf_pitch (s : State) (c : Bool) :
    (s.skipIf c).pitch = s.pitch := by cases c <;> rfl
@[simp] theorem State.skipIf_keyFrame (s : State) (c : Bool) :
    (s.skipIf c).keyFrame = s.keyFrame := by cases c <;> rfl
@[simp] theorem State.skipIf_wide (s : State) (c : Bool) :
    (s.skipIf c).wide = s.wide := by cases c <;> rfl
@[simp] theorem State.skipIf_fault (s : State) (c : Bool) :
    (s.skipIf c).fault = s.fault := by cases c <;> rfl
@[simp] theorem State.skipIf_loadedImage (s : State) (c : Bool) :
    (s.skipIf c).loadedImage = s.loadedImage := by cases c <;> rfl
@[simp] theorem State.skipIf_keyFrameIn (s : State) (c : Bool) :
    (s.skipIf c).keyFrameIn = s.keyFrameIn := by cases c <;> rfl
@[simp] theorem State.skipIf_schedule (s : State) (c : Bool) :
    (s.skipIf c).schedule = s.schedule := by cases c <;> rfl
@[simp] theorem State.skipIf_draws (s : State) (c : Bool) :
    (s.skipIf c).draws = s.draws := by cases c <;> rfl

/-! ## draw -/

@[simp] theorem State.draw_config (s : State) : s.draw.2.config = s.config := rfl
@[simp] theorem State.draw_v (s : State) : s.draw.2.v = s.v := rfl
@[simp] theorem State.draw_pc (s : State) : s.draw.2.pc = s.pc := rfl
@[simp] theorem State.draw_index (s : State) : s.draw.2.index = s.index := rfl
@[simp] theorem State.draw_stack (s : State) : s.draw.2.stack = s.stack := rfl
@[simp] theorem State.draw_sp (s : State) : s.draw.2.sp = s.sp := rfl
@[simp] theorem State.draw_dt (s : State) : s.draw.2.dt = s.dt := rfl
@[simp] theorem State.draw_st (s : State) : s.draw.2.st = s.st := rfl
@[simp] theorem State.draw_keys (s : State) : s.draw.2.keys = s.keys := rfl
@[simp] theorem State.draw_memory (s : State) : s.draw.2.memory = s.memory := rfl
@[simp] theorem State.draw_plane1 (s : State) : s.draw.2.plane1 = s.plane1 := rfl
@[simp] theorem State.draw_plane2 (s : State) : s.draw.2.plane2 = s.plane2 := rfl
@[simp] theorem State.draw_activeDrawPlane (s : State) :
    s.draw.2.activeDrawPlane = s.activeDrawPlane := rfl
@[simp] theorem State.draw_highResMode (s : State) : s.draw.2.highResMode = s.highResMode := rfl
@[simp] theorem State.draw_rpl (s : State) : s.draw.2.rpl = s.rpl := rfl
@[simp] theorem State.draw_pattern (s : State) : s.draw.2.pattern = s.pattern := rfl
@[simp] theorem State.draw_pitch (s : State) : s.draw.2.pitch = s.pitch := rfl
@[simp] theorem State.draw_keyFrame (s : State) : s.draw.2.keyFrame = s.keyFrame := rfl
@[simp] theorem State.draw_wide (s : State) : s.draw.2.wide = s.wide := rfl
@[simp] theorem State.draw_fault (s : State) : s.draw.2.fault = s.fault := rfl
@[simp] theorem State.draw_loadedImage (s : State) : s.draw.2.loadedImage = s.loadedImage := rfl
@[simp] theorem State.draw_keyFrameIn (s : State) : s.draw.2.keyFrameIn = s.keyFrameIn := rfl
@[simp] theorem State.draw_schedule (s : State) : s.draw.2.schedule = s.schedule := rfl
@[simp] theorem State.draw_draws (s : State) : s.draw.2.draws = s.draws + 1 := rfl

/-! ## setPlane -/

@[simp] theorem State.setPlane_config (s : State) (k : PlaneId) (p : Plane) :
    (s.setPlane k p).config = s.config := by cases k <;> rfl
@[simp] theorem State.setPlane_v (s : State) (k : PlaneId) (p : Plane) :
    (s.setPlane k p).v = s.v := by cases k <;> rfl
@[simp] theorem State.setPlane_pc (s : State) (k : PlaneId) (p : Plane) :
    (s.setPlane k p).pc = s.pc := by cases k <;> rfl
@[simp] theorem State.setPlane_index (s : State) (k : PlaneId) (p : Plane) :
    (s.setPlane k p).index = s.index := by cases k <;> rfl
@[simp] theorem State.setPlane_stack (s : State) (k : PlaneId) (p : Plane) :
    (s.setPlane k p).stack = s.stack := by cases k <;> rfl
@[simp] theorem State.setPlane_sp (s : State) (k : PlaneId) (p : Plane) :
    (s.setPlane k p).sp = s.sp := by cases k <;> rfl
@[simp] theorem State.setPlane_dt (s : State) (k : PlaneId) (p : Plane) :
    (s.setPlane k p).dt = s.dt := by cases k <;> rfl
@[simp] theorem State.setPlane_st (s : State) (k : PlaneId) (p : Plane) :
    (s.setPlane k p).st = s.st := by cases k <;> rfl
@[simp] theorem State.setPlane_keys (s : State) (k : PlaneId) (p : Plane) :
    (s.setPlane k p).keys = s.keys := by cases k <;> rfl
@[simp] theorem State.setPlane_memory (s : State) (k : PlaneId) (p : Plane) :
    (s.setPlane k p).memory = s.memory := by cases k <;> rfl
@[simp] theorem State.setPlane_activeDrawPlane (s : State) (k : PlaneId) (p : Plane) :
    (s.setPlane k p).activeDrawPlane = s.activeDrawPlane := by cases k <;> rfl
@[simp] theorem State.setPlane_highResMode (s : State) (k : PlaneId) (p : Plane) :
    (s.setPlane k p).highResMode = s.highResMode := by cases k <;> rfl
@[simp] theorem State.setPlane_rpl (s : State) (k : PlaneId) (p : Plane) :
    (s.setPlane k p).rpl = s.rpl := by cases k <;> rfl
@[simp] theorem State.setPlane_pattern (s : State) (k : PlaneId) (p : Plane) :
    (s.setPlane k p).pattern = s.pattern := by cases k <;> rfl
@[simp] theorem State.setPlane_pitch (s : State) (k : PlaneId) (p : Plane) :
    (s.setPlane k p).pitch = s.pitch := by cases k <;> rfl
@[simp] theorem State.setPlane_keyFrame (s : State) (k : PlaneId) (p : Plane) :
    (s.setPlane k p).keyFrame = s.keyFrame := by cases k <;> rfl
@[simp] theorem State.setPlane_wide (s : State) (k : PlaneId) (p : Plane) :
    (s.setPlane k p).wide = s.wide := by cases k <;> rfl
@[simp] theorem State.setPlane_fault (s : State) (k : PlaneId) (p : Plane) :
    (s.setPlane k p).fault = s.fault := by cases k <;> rfl
@[simp] theorem State.setPlane_loadedImage (s : State) (k : PlaneId) (p : Plane) :
    (s.setPlane k p).loadedImage = s.loadedImage := by cases k <;> rfl
@[simp] theorem State.setPlane_keyFrameIn (s : State) (k : PlaneId) (p : Plane) :
    (s.setPlane k p).keyFrameIn = s.keyFrameIn := by cases k <;> rfl
@[simp] theorem State.setPlane_schedule (s : State) (k : PlaneId) (p : Plane) :
    (s.setPlane k p).schedule = s.schedule := by cases k <;> rfl
@[simp] theorem State.setPlane_draws (s : State) (k : PlaneId) (p : Plane) :
    (s.setPlane k p).draws = s.draws := by cases k <;> rfl

/-! ## postIncrement -/

@[simp] theorem State.postIncrement_config (s : State) (x : Reg) :
    (s.postIncrement x).config = s.config := by unfold State.postIncrement; split <;> rfl
@[simp] theorem State.postIncrement_v (s : State) (x : Reg) :
    (s.postIncrement x).v = s.v := by unfold State.postIncrement; split <;> rfl
@[simp] theorem State.postIncrement_pc (s : State) (x : Reg) :
    (s.postIncrement x).pc = s.pc := by unfold State.postIncrement; split <;> rfl
@[simp] theorem State.postIncrement_index (s : State) (x : Reg) :
    (s.postIncrement x).index = if s.config.quirks.memoryIncrement then s.index + BitVec.ofNat 16 (x.val + 1) else s.index := by unfold State.postIncrement; split <;> rfl
@[simp] theorem State.postIncrement_stack (s : State) (x : Reg) :
    (s.postIncrement x).stack = s.stack := by unfold State.postIncrement; split <;> rfl
@[simp] theorem State.postIncrement_sp (s : State) (x : Reg) :
    (s.postIncrement x).sp = s.sp := by unfold State.postIncrement; split <;> rfl
@[simp] theorem State.postIncrement_dt (s : State) (x : Reg) :
    (s.postIncrement x).dt = s.dt := by unfold State.postIncrement; split <;> rfl
@[simp] theorem State.postIncrement_st (s : State) (x : Reg) :
    (s.postIncrement x).st = s.st := by unfold State.postIncrement; split <;> rfl
@[simp] theorem State.postIncrement_keys (s : State) (x : Reg) :
    (s.postIncrement x).keys = s.keys := by unfold State.postIncrement; split <;> rfl
@[simp] theorem State.postIncrement_memory (s : State) (x : Reg) :
    (s.postIncrement x).memory = s.memory := by unfold State.postIncrement; split <;> rfl
@[simp] theorem State.postIncrement_plane1 (s : State) (x : Reg) :
    (s.postIncrement x).plane1 = s.plane1 := by unfold State.postIncrement; split <;> rfl
@[simp] theorem State.postIncrement_plane2 (s : State) (x : Reg) :
    (s.postIncrement x).plane2 = s.plane2 := by unfold State.postIncrement; split <;> rfl
@[simp] theorem State.postIncrement_activeDrawPlane (s : State) (x : Reg) :
    (s.postIncrement x).activeDrawPlane = s.activeDrawPlane := by unfold State.postIncrement; split <;> rfl
@[simp] theorem State.postIncrement_highResMode (s : State) (x : Reg) :
    (s.postIncrement x).highResMode = s.highResMode := by unfold State.postIncrement; split <;> rfl
@[simp] theorem State.postIncrement_rpl (s : State) (x : Reg) :
    (s.postIncrement x).rpl = s.rpl := by unfold State.postIncrement; split <;> rfl
@[simp] theorem State.postIncrement_pattern (s : State) (x : Reg) :
    (s.postIncrement x).pattern = s.pattern := by unfold State.postIncrement; split <;> rfl
@[simp] theorem State.postIncrement_pitch (s : State) (x : Reg) :
    (s.postIncrement x).pitch = s.pitch := by unfold State.postIncrement; split <;> rfl
@[simp] theorem State.postIncrement_keyFrame (s : State) (x : Reg) :
    (s.postIncrement x).keyFrame = s.keyFrame := by unfold State.postIncrement; split <;> rfl
@[simp] theorem State.postIncrement_wide (s : State) (x : Reg) :
    (s.postIncrement x).wide = s.wide := by unfold State.postIncrement; split <;> rfl
@[simp] theorem State.postIncrement_fault (s : State) (x : Reg) :
    (s.postIncrement x).fault = s.fault := by unfold State.postIncrement; split <;> rfl
@[simp] theorem State.postIncrement_loadedImage (s : State) (x : Reg) :
    (s.postIncrement x).loadedImage = s.loadedImage := by unfold State.postIncrement; split <;> rfl
@[simp] theorem State.postIncrement_keyFrameIn (s : State) (x : Reg) :
    (s.postIncrement x).keyFrameIn = s.keyFrameIn := by unfold State.postIncrement; split <;> rfl
@[simp] theorem State.postIncrement_schedule (s : State) (x : Reg) :
    (s.postIncrement x).schedule = s.schedule := by unfold State.postIncrement; split <;> rfl
@[simp] theorem State.postIncrement_draws (s : State) (x : Reg) :
    (s.postIncrement x).draws = s.draws := by unfold State.postIncrement; split <;> rfl

/-! ## tickTimers -/

@[simp] theorem State.tickTimers_config (s : State) : s.tickTimers.config = s.config := rfl
@[simp] theorem State.tickTimers_v (s : State) : s.tickTimers.v = s.v := rfl
@[simp] theorem State.tickTimers_pc (s : State) : s.tickTimers.pc = s.pc := rfl
@[simp] theorem State.tickTimers_index (s : State) : s.tickTimers.index = s.index := rfl
@[simp] theorem State.tickTimers_stack (s : State) : s.tickTimers.stack = s.stack := rfl
@[simp] theorem State.tickTimers_sp (s : State) : s.tickTimers.sp = s.sp := rfl
@[simp] theorem State.tickTimers_dt (s : State) : s.tickTimers.dt = tickByte s.dt := rfl
@[simp] theorem State.tickTimers_st (s : State) : s.tickTimers.st = tickByte s.st := rfl
@[simp] theorem State.tickTimers_keys (s : State) : s.tickTimers.keys = s.keys := rfl
@[simp] theorem State.tickTimers_memory (s : State) : s.tickTimers.memory = s.memory := rfl
@[simp] theorem State.tickTimers_plane1 (s : State) : s.tickTimers.plane1 = s.plane1 := rfl
@[simp] theorem State.tickTimers_plane2 (s : State) : s.tickTimers.plane2 = s.plane2 := rfl
@[simp] theorem State.tickTimers_activeDrawPlane (s : State) :
    s.tickTimers.activeDrawPlane = s.activeDrawPlane := rfl
@[simp] theorem State.tickTimers_highResMode (s : State) :
    s.tickTimers.highResMode = s.highResMode := rfl
@[simp] theorem State.tickTimers_rpl (s : State) : s.tickTimers.rpl = s.rpl := rfl
@[simp] theorem State.tickTimers_pattern (s : State) : s.tickTimers.pattern = s.pattern := rfl
@[simp] theorem State.tickTimers_pitch (s : State) : s.tickTimers.pitch = s.pitch := rfl
@[simp] theorem State.tickTimers_keyFrame (s : State) : s.tickTimers.keyFrame = s.keyFrame := rfl
@[simp] theorem State.tickTimers_wide (s : State) : s.tickTimers.wide = s.wide := rfl
@[simp] theorem State.tickTimers_fault (s : State) : s.tickTimers.fault = s.fault := rfl
@[simp] theorem State.tickTimers_loadedImage (s : State) :
    s.tickTimers.loadedImage = s.loadedImage := rfl
@[simp] theorem State.tickTimers_keyFrameIn (s : State) :
    s.tickTimers.keyFrameIn = s.keyFrameIn := rfl
@[simp] theorem State.tickTimers_schedule (s : State) : s.tickTimers.schedule = s.schedule := rfl
@[simp] theorem State.tickTimers_draws (s : State) : s.tickTimers.draws = s.draws := rfl

/-! ## resetEvent -/

@[simp] theorem State.resetEvent_config (s : State) : s.resetEvent.config = s.config := rfl
@[simp] theorem State.resetEvent_v (s : State) : s.resetEvent.v = Vector.replicate 16 0 := rfl
@[simp] theorem State.resetEvent_pc (s : State) : s.resetEvent.pc = 0x200 := rfl
@[simp] theorem State.resetEvent_index (s : State) : s.resetEvent.index = 0 := rfl
@[simp] theorem State.resetEvent_stack (s : State) :
    s.resetEvent.stack = Vector.replicate 16 0 := rfl
@[simp] theorem State.resetEvent_sp (s : State) : s.resetEvent.sp = none := rfl
@[simp] theorem State.resetEvent_dt (s : State) : s.resetEvent.dt = 0 := rfl
@[simp] theorem State.resetEvent_st (s : State) : s.resetEvent.st = 0 := rfl
@[simp] theorem State.resetEvent_keys (s : State) : s.resetEvent.keys = s.keys := rfl
@[simp] theorem State.resetEvent_memory (s : State) : s.resetEvent.memory = [] := rfl
@[simp] theorem State.resetEvent_plane1 (s : State) : s.resetEvent.plane1 = [] := rfl
@[simp] theorem State.resetEvent_plane2 (s : State) : s.resetEvent.plane2 = [] := rfl
@[simp] theorem State.resetEvent_activeDrawPlane (s : State) :
    s.resetEvent.activeDrawPlane = .plane1 := rfl
@[simp] theorem State.resetEvent_highResMode (s : State) : s.resetEvent.highResMode = false := rfl
@[simp] theorem State.resetEvent_rpl (s : State) : s.resetEvent.rpl = Vector.replicate 16 0 := rfl
@[simp] theorem State.resetEvent_pattern (s : State) :
    s.resetEvent.pattern = Vector.replicate 16 0 := rfl
@[simp] theorem State.resetEvent_pitch (s : State) : s.resetEvent.pitch = 64 := rfl
@[simp] theorem State.resetEvent_keyFrame (s : State) : s.resetEvent.keyFrame = false := rfl
@[simp] theorem State.resetEvent_wide (s : State) : s.resetEvent.wide = false := rfl
@[simp] theorem State.resetEvent_fault (s : State) : s.resetEvent.fault = none := rfl
@[simp] theorem State.resetEvent_loadedImage (s : State) : s.resetEvent.loadedImage = [] := rfl
@[simp] theorem State.resetEvent_keyFrameIn (s : State) :
    s.resetEvent.keyFrameIn = s.keyFrameIn := rfl
@[simp] theorem State.resetEvent_schedule (s : State) : s.resetEvent.schedule = s.schedule := rfl
@[simp] theorem State.resetEvent_draws (s : State) : s.resetEvent.draws = s.draws := rfl

/-! ## exitReset -/

@[simp] theorem State.exitReset_config (s : State) : s.exitReset.config = s.config := rfl
@[simp] theorem State.exitReset_v (s : State) : s.exitReset.v = Vector.replicate 16 0 := rfl
@[simp] theorem State.exitReset_pc (s : State) : s.exitReset.pc = 0x200 := rfl
@[simp] theorem State.exitReset_index (s : State) : s.exitReset.index = 0 := rfl
@[simp] theorem State.exitReset_stack (s : State) : s.exitReset.stack = Vector.replicate 16 0 := rfl
@[simp] theorem State.exitReset_sp (s : State) : s.exitReset.sp = none := rfl
@[simp] theorem State.exitReset_dt (s : State) : s.exitReset.dt = 0 := rfl
@[simp] theorem State.exitReset_st (s : State) : s.exitReset.st = 0 := rfl
@[simp] theorem State.exitReset_keys (s : State) : s.exitReset.keys = s.keys := rfl
@[simp] theorem State.exitReset_memory (s : State) :
    s.exitReset.memory = Memory.writeBytes s.config.resetByte loadBase s.loadedImage [] := rfl
@[simp] theorem State.exitReset_plane1 (s : State) : s.exitReset.plane1 = [] := rfl
@[simp] theorem State.exitReset_plane2 (s : State) : s.exitReset.plane2 = [] := rfl
@[simp] theorem State.exitReset_activeDrawPlane (s : State) :
    s.exitReset.activeDrawPlane = .plane1 := rfl
@[simp] theorem State.exitReset_highResMode (s : State) : s.exitReset.highResMode = false := rfl
@[simp] theorem State.exitReset_rpl (s : State) : s.exitReset.rpl = s.rpl := rfl
@[simp] theorem State.exitReset_pattern (s : State) :
    s.exitReset.pattern = Vector.replicate 16 0 := rfl
@[simp] theorem State.exitReset_pitch (s : State) : s.exitReset.pitch = 64 := rfl
@[simp] theorem State.exitReset_keyFrame (s : State) : s.exitReset.keyFrame = false := rfl
@[simp] theorem State.exitReset_wide (s : State) : s.exitReset.wide = false := rfl
@[simp] theorem State.exitReset_fault (s : State) : s.exitReset.fault = none := rfl
@[simp] theorem State.exitReset_loadedImage (s : State) :
    s.exitReset.loadedImage = s.loadedImage := rfl
@[simp] theorem State.exitReset_keyFrameIn (s : State) :
    s.exitReset.keyFrameIn = s.keyFrameIn := rfl
@[simp] theorem State.exitReset_schedule (s : State) : s.exitReset.schedule = s.schedule := rfl
@[simp] theorem State.exitReset_draws (s : State) : s.exitReset.draws = s.draws := rfl

/-! ## new -/

@[simp] theorem State.new_config (c : Config) : (State.new c).config = c := rfl
@[simp] theorem State.new_v (c : Config) : (State.new c).v = Vector.replicate 16 0 := rfl
@[simp] theorem State.new_pc (c : Config) : (State.new c).pc = 0x200 := rfl
@[simp] theorem State.new_index (c : Config) : (State.new c).index = 0 := rfl
@[simp] theorem State.new_stack (c : Config) : (State.new c).stack = Vector.replicate 16 0 := rfl
@[simp] theorem State.new_sp (c : Config) : (State.new c).sp = none := rfl
@[simp] theorem State.new_dt (c : Config) : (State.new c).dt = 0 := rfl
@[simp] theorem State.new_st (c : Config) : (State.new c).st = 0 := rfl
@[simp] theorem State.new_keys (c : Config) : (State.new c).keys = Vector.replicate 16 false := rfl
@[simp] theorem State.new_memory (c : Config) : (State.new c).memory = [] := rfl
@[simp] theorem State.new_plane1 (c : Config) : (State.new c).plane1 = [] := rfl
@[simp] theorem State.new_plane2 (c : Config) : (State.new c).plane2 = [] := rfl
@[simp] theorem State.new_activeDrawPlane (c : Config) : (State.new c).activeDrawPlane = .plane1 := rfl
@[simp] theorem State.new_highResMode (c : Config) : (State.new c).highResMode = false := rfl
@[simp] theorem State.new_rpl (c : Config) : (State.new c).rpl = Vector.replicate 16 0 := rfl
@[simp] theorem State.new_pattern (c : Config) : (State.new c).pattern = Vector.replicate 16 0 := rfl
@[simp] theorem State.new_pitch (c : Config) : (State.new c).pitch = 64 := rfl
@[simp] theorem State.new_keyFrame (c : Config) : (State.new c).keyFrame = false := rfl
@[simp] theorem State.new_wide (c : Config) : (State.new c).wide = false := rfl
@[simp] theorem State.new_fault (c : Config) : (State.new c).fault = none := rfl
@[simp] theorem State.new_loadedImage (c : Config) : (State.new c).loadedImage = [] := rfl
@[simp] theorem State.new_keyFrameIn (c : Config) : (State.new c).keyFrameIn = true := rfl
@[simp] theorem State.new_schedule (c : Config) : (State.new c).schedule = [] := rfl
@[simp] theorem State.new_draws (c : Config) : (State.new c).draws = 0 := rfl

/-! ## planes by name -/

@[simp] theorem State.plane_setPlane_self (s : State) (k : PlaneId) (p : Plane) :
    (s.setPlane k p).plane k = p := by cases k <;> rfl

theorem State.plane_setPlane_ne (s : State) {k j : PlaneId} (p : Plane) (h : j ≠ k) :
    (s.setPlane k p).plane j = s.plane j := by cases k <;> cases j <;> first | rfl | exact absurd rfl h

end Sys2Proof.Machine
end

