-- ==== Sys2Proof/Laws/Memory.lean ====
section
/-! SUPPORT. Laws of memory: the canonical form, read after write, and what the access primitives and
block transfers answer (20_memory.md R62 to R66). -/

namespace Sys2Proof.Machine

/-! ## One byte -/

theorem Memory.read_of_lt {d : Nat → Byte} {size : Nat} :
    ∀ {m : Memory} {lo a : Nat}, Memory.wfFrom d size lo m = true → a < lo → m.read d a = d a
  | [], _, _, _, _ => rfl
  | (k, c) :: m, lo, a, h, hlt => by
    simp only [Memory.wfFrom, Bool.and_eq_true, decide_eq_true_eq] at h
    rw [Memory.read, if_neg (by omega), Memory.read_of_lt h.2 (by omega)]

theorem Memory.wfFrom_mono {d : Nat → Byte} {size : Nat} {m : Memory} {lo lo' : Nat}
    (h : Memory.wfFrom d size lo m = true) (hle : lo' ≤ lo) :
    Memory.wfFrom d size lo' m = true := by
  cases m with
  | nil => rfl
  | cons e m =>
    simp only [Memory.wfFrom, Bool.and_eq_true, decide_eq_true_eq] at h ⊢
    exact ⟨⟨⟨by omega, h.1.1.2⟩, h.1.2⟩, h.2⟩

/-- A write leaves every other address alone. -/
theorem Memory.read_write_ne {d : Nat → Byte} {a x : Nat} {b : Byte} (h : x ≠ a) :
    ∀ m : Memory, (m.write d a b).read d x = m.read d x
  | [] => by
    unfold Memory.write
    split <;> simp [Memory.read, h]
  | (k, c) :: m => by
    unfold Memory.write
    split
    · split <;> simp [Memory.read, h]
    · split
      · subst_vars; split <;> simp [Memory.read, h]
      · simp [Memory.read, Memory.read_write_ne h m]

/-- A read after a write to the same address gives the value written. -/
theorem Memory.read_write_self {d : Nat → Byte} {size a : Nat} {b : Byte} :
    ∀ {m : Memory} {lo : Nat}, Memory.wfFrom d size lo m = true → (m.write d a b).read d a = b
  | [], _, _ => by
    unfold Memory.write
    split
    · rename_i h; exact h.symm
    · simp [Memory.read]
  | (k, c) :: m, lo, h => by
    simp only [Memory.wfFrom, Bool.and_eq_true, decide_eq_true_eq] at h
    unfold Memory.write
    split
    · rename_i hk
      split
      · rename_i hb
        rw [Memory.read, if_neg (by omega), Memory.read_of_lt h.2 (by omega), hb]
      · simp [Memory.read]
    · split
      · subst_vars
        split
        · rename_i hb; rw [Memory.read_of_lt h.2 (by omega), hb]
        · simp [Memory.read]
      · rename_i hne
        rw [Memory.read, if_neg hne, Memory.read_write_self h.2]

/-- A write keeps the canonical form. -/
theorem Memory.wfFrom_write {d : Nat → Byte} {size a : Nat} {b : Byte} (ha : a < size) :
    ∀ {m : Memory} {lo : Nat}, Memory.wfFrom d size lo m = true → lo ≤ a →
      Memory.wfFrom d size lo (m.write d a b) = true
  | [], lo, _, hlo => by
    unfold Memory.write
    split
    · rfl
    · simp_all [Memory.wfFrom]
  | (k, c) :: m, lo, h, hlo => by
    have h0 := h
    simp only [Memory.wfFrom, Bool.and_eq_true, decide_eq_true_eq] at h
    unfold Memory.write
    split
    · rename_i hk
      split
      · exact h0
      · rename_i hb
        simp only [Memory.wfFrom, Bool.and_eq_true, decide_eq_true_eq]
        exact ⟨⟨⟨hlo, ha⟩, hb⟩, ⟨⟨⟨by omega, h.1.1.2⟩, h.1.2⟩, h.2⟩⟩
    · split
      · subst_vars
        split
        · exact Memory.wfFrom_mono h.2 (by omega)
        · rename_i hb
          simp only [Memory.wfFrom, Bool.and_eq_true, decide_eq_true_eq]
          exact ⟨⟨⟨hlo, ha⟩, hb⟩, h.2⟩
      · simp only [Memory.wfFrom, Bool.and_eq_true, decide_eq_true_eq]
        exact ⟨h.1, Memory.wfFrom_write ha h.2 (by omega)⟩

theorem Memory.wf_write {d : Nat → Byte} {size a : Nat} {b : Byte} {m : Memory}
    (h : m.wf d size = true) (ha : a < size) : (m.write d a b).wf d size = true :=
  Memory.wfFrom_write ha h (Nat.zero_le a)

/-! ## Blocks of bytes -/

theorem Memory.wf_writeBytes {d : Nat → Byte} {size : Nat} :
    ∀ {bs : List Byte} {a : Nat} {m : Memory}, m.wf d size = true → a + bs.length ≤ size →
      (m.writeBytes d a bs).wf d size = true
  | [], _, _, h, _ => h
  | b :: bs, a, m, h, hl => by
    simp only [List.length_cons] at hl
    have hw : (m.write d a b).wf d size = true := Memory.wf_write h (by omega)
    exact Memory.wf_writeBytes (bs := bs) (a := a + 1) hw (by omega)

theorem Memory.read_writeBytes_outside {d : Nat → Byte} {x : Nat} :
    ∀ {bs : List Byte} {a : Nat} {m : Memory}, (x < a ∨ a + bs.length ≤ x) →
      (m.writeBytes d a bs).read d x = m.read d x
  | [], _, _, _ => rfl
  | b :: bs, a, m, h => by
    simp only [List.length_cons] at h
    rw [Memory.writeBytes, Memory.read_writeBytes_outside (by omega),
      Memory.read_write_ne (by omega)]

theorem Memory.read_writeBytes_inside {d : Nat → Byte} {size : Nat} :
    ∀ {bs : List Byte} {a k : Nat} {m : Memory}, m.wf d size = true → a + bs.length ≤ size →
      (hk : k < bs.length) → (m.writeBytes d a bs).read d (a + k) = bs[k]
  | b :: bs, a, k, m, h, hl, hk => by
    simp only [List.length_cons] at hl hk
    have hw : (m.write d a b).wf d size = true := Memory.wf_write h (by omega)
    cases k with
    | zero =>
      rw [Memory.writeBytes, Nat.add_zero, Memory.read_writeBytes_outside (by omega)]
      exact Memory.read_write_self h
    | succ k =>
      have := Memory.read_writeBytes_inside (bs := bs) (a := a + 1) (k := k) hw (by omega)
        (by omega)
      rw [Memory.writeBytes, show a + (k + 1) = a + 1 + k by omega, this]
      rfl

/-! ## The access primitives -/

theorem State.memRead_ok {s : State} {a : Nat} (h : a < s.memSize) :
    s.memRead a = .ok (s.byteAt a) := if_pos h

theorem State.memRead_error {s : State} {a : Nat} (h : s.memSize ≤ a) :
    s.memRead a = .error (.outOfBounds .memory a) := if_neg (by omega)

theorem State.memRead2_ok {s : State} {a : Nat} (h : a + 1 < s.memSize) :
    s.memRead2 a = .ok (wordOfBytes (s.byteAt a) (s.byteAt (a + 1))) := by
  simp only [State.memRead2, State.memRead_ok h, State.memRead_ok (Nat.lt_of_succ_lt h)]
  rfl

/-- A 2-byte read past the end names the first address out of range (R62). -/
theorem State.memRead2_error {s : State} {a : Nat} (h : s.memSize ≤ a + 1) :
    s.memRead2 a = .error (.outOfBounds .memory (max a s.memSize)) := by
  by_cases ha : a < s.memSize
  · simp only [State.memRead2, State.memRead_ok ha, State.memRead_error h]
    rw [show max a s.memSize = a + 1 by omega]
    rfl
  · simp only [State.memRead2, State.memRead_error (Nat.le_of_not_lt ha)]
    rw [show max a s.memSize = a by omega]
    rfl

/-- A block read inside memory answers the bytes in ascending order (R67). -/
theorem State.readBytes_ok {s : State} : ∀ {n a : Nat}, a + n ≤ s.memSize →
    s.readBytes a n = .ok ((List.range n).map fun k => s.byteAt (a + k))
  | 0, _, _ => rfl
  | n + 1, a, h => by
    rw [State.readBytes, State.memRead_ok (by omega), State.readBytes_ok (by omega),
      List.range_succ_eq_map]
    simp only [bind, Except.bind, pure, Except.pure, List.map_cons, List.map_map, Nat.add_zero]
    congr 2
    exact List.map_congr_left fun k _ => by simp only [Function.comp]; congr 1; omega

/-- A block read past the end names the first address out of range (R225). -/
theorem State.readBytes_error {s : State} : ∀ {n a : Nat}, 0 < n → s.memSize < a + n →
    s.readBytes a n = .error (.outOfBounds .memory (max a s.memSize))
  | n + 1, a, _, h => by
    by_cases ha : a < s.memSize
    · have := State.readBytes_error (s := s) (n := n) (a := a + 1) (by omega) (by omega)
      rw [State.readBytes, State.memRead_ok ha, this,
        show max (a + 1) s.memSize = max a s.memSize by omega]
      rfl
    · rw [State.readBytes, State.memRead_error (Nat.le_of_not_lt ha),
        show max a s.memSize = a by omega]
      rfl

/-- A block write inside memory succeeds and writes memory only (R63). -/
theorem State.writeBytes_ok {bs : List Byte} {s : State} {a : Nat}
    (h : a + bs.length ≤ s.memSize) :
    s.writeBytes a bs = .ok { s with memory := s.memory.writeBytes s.config.resetByte a bs } := by
  induction bs generalizing s a with
  | nil => rfl
  | cons b bs ih =>
    simp only [List.length_cons] at h
    have hs : s.memWrite a b =
        .ok { s with memory := s.memory.write s.config.resetByte a b } := if_pos (by omega)
    rw [State.writeBytes, hs]
    exact ih (by simp only [State.memSize] at h ⊢; omega)

/-- A block write past the end names the first address out of range (R225). -/
theorem State.writeBytes_error {bs : List Byte} {s : State} {a : Nat} (hp : 0 < bs.length)
    (h : s.memSize < a + bs.length) :
    s.writeBytes a bs = .error (.outOfBounds .memory (max a s.memSize)) := by
  induction bs generalizing s a with
  | nil => exact absurd hp (by simp)
  | cons b bs ih =>
    simp only [List.length_cons] at h
    by_cases ha : a < s.memSize
    · have hs : s.memWrite a b =
          .ok { s with memory := s.memory.write s.config.resetByte a b } := if_pos ha
      rw [State.writeBytes, hs, show max a s.memSize = max (a + 1) s.memSize by omega]
      exact ih (by omega) (by simp only [State.memSize] at h ⊢; omega)
    · have hs : s.memWrite a b = .error (.outOfBounds .memory a) := if_neg ha
      rw [State.writeBytes, hs, show max a s.memSize = a by omega]
      rfl

/-! ## Bytes read back -/

theorem State.byteAt_congr {s t : State} (hm : t.memory = s.memory) (hc : t.config = s.config)
    (a : Nat) : t.byteAt a = s.byteAt a := by simp only [State.byteAt, hm, hc]

theorem State.byteAt_writeBytes_outside {s : State} {a x : Nat} {bs : List Byte}
    (h : x < a ∨ a + bs.length ≤ x) :
    State.byteAt { s with memory := s.memory.writeBytes s.config.resetByte a bs } x =
      s.byteAt x := Memory.read_writeBytes_outside h

theorem State.byteAt_writeBytes_inside {s : State} {a k : Nat} {bs : List Byte}
    (hw : s.memory.wf s.config.resetByte s.memSize = true) (hl : a + bs.length ≤ s.memSize)
    (hk : k < bs.length) :
    State.byteAt { s with memory := s.memory.writeBytes s.config.resetByte a bs } (a + k) =
      bs[k] := Memory.read_writeBytes_inside hw hl hk

/-- The look-ahead is true exactly when the next word lies in memory and is 0xF000 (R103). -/
theorem State.lookahead_eq (s : State) (pc : Word) :
    s.lookahead pc = (decide (pc.toNat + 1 < s.memSize) &&
      (wordOfBytes (s.byteAt pc.toNat) (s.byteAt (pc.toNat + 1)) == longWord)) := by
  unfold State.lookahead
  by_cases h : pc.toNat + 1 < s.memSize
  · rw [State.memRead2_ok h]; simp [h]
  · rw [State.memRead2_error (by omega)]; simp [h]

theorem State.lookahead_congr {s t : State} (hm : t.memory = s.memory) (hc : t.config = s.config)
    (pc : Word) : t.lookahead pc = s.lookahead pc := by
  unfold State.lookahead State.memRead2 State.memRead State.byteAt State.memSize
  rw [hm, hc]

end Sys2Proof.Machine
end

