-- ==== Sys2Proof/Laws/Regs.lean ====
section
/-! SUPPORT. Laws of the general registers, register ranges and the small files (10_state.md R21, R22;
30_encoding.md R91). -/

namespace Sys2Proof.Machine

/-! ## One register -/

@[simp] theorem State.readV_writeV_self (s : State) (x : Reg) (b : Byte) :
    (s.writeV x b).readV x = b := by
  simp [State.readV, State.writeV, Vector.get_eq_getElem]

theorem State.readV_writeV_ne {s : State} {x r : Reg} {b : Byte} (h : r ≠ x) :
    (s.writeV x b).readV r = s.readV r := by
  have : x.val ≠ r.val := fun e => h (Fin.ext e.symm)
  simp [State.readV, State.writeV, Vector.get_eq_getElem, Vector.getElem_set_ne, this]

theorem State.readV_writeV (s : State) (x r : Reg) (b : Byte) :
    (s.writeV x b).readV r = if r = x then b else s.readV r := by
  split
  · subst_vars; exact State.readV_writeV_self ..
  · exact State.readV_writeV_ne ‹_›

theorem State.readV_congr {s t : State} (h : t.v = s.v) (r : Reg) : t.readV r = s.readV r := by
  simp only [State.readV, h]

theorem State.byteAt_writeV (s : State) (x : Reg) (b : Byte) (a : Nat) :
    (s.writeV x b).byteAt a = s.byteAt a := rfl

/-- The result and the flag: VF holds the flag, X the result unless X = F (R130). -/
theorem State.readV_writeResultFlag (s : State) (x r : Reg) (b f : Byte) :
    (s.writeResultFlag x b f).readV r =
      if r = VF then f else if r = x then b else s.readV r := by
  simp only [State.writeResultFlag, State.readV_writeV]

/-- The logic result, with VF cleared under vf_reset (R134 to R136). -/
theorem State.readV_writeLogic (s : State) (x r : Reg) (b : Byte) :
    (s.writeLogic x b).readV r =
      if s.config.quirks.vfReset = true ∧ r = VF then 0
      else if r = x then b else s.readV r := by
  unfold State.writeLogic
  cases hq : s.config.quirks.vfReset <;>
    simp [State.readV_writeV, State.readV_writeResultFlag]

/-! ## Register ranges -/

theorem Reg.ofNat_of_lt {n : Nat} (h : n < 16) : Reg.ofNat n = ⟨n, h⟩ :=
  Fin.ext (Nat.mod_eq_of_lt h)

/-- A range has both ends: |X - Y| + 1 registers (R158). -/
theorem regRange_length (x y : Reg) :
    (regRange x y).length = (if x.val ≤ y.val then y.val - x.val else x.val - y.val) + 1 := by
  unfold regRange; split <;> simp

/-- The k-th register of a range: V[X + k] rising, V[X - k] falling (R158). -/
theorem regRange_getElem (x y : Reg) (k : Nat) (h : k < (regRange x y).length) :
    ((regRange x y)[k]).val = if x.val ≤ y.val then x.val + k else x.val - k := by
  have hl := regRange_length x y
  have hx := x.isLt
  have hy := y.isLt
  split
  · rename_i hxy
    rw [if_pos hxy] at hl
    simp only [regRange, if_pos hxy, List.getElem_map, List.getElem_range]
    exact Nat.mod_eq_of_lt (by omega)
  · rename_i hxy
    rw [if_neg hxy] at hl
    simp only [regRange, if_neg hxy, List.getElem_map, List.getElem_range]
    exact Nat.mod_eq_of_lt (by omega)

/-- The registers of a range lie between its ends. -/
theorem mem_regRange (x y r : Reg) :
    r ∈ regRange x y ↔ (x ≤ r ∧ r ≤ y) ∨ (y ≤ r ∧ r ≤ x) := by
  revert x y r; decide +kernel

theorem regRange_nodup (x y : Reg) : (regRange x y).Nodup := by
  revert x y; decide +kernel

theorem regsUpTo_length (x : Reg) : (regsUpTo x).length = x.val + 1 := by
  rw [regsUpTo, regRange_length]; simp

theorem regsUpTo_nodup (x : Reg) : (regsUpTo x).Nodup := regRange_nodup 0 x

theorem regsUpTo_getElem (x : Reg) (k : Nat) (h : k < (regsUpTo x).length) :
    ((regsUpTo x)[k]).val = k := by
  exact (regRange_getElem 0 x k h).trans (by simp)

theorem mem_regsUpTo (x r : Reg) : r ∈ regsUpTo x ↔ r ≤ x := by
  rw [regsUpTo, mem_regRange]
  have : (0 : Reg) ≤ r := Fin.zero_le r
  constructor
  · rintro (h | h)
    · exact h.2
    · exact h.2.trans (Fin.zero_le x)
  · exact fun h => Or.inl ⟨this, h⟩

/-! ## Writes to a range -/

/-- `writeRegs` writes registers and nothing else. -/
theorem State.writeRegs_eq (xs : List Reg) (bs : List Byte) (s : State) :
    s.writeRegs xs bs = { s with v := (s.writeRegs xs bs).v } := by
  induction xs generalizing bs s with
  | nil => rfl
  | cons x xs ih =>
    cases bs with
    | nil => rfl
    | cons b bs => exact ih bs (s.writeV x b)

theorem State.readV_writeRegs_of_not_mem {r : Reg} {xs : List Reg} {bs : List Byte} {s : State}
    (h : r ∉ xs) : (s.writeRegs xs bs).readV r = s.readV r := by
  induction xs generalizing bs s with
  | nil => rfl
  | cons x xs ih =>
    cases bs with
    | nil => rfl
    | cons b bs =>
      simp only [List.mem_cons, not_or] at h
      exact (ih h.2).trans (State.readV_writeV_ne h.1)

theorem State.readV_writeRegs_getElem {xs : List Reg} {bs : List Byte} {s : State} {k : Nat}
    (hn : xs.Nodup) (hx : k < xs.length) (hb : k < bs.length) :
    (s.writeRegs xs bs).readV xs[k] = bs[k] := by
  induction xs generalizing bs s k with
  | nil => exact absurd hx (by simp)
  | cons x xs ih =>
    cases bs with
    | nil => exact absurd hb (by simp)
    | cons b bs =>
      rw [List.nodup_cons] at hn
      cases k with
      | zero =>
        exact (State.readV_writeRegs_of_not_mem hn.1).trans (State.readV_writeV_self ..)
      | succ k =>
        simp only [List.length_cons, Nat.add_lt_add_iff_right] at hx hb
        exact ih hn.2 hx hb

/-- The register `r` of V0 .. VX is the r-th of them. -/
theorem regsUpTo_getElem_val {x r : Reg} (h : r ≤ x) :
    (regsUpTo x)[r.val]'(by rw [regsUpTo_length]; exact Nat.lt_succ_of_le h) = r :=
  Fin.ext (regsUpTo_getElem x _ _)

theorem State.readV_writeRegs_regsUpTo {s : State} {x r : Reg} {bs : List Byte} (h : r ≤ x)
    (hb : r.val < bs.length) : (s.writeRegs (regsUpTo x) bs).readV r = bs[r.val] := by
  have hx : r.val < (regsUpTo x).length := by rw [regsUpTo_length]; exact Nat.lt_succ_of_le h
  have := State.readV_writeRegs_getElem (s := s) (regsUpTo_nodup x) hx hb
  rwa [regsUpTo_getElem_val h] at this

theorem State.readRegs_regsUpTo_getElem {s : State} {x r : Reg} (h : r ≤ x)
    (hr : r.val < (s.readRegs (regsUpTo x)).length) :
    (s.readRegs (regsUpTo x))[r.val] = s.readV r := by
  simp only [State.readRegs, List.getElem_map, regsUpTo_getElem_val h]

/-! ## The small files -/

/-- Setting the entries of a list of indices from a function of the index: the RPL and pattern
copies (R160, R208). -/
theorem foldl_set_get (f : Reg → Byte) : ∀ (xs : List Reg) (w : Vector Byte 16) (r : Reg),
    (xs.foldl (fun w k => w.set k.val (f k)) w).get r = if r ∈ xs then f r else w.get r
  | [], _, _ => by simp
  | x :: xs, w, r => by
    rw [List.foldl_cons, foldl_set_get f xs]
    by_cases hr : r ∈ xs
    · simp [hr]
    · by_cases hx : r = x
      · subst hx; simp [hr, Vector.get_eq_getElem]
      · have hv : x.val ≠ r.val := fun e => hx (Fin.ext e.symm)
        simp [hr, hx, Vector.get_eq_getElem, Vector.getElem_set_ne, hv]

theorem mem_allRegs (r : Reg) : r ∈ allRegs := by revert r; decide

/-- The smallest pressed key, when there is one (R202). -/
theorem State.lowestKey_eq_some {s : State} {k : Reg} (h : s.keys.get k = true)
    (hlt : ∀ j, j < k → s.keys.get j = false) : s.lowestKey = some k := by
  have key : ∀ (f : Reg → Bool), f k = true → (∀ j, j < k → f j = false) →
      allRegs.find? f = some k := by
    intro f hf hj
    have hk : allRegs = (List.finRange 16) := by decide
    rw [hk, List.find?_eq_some_iff_getElem]
    refine ⟨hf, k.val, by simp, by simp, fun j hjk => ?_⟩
    simp only [List.getElem_finRange, Bool.not_eq_true', Fin.cast_mk]
    have := hj ⟨j, by omega⟩ hjk
    simp [this]
  exact key _ h hlt

theorem State.lowestKey_eq_none {s : State} (h : ∀ k, s.keys.get k = false) :
    s.lowestKey = none := by
  simp [State.lowestKey, h]

end Sys2Proof.Machine
end

