-- ==== Sys2Proof/Laws/Plane.lean ====
section
/-! SUPPORT. Laws of the pixel buffers: flipping, the blocks of logical pixels, scrolling
(43_display.md R173, R176). -/

namespace Sys2Proof.Machine

/-! ## Lit entries and the rising list -/

theorem Plane.lit_iff {p : Plane} {i : Nat} : p.lit i = true ↔ i ∈ p := by
  simp [Plane.lit]

theorem Plane.wfFrom_bounds {size : Nat} : ∀ {p : Plane} {lo i : Nat},
    Plane.wfFrom size lo p = true → i ∈ p → lo ≤ i ∧ i < size
  | j :: p, lo, i, h, hi => by
    simp only [Plane.wfFrom, Bool.and_eq_true, decide_eq_true_eq] at h
    rcases List.mem_cons.mp hi with rfl | hi
    · exact h.1
    · have := Plane.wfFrom_bounds h.2 hi; omega

theorem Plane.wfFrom_mono {size : Nat} {p : Plane} {lo lo' : Nat}
    (h : Plane.wfFrom size lo p = true) (hle : lo' ≤ lo) : Plane.wfFrom size lo' p = true := by
  cases p with
  | nil => rfl
  | cons i p =>
    simp only [Plane.wfFrom, Bool.and_eq_true, decide_eq_true_eq] at h ⊢
    exact ⟨⟨by omega, h.1.2⟩, h.2⟩

theorem Plane.lt_of_lit {size : Nat} {p : Plane} {i : Nat} (h : p.wf size = true)
    (hi : p.lit i = true) : i < size := (Plane.wfFrom_bounds h (Plane.lit_iff.mp hi)).2

theorem Plane.lit_eq_false_of_le {size : Nat} {p : Plane} {i : Nat} (h : p.wf size = true)
    (hi : size ≤ i) : p.lit i = false := by
  cases hl : p.lit i with
  | false => rfl
  | true => have := Plane.lt_of_lit h hl; omega

@[simp] theorem Plane.lit_nil (i : Nat) : Plane.lit [] i = false := rfl

theorem Plane.lit_cons (j : Nat) (p : Plane) (i : Nat) :
    Plane.lit (j :: p) i = (decide (i = j) || p.lit i) := by
  simp [Plane.lit]

/-- A well-formed buffer is its lit entries. -/
theorem Plane.ext_lit {size : Nat} : ∀ {p q : Plane} {lo lo' : Nat},
    Plane.wfFrom size lo p = true → Plane.wfFrom size lo' q = true →
    (∀ i, p.lit i = q.lit i) → p = q
  | [], [], _, _, _, _, _ => rfl
  | [], j :: q, _, _, _, _, h => by have := h j; simp [Plane.lit_cons] at this
  | i :: p, [], _, _, _, _, h => by have := h i; simp [Plane.lit_cons] at this
  | i :: p, j :: q, lo, lo', hp, hq, h => by
    simp only [Plane.wfFrom, Bool.and_eq_true, decide_eq_true_eq] at hp hq
    have hij : i = j := by
      by_contra hne
      have h1 : Plane.lit (j :: q) i = true := by rw [← h i]; simp [Plane.lit_cons]
      have h2 : Plane.lit (i :: p) j = true := by rw [h j]; simp [Plane.lit_cons]
      simp only [Plane.lit_cons, Bool.or_eq_true, decide_eq_true_eq] at h1 h2
      have h1 := (Plane.wfFrom_bounds hq.2 (Plane.lit_iff.mp (h1.resolve_left hne))).1
      have h2 := (Plane.wfFrom_bounds hp.2
        (Plane.lit_iff.mp (h2.resolve_left fun e => hne e.symm))).1
      omega
    subst hij
    congr 1
    refine Plane.ext_lit hp.2 hq.2 fun k => ?_
    have hk := h k
    simp only [Plane.lit_cons] at hk
    by_cases hki : k = i
    · subst hki
      have e1 : Plane.lit p k = false := by
        cases hl : Plane.lit p k with
        | false => rfl
        | true => have := (Plane.wfFrom_bounds hp.2 (Plane.lit_iff.mp hl)).1; omega
      have e2 : Plane.lit q k = false := by
        cases hl : Plane.lit q k with
        | false => rfl
        | true => have := (Plane.wfFrom_bounds hq.2 (Plane.lit_iff.mp hl)).1; omega
      rw [e1, e2]
    · simpa [hki] using hk

/-! ## Flipping -/

theorem Plane.wfFrom_toggle {size i : Nat} (hi : i < size) : ∀ {p : Plane} {lo : Nat},
    Plane.wfFrom size lo p = true → lo ≤ i → Plane.wfFrom size lo (Plane.toggle i p) = true
  | [], lo, _, hlo => by simp [Plane.toggle, Plane.wfFrom, hlo, hi]
  | j :: p, lo, h, hlo => by
    simp only [Plane.wfFrom, Bool.and_eq_true, decide_eq_true_eq] at h
    unfold Plane.toggle
    split
    · simp only [Plane.wfFrom, Bool.and_eq_true, decide_eq_true_eq]
      exact ⟨⟨hlo, hi⟩, ⟨⟨by omega, h.1.2⟩, h.2⟩⟩
    · split
      · exact Plane.wfFrom_mono h.2 (by omega)
      · simp only [Plane.wfFrom, Bool.and_eq_true, decide_eq_true_eq]
        exact ⟨h.1, Plane.wfFrom_toggle hi h.2 (by omega)⟩

/-- A flip changes its own entry and no other (R173). -/
theorem Plane.lit_toggle {size i : Nat} : ∀ {p : Plane} {lo : Nat} (j : Nat),
    Plane.wfFrom size lo p = true →
    (Plane.toggle i p).lit j = (p.lit j ^^ decide (j = i))
  | [], _, j, _ => by simp [Plane.toggle, Plane.lit_cons]
  | k :: p, lo, j, h => by
    simp only [Plane.wfFrom, Bool.and_eq_true, decide_eq_true_eq] at h
    have hout : ∀ m, m ≤ k → Plane.lit p m = false := fun m hm => by
      cases hl : Plane.lit p m with
      | false => rfl
      | true => have := (Plane.wfFrom_bounds h.2 (Plane.lit_iff.mp hl)).1; omega
    unfold Plane.toggle
    split
    · rename_i hik
      simp only [Plane.lit_cons]
      by_cases hj : j = i
      · subst hj; rw [hout j (by omega)]; simp; omega
      · simp [hj]
    · split
      · rename_i _ hik
        subst hik
        by_cases hj : j = i
        · subst hj; simp [Plane.lit_cons, hout j (Nat.le_refl j)]
        · simp [Plane.lit_cons, hj]
      · rename_i _ hik
        rw [Plane.lit_cons, Plane.lit_cons, Plane.lit_toggle j h.2]
        by_cases hj : j = k
        · subst hj
          have : ¬ j = i := fun e => hik e.symm
          simp [this]
        · simp [hj]

/-- `W size p`: a buffer of `size` entries. -/
theorem Plane.wf_toggle {size i : Nat} {p : Plane} (h : p.wf size = true) (hi : i < size) :
    (Plane.toggle i p).wf size = true := Plane.wfFrom_toggle hi h (Nat.zero_le i)

/-- Flipping distinct entries in turn flips each once, and reports whether one was lit (R173). -/
theorem flipEntries_spec {size : Nat} (es : List Nat) (hn : es.Nodup)
    (hb : ∀ i ∈ es, i < size) (p : Plane) (hp : p.wf size = true) :
    (flipEntries p es).1.wf size = true ∧
    (∀ j, (flipEntries p es).1.lit j = (p.lit j ^^ decide (j ∈ es))) ∧
    (flipEntries p es).2 = es.any p.lit := by
  have key : ∀ (es : List Nat) (p : Plane) (b : Bool), es.Nodup → (∀ i ∈ es, i < size) →
      p.wf size = true →
      let r := es.foldl (fun (acc : Plane × Bool) i =>
        (Plane.toggle i acc.1, acc.2 || acc.1.lit i)) (p, b)
      r.1.wf size = true ∧ (∀ j, r.1.lit j = (p.lit j ^^ decide (j ∈ es))) ∧
        r.2 = (b || es.any p.lit) := by
    intro es
    induction es with
    | nil => intro p b _ _ hp; exact ⟨hp, by simp, by simp⟩
    | cons i es ih =>
      intro p b hn hb hp
      rw [List.nodup_cons] at hn
      have hw := Plane.wf_toggle hp (hb i (by simp))
      obtain ⟨h1, h2, h3⟩ := ih (Plane.toggle i p) (b || p.lit i) hn.2
        (fun j hj => hb j (by simp [hj])) hw
      refine ⟨h1, fun j => ?_, ?_⟩
      · rw [List.foldl_cons, h2 j, Plane.lit_toggle j hp]
        by_cases hj : j = i
        · subst hj; simp [hn.1]
        · simp [hj]
      · rw [List.foldl_cons, h3, List.any_cons, Bool.or_assoc]
        congr 2
        rw [Bool.eq_iff_iff]
        simp only [List.any_eq_true]
        constructor <;> rintro ⟨j, hj, hl⟩ <;> refine ⟨j, hj, ?_⟩ <;>
          rw [Plane.lit_toggle j hp] at * <;>
          simpa [show j ≠ i from fun e => hn.1 (e ▸ hj)] using hl
  simpa [flipEntries] using key es p false hn hb hp

/-! ## Blocks of logical pixels -/

/-- What a geometry must satisfy for its logical pixels to tile a buffer of width `w` (R43). -/
structure Tiles (w : Nat) (g : Geometry) : Prop where
  scale : 0 < g.scale
  width : g.width * g.scale = w

theorem mem_blockEntries {w : Nat} {g : Geometry} (ht : Tiles w g) {lx ly bx by_ : Nat}
    (hlx : lx < g.width) (hbx : bx < w) :
    by_ * w + bx ∈ blockEntries w g lx ly ↔ bx / g.scale = lx ∧ by_ / g.scale = ly := by
  obtain ⟨hs, hw⟩ := ht
  have hlt : ∀ dx, dx < g.scale → lx * g.scale + dx < w := fun dx hdx => by
    rw [← hw]
    calc lx * g.scale + dx < lx * g.scale + g.scale := by omega
      _ = (lx + 1) * g.scale := by ring
      _ ≤ g.width * g.scale := Nat.mul_le_mul_right _ hlx
  simp only [blockEntries, List.mem_flatMap, List.mem_map, List.mem_range]
  constructor
  · rintro ⟨dy, hdy, dx, hdx, h⟩
    have h1 := hlt dx hdx
    have hw0 : 0 < w := by omega
    have hx : bx = lx * g.scale + dx := by
      have := congrArg (· % w) h
      simp only [Nat.mul_add_mod_of_lt h1, Nat.mul_add_mod_of_lt hbx] at this
      exact this.symm
    have hy : by_ = ly * g.scale + dy := by
      rw [hx] at h
      have h' : (ly * g.scale + dy) * w = by_ * w := by omega
      exact (Nat.eq_of_mul_eq_mul_right hw0 h').symm
    subst hx hy
    refine ⟨?_, ?_⟩ <;> rw [Nat.mul_comm, Nat.mul_add_div hs, Nat.div_eq_of_lt ‹_›] <;> rfl
  · rintro ⟨rfl, rfl⟩
    refine ⟨by_ % g.scale, Nat.mod_lt _ hs, bx % g.scale, Nat.mod_lt _ hs, ?_⟩
    rw [Nat.div_add_mod', Nat.div_add_mod']

theorem blockEntries_lt {w h : Nat} {g : Geometry} (ht : Tiles w g) (hh : g.height * g.scale = h)
    {lx ly i : Nat} (hlx : lx < g.width) (hly : ly < g.height)
    (hi : i ∈ blockEntries w g lx ly) : i < w * h := by
  obtain ⟨hs, hw⟩ := ht
  simp only [blockEntries, List.mem_flatMap, List.mem_map, List.mem_range] at hi
  obtain ⟨dy, hdy, dx, hdx, rfl⟩ := hi
  have hx : lx * g.scale + dx < w := by
    rw [← hw]
    calc lx * g.scale + dx < lx * g.scale + g.scale := by omega
      _ = (lx + 1) * g.scale := by ring
      _ ≤ g.width * g.scale := Nat.mul_le_mul_right _ hlx
  have hy : ly * g.scale + dy + 1 ≤ h := by
    rw [← hh]
    calc ly * g.scale + dy + 1 ≤ ly * g.scale + g.scale := by omega
      _ = (ly + 1) * g.scale := by ring
      _ ≤ g.height * g.scale := Nat.mul_le_mul_right _ hly
  calc (ly * g.scale + dy) * w + (lx * g.scale + dx)
      < (ly * g.scale + dy) * w + w := by omega
    _ = (ly * g.scale + dy + 1) * w := by ring
    _ ≤ h * w := Nat.mul_le_mul_right _ hy
    _ = w * h := Nat.mul_comm _ _

theorem blockEntries_nodup {w : Nat} {g : Geometry} (ht : Tiles w g) {lx ly : Nat}
    (hlx : lx < g.width) : (blockEntries w g lx ly).Nodup := by
  obtain ⟨hs, hw⟩ := ht
  have hlt : ∀ dx, dx < g.scale → lx * g.scale + dx < w := fun dx hdx => by
    rw [← hw]
    calc lx * g.scale + dx < lx * g.scale + g.scale := by omega
      _ = (lx + 1) * g.scale := by ring
      _ ≤ g.width * g.scale := Nat.mul_le_mul_right _ hlx
  unfold blockEntries
  rw [List.nodup_flatMap]
  refine ⟨fun dy _ => ?_, ?_⟩
  · refine List.Nodup.map ?_ List.nodup_range
    intro a b h
    simp only at h
    omega
  · refine List.Pairwise.imp_of_mem ?_ (List.pairwise_lt_range (n := g.scale))
    intro a b ha hb hab
    simp only [Function.onFun, List.Disjoint, List.mem_map, List.mem_range,
      forall_exists_index, and_imp]
    rintro i dx hdx rfl dx' hdx' h
    have h1 := hlt dx hdx
    have h2 := hlt dx' hdx'
    have := congrArg (· / w) h
    have hw0 : 0 < w := by omega
    simp only [Nat.mul_comm _ w, Nat.mul_add_div hw0, Nat.div_eq_of_lt h1,
      Nat.div_eq_of_lt h2] at this
    omega

/-! ## Scrolling -/

theorem Plane.wfFrom_filter {size : Nat} (f : Nat → Bool) : ∀ {p : Plane} {lo : Nat},
    Plane.wfFrom size lo p = true → Plane.wfFrom size lo (p.filter f) = true
  | [], _, _ => rfl
  | i :: p, lo, h => by
    simp only [Plane.wfFrom, Bool.and_eq_true, decide_eq_true_eq] at h
    rw [List.filter_cons]
    split
    · simp only [Plane.wfFrom, Bool.and_eq_true, decide_eq_true_eq]
      exact ⟨h.1, Plane.wfFrom_filter f h.2⟩
    · exact Plane.wfFrom_mono (Plane.wfFrom_filter f h.2) (by omega)

/-- A rising list stays rising under a strictly rising map of its entries. -/
theorem Plane.wfFrom_map {size size' : Nat} (f : Nat → Nat) : ∀ {p : Plane} {lo lo' : Nat},
    Plane.wfFrom size lo p = true → (∀ i ∈ p, lo' ≤ f i ∧ f i < size') →
    (∀ i ∈ p, ∀ j ∈ p, i < j → f i < f j) → Plane.wfFrom size' lo' (p.map f) = true
  | [], _, _, _, _, _ => rfl
  | i :: p, lo, lo', h, hb, hm => by
    simp only [Plane.wfFrom, Bool.and_eq_true, decide_eq_true_eq] at h
    simp only [List.map_cons, Plane.wfFrom, Bool.and_eq_true, decide_eq_true_eq]
    refine ⟨hb i (by simp), Plane.wfFrom_map f h.2 (fun j hj => ?_) fun a ha b hb' => ?_⟩
    · have h1 := (Plane.wfFrom_bounds h.2 hj).1
      exact ⟨hm i (by simp) j (by simp [hj]) (by omega), (hb j (by simp [hj])).2⟩
    · exact hm a (by simp [ha]) b (by simp [hb'])

theorem Plane.wf_scrollDown {w h d : Nat} {p : Plane} (hp : p.wf (w * h) = true) :
    (p.scrollDown w h d).wf (w * h) = true := by
  unfold Plane.scrollDown
  rw [List.filter_map]
  refine Plane.wfFrom_map (size := w * h) _ (Plane.wfFrom_filter _ hp) ?_ ?_
  · intro i hi
    simp only [List.mem_filter, Function.comp, decide_eq_true_eq] at hi
    exact ⟨Nat.zero_le _, hi.2⟩
  · intros; omega

theorem Plane.wf_scrollUp {w h d : Nat} {p : Plane} (hp : p.wf (w * h) = true) :
    (p.scrollUp w d).wf (w * h) = true := by
  unfold Plane.scrollUp
  refine Plane.wfFrom_map (size := w * h) _ (Plane.wfFrom_filter _ hp) ?_ ?_
  · intro i hi
    have := (Plane.wfFrom_bounds hp (List.mem_filter.mp hi).1).2
    exact ⟨Nat.zero_le _, by omega⟩
  · intro i hi j _ _
    have := of_decide_eq_true (List.mem_filter.mp hi).2
    omega

theorem Plane.wf_scrollRight {w h d : Nat} {p : Plane} (hp : p.wf (w * h) = true) :
    (p.scrollRight w d).wf (w * h) = true := by
  unfold Plane.scrollRight
  refine Plane.wfFrom_map (size := w * h) _ (Plane.wfFrom_filter _ hp) ?_ ?_
  · intro i hi
    have h1 := (Plane.wfFrom_bounds hp (List.mem_filter.mp hi).1).2
    have h2 := of_decide_eq_true (List.mem_filter.mp hi).2
    refine ⟨Nat.zero_le _, ?_⟩
    have hd : i / w < h := Nat.div_lt_of_lt_mul h1
    have := Nat.div_add_mod i w
    calc i + d = w * (i / w) + (i % w + d) := by omega
      _ < w * (i / w) + w := by omega
      _ = w * (i / w + 1) := by ring
      _ ≤ w * h := Nat.mul_le_mul_left _ hd
  · intros; omega

theorem Plane.wf_scrollLeft {w h d : Nat} {p : Plane} (hp : p.wf (w * h) = true) :
    (p.scrollLeft w d).wf (w * h) = true := by
  unfold Plane.scrollLeft
  refine Plane.wfFrom_map (size := w * h) _ (Plane.wfFrom_filter _ hp) ?_ ?_
  · intro i hi
    have := (Plane.wfFrom_bounds hp (List.mem_filter.mp hi).1).2
    exact ⟨Nat.zero_le _, by omega⟩
  · intro i hi j hj _
    have h1 := of_decide_eq_true (List.mem_filter.mp hi).2
    have := Nat.mod_le i w
    omega

/-- `p[x, y] <- old[x, y - d]` (R176). -/
theorem Plane.lit_scrollDown {w h d x y : Nat} {p : Plane} (hx : x < w) (hy : y < h) :
    (p.scrollDown w h d).lit (y * w + x) = (decide (d ≤ y) && p.lit ((y - d) * w + x)) := by
  have hb : y * w + x < w * h := by
    calc y * w + x < y * w + w := by omega
      _ = (y + 1) * w := by ring
      _ ≤ h * w := Nat.mul_le_mul_right _ hy
      _ = w * h := Nat.mul_comm _ _
  rw [Bool.eq_iff_iff, Bool.and_eq_true, decide_eq_true_eq, Plane.lit_iff, Plane.lit_iff]
  simp only [Plane.scrollDown, List.mem_filter, List.mem_map, decide_eq_true_eq]
  constructor
  · rintro ⟨⟨i, hi, he⟩, _⟩
    have hdy : d ≤ y := by
      by_contra hlt
      have : (y + 1) * w ≤ d * w := Nat.mul_le_mul_right _ (by omega)
      rw [Nat.add_mul, one_mul] at this
      omega
    refine ⟨hdy, ?_⟩
    have : (y - d) * w = y * w - d * w := Nat.sub_mul ..
    have : d * w ≤ y * w := Nat.mul_le_mul_right _ hdy
    rwa [show (y - d) * w + x = i by omega]
  · rintro ⟨hdy, hi⟩
    refine ⟨⟨_, hi, ?_⟩, hb⟩
    have : (y - d) * w = y * w - d * w := Nat.sub_mul ..
    have : d * w ≤ y * w := Nat.mul_le_mul_right _ hdy
    omega

/-- `p[x, y] <- old[x, y + d]` (R176). -/
theorem Plane.lit_scrollUp {w d x y : Nat} {p : Plane} :
    (p.scrollUp w d).lit (y * w + x) = p.lit ((y + d) * w + x) := by
  rw [Bool.eq_iff_iff, Plane.lit_iff, Plane.lit_iff]
  simp only [Plane.scrollUp, List.mem_map, List.mem_filter, decide_eq_true_eq]
  have e : (y + d) * w = y * w + d * w := Nat.add_mul ..
  constructor
  · rintro ⟨i, ⟨hi, hd⟩, he⟩
    rwa [show (y + d) * w + x = i by omega]
  · intro hi
    exact ⟨_, ⟨hi, by omega⟩, by omega⟩

/-- `p[x, y] <- old[x - d, y]` (R176). -/
theorem Plane.lit_scrollRight {w d x y : Nat} {p : Plane} (hx : x < w) :
    (p.scrollRight w d).lit (y * w + x) = (decide (d ≤ x) && p.lit (y * w + (x - d))) := by
  rw [Bool.eq_iff_iff, Bool.and_eq_true, decide_eq_true_eq, Plane.lit_iff, Plane.lit_iff]
  simp only [Plane.scrollRight, List.mem_map, List.mem_filter, decide_eq_true_eq]
  constructor
  · rintro ⟨i, ⟨hi, hm⟩, he⟩
    have h1 := Nat.div_add_mod i w
    have hq : i / w = y := by
      have h2 : i + d = w * (i / w) + (i % w + d) := by omega
      have h3 : (i + d) / w = i / w := by
        rw [h2, Nat.mul_add_div (by omega), Nat.div_eq_of_lt hm, Nat.add_zero]
      have h4 : (y * w + x) / w = y := by
        rw [Nat.mul_comm, Nat.mul_add_div (by omega), Nat.div_eq_of_lt hx, Nat.add_zero]
      rw [← h3, he, h4]
    rw [hq, Nat.mul_comm] at h1
    refine ⟨by omega, ?_⟩
    rwa [show y * w + (x - d) = i by omega]
  · rintro ⟨hd, hi⟩
    refine ⟨_, ⟨hi, ?_⟩, by omega⟩
    rw [Nat.mul_add_mod_of_lt (by omega)]
    omega

/-- `p[x, y] <- old[x + d, y]` (R176). -/
theorem Plane.lit_scrollLeft {w d x y : Nat} {p : Plane} (hx : x < w) :
    (p.scrollLeft w d).lit (y * w + x) = (decide (x + d < w) && p.lit (y * w + (x + d))) := by
  rw [Bool.eq_iff_iff, Bool.and_eq_true, decide_eq_true_eq, Plane.lit_iff, Plane.lit_iff]
  simp only [Plane.scrollLeft, List.mem_map, List.mem_filter, decide_eq_true_eq]
  constructor
  · rintro ⟨i, ⟨hi, hm⟩, he⟩
    have h1 := Nat.div_add_mod i w
    have hmw : i % w < w := Nat.mod_lt i (by omega)
    have hml : i % w - d < w := by omega
    have hq : i / w = y := by
      have h2 : i - d = w * (i / w) + (i % w - d) := by omega
      have h3 : (i - d) / w = i / w := by
        rw [h2, Nat.mul_add_div (by omega), Nat.div_eq_of_lt hml, Nat.add_zero]
      have h4 : (y * w + x) / w = y := by
        rw [Nat.mul_comm, Nat.mul_add_div (by omega), Nat.div_eq_of_lt hx, Nat.add_zero]
      rw [← h3, he, h4]
    rw [hq, Nat.mul_comm] at h1
    refine ⟨by omega, ?_⟩
    rwa [show y * w + (x + d) = i by omega]
  · rintro ⟨hd, hi⟩
    refine ⟨_, ⟨hi, ?_⟩, by omega⟩
    rw [Nat.mul_add_mod_of_lt hd]
    omega

end Sys2Proof.Machine
end

