-- ==== Sys2Proof/Laws/Draw.lean ====
section
/-! SUPPORT. Laws of sprite compositing (43_display.md R172 to R175): what a plot, a row and an image
do, pixel by pixel, in terms of the plane as it was before. -/

namespace Sys2Proof.Machine

/-! ## Independent flips in turn -/

/-- A fold of steps that each flip entries of their own: step `x` flips the entries `F x`, reports
`C x` of the plane it is given, and `C x` depends only on entries `D x` that no other step flips.
Then every step reports of the plane as it was at the start, and an entry is flipped when one of
the steps flips it. -/
theorem foldl_flips {β γ : Type} {size n : Nat} (step : Nat → Plane → Plane × γ) (op : β → γ → β)
    (F D : Nat → Nat → Bool) (C : Nat → Plane → γ)
    (hW : ∀ x p, x < n → p.wf size = true → (step x p).1.wf size = true)
    (hF : ∀ x p i, x < n → p.wf size = true → (step x p).1.lit i = (p.lit i ^^ F x i))
    (hC : ∀ x p, x < n → p.wf size = true → (step x p).2 = C x p)
    (hD : ∀ x p q, x < n → (∀ i, D x i = true → Plane.lit p i = Plane.lit q i) → C x p = C x q)
    (hFD : ∀ x y i, x < n → y < x → F y i = true → D x i = false)
    (hFF : ∀ x i, x < n → F x i = true → D x i = true)
    (p : Plane) (hp : p.wf size = true) (b : β) :
    let r := (List.range n).foldl
      (fun (acc : Plane × β) x => ((step x acc.1).1, op acc.2 (step x acc.1).2)) (p, b)
    r.1.wf size = true ∧ (∀ i, r.1.lit i = (p.lit i ^^ (List.range n).any (F · i))) ∧
      r.2 = (List.range n).foldl (fun a x => op a (C x p)) b := by
  induction n with
  | zero => exact ⟨hp, by simp, rfl⟩
  | succ n ih =>
    obtain ⟨h1, h2, h3⟩ := ih (fun x p hx => hW x p (by omega)) (fun x p i hx => hF x p i (by omega))
      (fun x p hx => hC x p (by omega)) (fun x p q hx => hD x p q (by omega))
      (fun x y i hx => hFD x y i (by omega)) (fun x i hx => hFF x i (by omega))
    simp only [List.range_succ, List.foldl_append, List.foldl_cons, List.foldl_nil, List.any_append,
      List.any_cons, List.any_nil, Bool.or_false]
    have hany : ∀ i, D n i = true → (List.range n).any (F · i) = false := by
      intro i hi
      rw [List.any_eq_false]
      intro y hy hf
      rw [hFD n y i (by omega) (List.mem_range.mp hy) hf] at hi
      exact Bool.noConfusion hi
    refine ⟨hW n _ (by omega) h1, fun i => ?_, ?_⟩
    · rw [hF n _ i (by omega) h1, h2 i]
      cases hf : F n i with
      | false => simp
      | true => rw [hany i (hFF n i (by omega) hf)]; simp
    · rw [hC n _ (by omega) h1, h3]
      congr 1
      refine hD n _ _ (by omega) fun i hi => ?_
      rw [h2 i, hany i hi, Bool.xor_false]

/-! ## One set sprite bit -/

/-- What `drawEnv` guarantees: the logical pixels tile a buffer of height `h`, the base lies on the
screen, and a sprite is no larger than the screen (R43, R172, R175). -/
structure DrawEnv.Ok (h : Nat) (e : DrawEnv) : Prop where
  tiles : Tiles e.bufW e.geometry
  height : e.geometry.height * e.geometry.scale = h
  x0 : e.x0 < e.geometry.width
  y0 : e.y0 < e.geometry.height
  cols : e.shape.cols ≤ e.geometry.width
  rows : e.shape.rows ≤ e.geometry.height

/-- The sprite position falls off the screen and is dropped (R173). -/
def DrawEnv.dropped (e : DrawEnv) (r c : Nat) : Bool :=
  e.clipping && (decide (e.geometry.width ≤ e.x0 + c) || decide (e.geometry.height ≤ e.y0 + r))

/-- The buffer entries of a sprite position, with wrap-around (R173). -/
def DrawEnv.block (e : DrawEnv) (r c : Nat) : List Nat :=
  blockEntries e.bufW e.geometry ((e.x0 + c) % e.geometry.width) ((e.y0 + r) % e.geometry.height)

theorem DrawEnv.Ok.block_lt {h : Nat} {e : DrawEnv} (ho : e.Ok h) {r c i : Nat}
    (hi : i ∈ e.block r c) : i < e.bufW * h :=
  blockEntries_lt ho.tiles ho.height (Nat.mod_lt _ (by have := ho.x0; omega))
    (Nat.mod_lt _ (by have := ho.y0; omega)) hi

theorem DrawEnv.Ok.block_nodup {h : Nat} {e : DrawEnv} (ho : e.Ok h) (r c : Nat) :
    (e.block r c).Nodup :=
  blockEntries_nodup ho.tiles (Nat.mod_lt _ (by have := ho.x0; omega))

theorem plot_dropped {e : DrawEnv} {p : Plane} {r c : Nat} (hd : e.dropped r c = true) :
    plot e p r c = (p, .dropped) := by
  rw [plot]; exact if_pos hd

theorem plot_placed {e : DrawEnv} {p : Plane} {r c : Nat} (hd : e.dropped r c = false) :
    plot e p r c = ((flipEntries p (e.block r c)).1,
      if (flipEntries p (e.block r c)).2 then .hit else .clear) := by
  rw [plot]; exact if_neg (fun h => Bool.noConfusion (hd.symm.trans h))

/-- Two positions of one sprite never share a buffer pixel: the sprite is no larger than the
screen. -/
theorem DrawEnv.Ok.block_disjoint {h : Nat} {e : DrawEnv} (ho : e.Ok h) {r c r' c' i : Nat}
    (hr : r < e.shape.rows) (hc : c < e.shape.cols) (hr' : r' < e.shape.rows)
    (hc' : c' < e.shape.cols) (hi : i ∈ e.block r c) (hi' : i ∈ e.block r' c') :
    r = r' ∧ c = c' := by
  obtain ⟨ht, _, hx0, hy0, hcols, hrows⟩ := ho
  have hmw : ∀ n, n % e.geometry.width < e.geometry.width := fun n => Nat.mod_lt _ (by omega)
  have hw0 : 0 < e.bufW := by
    rw [← ht.width]; exact Nat.mul_pos (by omega) ht.scale
  have hdm : i = i / e.bufW * e.bufW + i % e.bufW := (Nat.div_add_mod' i e.bufW).symm
  rw [hdm, DrawEnv.block, mem_blockEntries ht (hmw _) (Nat.mod_lt _ hw0)] at hi hi'
  have inj : ∀ m a b b' : Nat, a < m → b < m → b' < m → (a + b) % m = (a + b') % m → b = b' := by
    intro m a b b' ha hb hb' hm
    rcases Nat.lt_or_ge (a + b) m with h1 | h1 <;> rcases Nat.lt_or_ge (a + b') m with h2 | h2
    · rw [Nat.mod_eq_of_lt h1, Nat.mod_eq_of_lt h2] at hm; omega
    · rw [Nat.mod_eq_of_lt h1, Nat.mod_eq_sub_mod h2, Nat.mod_eq_of_lt (by omega)] at hm; omega
    · rw [Nat.mod_eq_of_lt h2, Nat.mod_eq_sub_mod h1, Nat.mod_eq_of_lt (by omega)] at hm; omega
    · rw [Nat.mod_eq_sub_mod h1, Nat.mod_eq_of_lt (by omega), Nat.mod_eq_sub_mod h2,
        Nat.mod_eq_of_lt (by omega)] at hm
      omega
  exact ⟨inj _ e.y0 r r' hy0 (by omega) (by omega) (hi.2.symm.trans hi'.2),
    inj _ e.x0 c c' hx0 (by omega) (by omega) (hi.1.symm.trans hi'.1)⟩

/-! ## One row -/

/-- Position (r, c) of image `k` flips entry `i`. -/
def DrawEnv.flips (e : DrawEnv) (k r c i : Nat) : Bool :=
  spriteBit e.shape e.bytes k r c && !e.dropped r c && decide (i ∈ e.block r c)

/-- Position (r, c) of image `k` collides on plane `p` (R174). -/
def DrawEnv.collides (e : DrawEnv) (k r c : Nat) (p : Plane) : Bool :=
  spriteBit e.shape e.bytes k r c &&
    (if e.dropped r c then e.clipCounts else (e.block r c).any p.lit)

/-- What one column of a row does. -/
def colStep (e : DrawEnv) (k r c : Nat) (p : Plane) : Plane × Bool :=
  if spriteBit e.shape e.bytes k r c then
    ((plot e p r c).1, (plot e p r c).2.collides e.clipCounts)
  else (p, false)

theorem drawRow_eq (e : DrawEnv) (k r : Nat) (p : Plane) :
    drawRow e k r p = (List.range e.shape.cols).foldl
      (fun (acc : Plane × Bool) c => ((colStep e k r c acc.1).1, acc.2 || (colStep e k r c acc.1).2))
      (p, false) := by
  unfold drawRow
  congr 1
  funext acc c
  unfold colStep
  split <;> simp

theorem colStep_spec {h : Nat} {e : DrawEnv} (ho : e.Ok h) (k r c : Nat) (p : Plane)
    (hp : p.wf (e.bufW * h) = true) :
    (colStep e k r c p).1.wf (e.bufW * h) = true ∧
    (∀ i, (colStep e k r c p).1.lit i = (p.lit i ^^ e.flips k r c i)) ∧
    (colStep e k r c p).2 = e.collides k r c p := by
  unfold colStep DrawEnv.flips DrawEnv.collides
  cases hb : spriteBit e.shape e.bytes k r c with
  | false => exact ⟨hp, by simp, by simp⟩
  | true =>
    cases hd : e.dropped r c with
    | true =>
      rw [plot_dropped hd]
      exact ⟨hp, by simp, by simp [Plot.collides]⟩
    | false =>
      obtain ⟨h1, h2, h3⟩ := flipEntries_spec (e.block r c) (ho.block_nodup r c)
        (fun i hi => ho.block_lt hi) p hp
      rw [plot_placed hd]
      refine ⟨h1, fun i => by simpa using h2 i, ?_⟩
      simp only [if_true, Bool.true_and, h3, Bool.false_eq_true, if_false]
      cases (e.block r c).any p.lit <;> rfl

theorem foldl_or (f : Nat → Bool) (n : Nat) :
    (List.range n).foldl (fun a x => a || f x) false = (List.range n).any f := by
  induction n with
  | zero => rfl
  | succ n ih => simp [List.range_succ, List.foldl_append, ih]

/-- Row `r` of image `k` flips the entry. -/
def DrawEnv.rowFlips (e : DrawEnv) (k r i : Nat) : Bool :=
  (List.range e.shape.cols).any fun c => e.flips k r c i

/-- Row `r` of image `k` collides on plane `p` (R174). -/
def DrawEnv.rowCollides (e : DrawEnv) (k r : Nat) (p : Plane) : Bool :=
  (List.range e.shape.cols).any fun c => e.collides k r c p

theorem DrawEnv.collides_congr {e : DrawEnv} {k r c : Nat} {p q : Plane}
    (h : ∀ i, i ∈ e.block r c → p.lit i = q.lit i) : e.collides k r c p = e.collides k r c q := by
  unfold DrawEnv.collides
  congr 2
  rw [Bool.eq_iff_iff, List.any_eq_true, List.any_eq_true]
  constructor <;> rintro ⟨i, hi, hl⟩
  · exact ⟨i, hi, (h i hi) ▸ hl⟩
  · exact ⟨i, hi, (h i hi).symm ▸ hl⟩

theorem DrawEnv.mem_block_of_flips {e : DrawEnv} {k r c i : Nat} (h : e.flips k r c i = true) :
    i ∈ e.block r c := by
  simp only [DrawEnv.flips, Bool.and_eq_true, decide_eq_true_eq] at h
  exact h.2

/-- A row flips the pixels of its set, placed bits, and reports the collision with the plane as it
was (R173, R174). -/
theorem drawRow_spec {h : Nat} {e : DrawEnv} (ho : e.Ok h) {k r : Nat} (hr : r < e.shape.rows)
    (p : Plane) (hp : p.wf (e.bufW * h) = true) :
    (drawRow e k r p).1.wf (e.bufW * h) = true ∧
    (∀ i, (drawRow e k r p).1.lit i = (p.lit i ^^ e.rowFlips k r i)) ∧
    (drawRow e k r p).2 = e.rowCollides k r p := by
  have := foldl_flips (n := e.shape.cols) (size := e.bufW * h) (colStep e k r) (· || ·)
    (fun c i => e.flips k r c i) (fun c i => decide (i ∈ e.block r c))
    (fun c p => e.collides k r c p)
    (fun c p _ hp => (colStep_spec ho k r c p hp).1)
    (fun c p i _ hp => (colStep_spec ho k r c p hp).2.1 i)
    (fun c p _ hp => (colStep_spec ho k r c p hp).2.2)
    (fun c p q _ hpq => DrawEnv.collides_congr fun i hi => hpq i (by simpa using hi))
    (fun c c' i hc hlt hf => by
      simp only [decide_eq_false_iff_not]
      intro hi
      have := ho.block_disjoint hr hc hr (by omega) hi (DrawEnv.mem_block_of_flips hf)
      omega)
    (fun c i _ hf => by simpa using DrawEnv.mem_block_of_flips hf) p hp false
  rw [drawRow_eq]
  refine ⟨this.1, this.2.1, this.2.2.trans ?_⟩
  exact foldl_or _ _

/-! ## One image -/

/-- Image `k` flips the entry. -/
def DrawEnv.imageFlips (e : DrawEnv) (k i : Nat) : Bool :=
  (List.range e.shape.rows).any fun r => e.rowFlips k r i

theorem foldl_count (f : Nat → Bool) (n : Nat) :
    (List.range n).foldl (fun a x => a + (f x).toNat) 0 = (List.range n).countP f := by
  induction n with
  | zero => rfl
  | succ n ih =>
    simp only [List.range_succ, List.foldl_append, List.foldl_cons, List.foldl_nil, ih,
      List.countP_append, List.countP_cons, List.countP_nil, Nat.zero_add]
    cases f n <;> rfl

/-- An image flips the pixels of its rows, and counts the rows that collide with the plane as it was
(R173 to R175). -/
theorem drawImage_spec {h : Nat} {e : DrawEnv} (ho : e.Ok h) (k : Nat) (p : Plane)
    (hp : p.wf (e.bufW * h) = true) :
    (drawImage e k p).1.wf (e.bufW * h) = true ∧
    (∀ i, (drawImage e k p).1.lit i = (p.lit i ^^ e.imageFlips k i)) ∧
    (drawImage e k p).2 = (List.range e.shape.rows).countP fun r => e.rowCollides k r p := by
  have hmem : ∀ r i, e.rowFlips k r i = true →
      ∃ c, c < e.shape.cols ∧ i ∈ e.block r c := by
    intro r i hf
    obtain ⟨c, hc, hfc⟩ := List.any_eq_true.mp hf
    exact ⟨c, List.mem_range.mp hc, DrawEnv.mem_block_of_flips hfc⟩
  have := foldl_flips (n := e.shape.rows) (size := e.bufW * h) (drawRow e k)
    (fun (a : Nat) (b : Bool) => a + b.toNat)
    (fun r i => e.rowFlips k r i)
    (fun r i => (List.range e.shape.cols).any fun c => decide (i ∈ e.block r c))
    (fun r p => e.rowCollides k r p)
    (fun r p hr hp => (drawRow_spec ho hr p hp).1)
    (fun r p i hr hp => (drawRow_spec ho hr p hp).2.1 i)
    (fun r p hr hp => (drawRow_spec ho hr p hp).2.2)
    (fun r p q _ hpq => by
      unfold DrawEnv.rowCollides
      have hcc : ∀ c ∈ List.range e.shape.cols, e.collides k r c p = e.collides k r c q :=
        fun c hc => DrawEnv.collides_congr fun i hi =>
          hpq i (List.any_eq_true.mpr ⟨c, hc, by simpa using hi⟩)
      rw [Bool.eq_iff_iff, List.any_eq_true, List.any_eq_true]
      exact exists_congr fun c => and_congr_right fun hc => by rw [hcc c hc])
    (fun r r' i hr hlt hf => by
      obtain ⟨c', hc', hi'⟩ := hmem r' i hf
      rw [List.any_eq_false]
      intro c hc hi
      have := ho.block_disjoint hr (List.mem_range.mp hc) (by omega) hc' (by simpa using hi) hi'
      omega)
    (fun r i _ hf => by
      obtain ⟨c, hc, hi⟩ := hmem r i hf
      exact List.any_eq_true.mpr ⟨c, List.mem_range.mpr hc, by simpa using hi⟩) p hp 0
  refine ⟨this.1, this.2.1, this.2.2.trans ?_⟩
  exact foldl_count _ _

end Sys2Proof.Machine
end

