-- ==== Sys2Proof/Laws/Execute.lean ====
section
/-! SUPPORT. What running a handler gives (40_flow.md R104, 60_exceptions.md R224), and the frame laws:
how each shared operation extends a frame (Safety.lean). -/

namespace Sys2Proof.Machine

/-! ## Running a handler -/

theorem State.execute_ok {s t : State} {f : State → Except Fault State} (h : f s.fetched = .ok t) :
    s.execute f = .next t := by simp only [State.execute, h]

theorem State.execute_error {s : State} {e : Fault} {f : State → Except Fault State}
    (h : f s.fetched = .error e) : s.execute f = .next (s.recorded e) := by
  simp only [State.execute, h]; rfl

/-- A handler's run ends in the handler's result, or in the recorded fault (R224). -/
theorem State.execute_eq_next {s t : State} {f : State → Except Fault State} :
    s.execute f = .next t ↔
      f s.fetched = .ok t ∨ ∃ e, f s.fetched = .error e ∧ t = s.recorded e := by
  unfold State.execute
  cases h : f s.fetched with
  | ok u => simp [eq_comm]
  | error e => simp [State.recorded, State.takeFault, eq_comm]

theorem State.execute_next (s : State) (f : State → Except Fault State) :
    ∃ t, s.execute f = .next t := by
  unfold State.execute; cases f s.fetched <;> exact ⟨_, rfl⟩

/-! ## Flags and the return stack -/

theorem toNat_flagByte (c : Bool) : (flagByte c).toNat = if c then 1 else 0 := by cases c <;> rfl

/-- A push below the top of the file goes to the next entry (R109). -/
theorem State.push_ok {s : State} (h : s.spInt ≠ 15) (w : Word) : ∃ k : Fin 16,
    (k.val : Int) = s.spInt + 1 ∧
    s.push w = .ok { s with sp := some k, stack := s.stack.set k.val w } := by
  unfold State.push State.spInt at *
  cases hs : s.sp with
  | none => exact ⟨0, rfl, rfl⟩
  | some k =>
    simp only [hs] at h
    have hk : k.val + 1 < 16 := by omega
    exact ⟨⟨k.val + 1, hk⟩, by simp, dif_pos hk⟩

/-- The 17th push raises StackOverflow (R222). -/
theorem State.push_full {s : State} (h : s.spInt = 15) (w : Word) :
    s.push w = .error .stackOverflow := by
  unfold State.push State.spInt at *
  cases hs : s.sp with
  | none => simp only [hs] at h; omega
  | some k => simp only [hs] at h; exact dif_neg (by omega)

/-- A pop takes the top entry into pc and leaves the file as it is (R107). -/
theorem State.popPc_ok {s : State} {k : Fin 16} (h : s.spInt = (k.val : Int)) :
    s.popPc = .ok { s with
      pc := s.stack.get k, sp := if k.val = 0 then none else some ⟨k.val - 1, by omega⟩ } := by
  unfold State.popPc State.spInt at *
  cases hs : s.sp with
  | none => simp only [hs] at h; omega
  | some j =>
    simp only [hs] at h
    obtain rfl : j = k := Fin.ext (by omega)
    rfl

/-- A pop of an empty stack raises StackUnderflow (R223). -/
theorem State.popPc_empty {s : State} (h : s.spInt = -1) : s.popPc = .error .stackUnderflow := by
  unfold State.popPc State.spInt at *
  cases hs : s.sp with
  | none => rfl
  | some k => simp only [hs] at h; omega

/-! ## Frames -/

/-- The fetch alone has the empty frame (R100, R101, R103). -/
theorem Frame.fetched (w : Effects) (s : State) : Frame w s s.fetched := by
  constructor <;> intros <;> first | rfl | exact ⟨rfl, rfl⟩

theorem Frame.setPc {w : Effects} {s t : State} (h : Frame w s t) (p : Word) :
    Frame w s (t.setPc p) := { h with }

theorem Frame.advancePc {w : Effects} {s t : State} (h : Frame w s t) (p : Word) :
    Frame w s (t.advancePc p) := { h with }

theorem Frame.rewindPc {w : Effects} {s t : State} (h : Frame w s t) : Frame w s t.rewindPc :=
  { h with }

theorem Frame.skipIf {w : Effects} {s t : State} (h : Frame w s t) (c : Bool) :
    Frame w s (t.skipIf c) := by
  unfold State.skipIf; split
  · exact h.advancePc _
  · exact h

theorem Frame.writeV {w : Effects} {s t : State} (h : Frame w s t) {x : Reg} (hx : w.regs x)
    (b : Byte) : Frame w s (t.writeV x b) :=
  { h with
    regs := fun r hr => by
      exact (State.readV_writeV_ne (fun e : r = x => hr (e ▸ hx))).trans (h.regs r hr) }

theorem Frame.writeResultFlag {w : Effects} {s t : State} (h : Frame w s t) {x : Reg}
    (hx : w.regs x) (hf : w.regs VF) (b f : Byte) : Frame w s (t.writeResultFlag x b f) :=
  (h.writeV hx b).writeV hf f

theorem Frame.writeLogic {w : Effects} {s t : State} (h : Frame w s t) {x : Reg}
    (hx : w.regs x) (hf : t.config.quirks.vfReset = true → w.regs VF) (b : Byte) :
    Frame w s (t.writeLogic x b) := by
  unfold State.writeLogic; split
  · exact h.writeResultFlag hx (hf ‹_›) b 0
  · exact h.writeV hx b

theorem Frame.writeRegs {w : Effects} {s t : State} (h : Frame w s t) {xs : List Reg}
    (hx : ∀ x ∈ xs, w.regs x) (bs : List Byte) : Frame w s (t.writeRegs xs bs) := by
  induction xs generalizing t bs with
  | nil => exact h
  | cons x xs ih =>
    cases bs with
    | nil => exact h
    | cons b bs =>
      exact ih (h.writeV (hx x (by simp)) b) (fun y hy => hx y (by simp [hy])) bs

theorem Frame.setIndex {w : Effects} {s t : State} (h : Frame w s t) (hi : w.index) (i : Word) :
    Frame w s { t with index := i } := { h with index := fun hn => absurd hi hn }

theorem Frame.postIncrement {w : Effects} {s t : State} (h : Frame w s t) (x : Reg)
    (hi : t.config.quirks.memoryIncrement = true → w.index) : Frame w s (t.postIncrement x) := by
  unfold State.postIncrement; split
  · exact h.setIndex (hi ‹_›) _
  · exact h

theorem Frame.setDt {w : Effects} {s t : State} (h : Frame w s t) (hw : w.dt) (b : Byte) :
    Frame w s { t with dt := b } := { h with dt := fun hn => absurd hw hn }

theorem Frame.setSt {w : Effects} {s t : State} (h : Frame w s t) (hw : w.st) (b : Byte) :
    Frame w s { t with st := b } := { h with st := fun hn => absurd hw hn }

theorem Frame.setPitch {w : Effects} {s t : State} (h : Frame w s t) (hw : w.pitch) (b : Byte) :
    Frame w s { t with pitch := b } := { h with pitch := fun hn => absurd hw hn }

theorem Frame.setPattern {w : Effects} {s t : State} (h : Frame w s t) (hw : w.pattern)
    (p : Vector Byte 16) : Frame w s { t with pattern := p } :=
  { h with pattern := fun hn => absurd hw hn }

theorem Frame.setRpl {w : Effects} {s t : State} (h : Frame w s t) (hw : w.rpl)
    (p : Vector Byte 16) : Frame w s { t with rpl := p } :=
  { h with rpl := fun hn => absurd hw hn }

theorem Frame.setHighRes {w : Effects} {s t : State} (h : Frame w s t) (hw : w.highRes) (b : Bool) :
    Frame w s { t with highResMode := b } := { h with highRes := fun hn => absurd hw hn }

theorem Frame.setDrawPlane {w : Effects} {s t : State} (h : Frame w s t) (hw : w.drawPlane)
    (p : DrawPlane) : Frame w s { t with activeDrawPlane := p } :=
  { h with drawPlane := fun hn => absurd hw hn }

theorem Frame.draw {w : Effects} {s t : State} (h : Frame w s t) (hw : w.draws) :
    Frame w s t.draw.2 := { h with draws := fun hn => absurd hw hn }

theorem Frame.setPlane {w : Effects} {s t : State} (h : Frame w s t) {k : PlaneId}
    (hk : w.planes k) (p : Plane) : Frame w s (t.setPlane k p) := by
  cases k
  all_goals
    exact { h with
      planes := fun j hj => by
        cases j
        · first | exact absurd hk hj | exact h.planes .one hj
        · first | exact absurd hk hj | exact h.planes .two hj }

/-- A block write inside memory touches its own bytes only. -/
theorem Frame.writeBytes {w : Effects} {s t : State} (h : Frame w s t) {a : Nat} {bs : List Byte}
    (hm : ∀ x, a ≤ x → x < a + bs.length → w.mem x) :
    Frame w s { t with memory := t.memory.writeBytes t.config.resetByte a bs } :=
  { h with
    mem := fun x hx => by
      rw [State.byteAt_writeBytes_outside]
      · exact h.mem x hx
      · by_contra hc
        exact hx (hm x (by omega) (by omega)) }

theorem Frame.push {w : Effects} {s t u : State} (h : Frame w s t) (hw : w.stack) {a : Word}
    (hu : t.push a = .ok u) : Frame w s u := by
  unfold State.push at hu
  split at hu
  · cases hu; exact { h with stack := fun hn => absurd hw hn }
  · split at hu
    · cases hu; exact { h with stack := fun hn => absurd hw hn }
    · cases hu

theorem Frame.popPc {w : Effects} {s t u : State} (h : Frame w s t) (hw : w.stack)
    (hu : t.popPc = .ok u) : Frame w s u := by
  unfold State.popPc at hu
  split at hu
  · cases hu
  · cases hu; exact { h with stack := fun hn => absurd hw hn }

/-- An operation on the selected planes touches those planes only (R170). -/
theorem Frame.onSelected {w : Effects} {s t : State} (h : Frame w s t)
    (hk : ∀ k ∈ t.selectedPlanes, w.planes k) (f : Plane → Plane) : Frame w s (t.onSelected f) := by
  unfold State.onSelected
  generalize t.selectedPlanes = ks at hk
  induction ks generalizing t with
  | nil => exact h
  | cons k ks ih =>
    exact ih (h.setPlane (hk k (by simp)) _) (fun j hj => hk j (by simp [hj]))

end Sys2Proof.Machine
end

