-- ==== Sys2Proof/Laws/Inv.lean ====
section
/-! SUPPORT. How the shared operations keep the invariant (Safety.lean), and what drawing and
plane-wise operations do to the state around the planes (43_display.md R170, R175). -/

namespace Sys2Proof.Machine

/-! ## Operations on the selected planes -/

/-- The four selections, in order (R170). -/
theorem State.selectedPlanes_cases (s : State) : s.selectedPlanes = [] ∨
    s.selectedPlanes = [.one] ∨ s.selectedPlanes = [.two] ∨ s.selectedPlanes = [.one, .two] := by
  unfold State.selectedPlanes; cases s.activeDrawPlane <;> simp

/-- `onSelected` writes the planes and nothing else. -/
theorem State.onSelected_eq (s : State) (f : Plane → Plane) :
    s.onSelected f = { s with
      plane1 := if PlaneId.one ∈ s.selectedPlanes then f s.plane1 else s.plane1
      plane2 := if PlaneId.two ∈ s.selectedPlanes then f s.plane2 else s.plane2 } := by
  unfold State.onSelected
  rcases s.selectedPlanes_cases with h | h | h | h <;> rw [h] <;> rfl

theorem State.onSelected_plane (s : State) (f : Plane → Plane) (k : PlaneId) :
    (s.onSelected f).plane k = if k ∈ s.selectedPlanes then f (s.plane k) else s.plane k := by
  rw [State.onSelected_eq]; cases k <;> rfl

/-- The plane that DXYN gives plane `k`: the image at its place in the selection, if it has one. -/
def drawnPlane (e : DrawEnv) (s : State) (k : PlaneId) : Plane :=
  if k ∈ s.selectedPlanes then (drawImage e (s.selectedPlanes.idxOf k) (s.plane k)).1
  else s.plane k

/-- `drawPlanes` writes the planes and nothing else. -/
theorem drawPlanes_eq (e : DrawEnv) (s : State) :
    (drawPlanes e s).1 = { s with plane1 := drawnPlane e s .one, plane2 := drawnPlane e s .two } := by
  unfold drawPlanes drawnPlane
  rcases s.selectedPlanes_cases with h | h | h | h <;> rw [h] <;> rfl

theorem drawPlanes_plane (e : DrawEnv) (s : State) (k : PlaneId) :
    (drawPlanes e s).1.plane k = drawnPlane e s k := by
  rw [drawPlanes_eq]; cases k <;> rfl

/-- How many rows collided: the sum over the selected planes. -/
theorem drawPlanes_count (e : DrawEnv) (s : State) :
    (drawPlanes e s).2 =
      (s.selectedPlanes.zipIdx.map fun kj => (drawImage e kj.2 (s.plane kj.1)).2).sum := by
  unfold drawPlanes
  rcases s.selectedPlanes_cases with h | h | h | h <;> rw [h] <;>
    simp [State.plane, State.setPlane]

/-- A selected plane's image number is its place in the selection. -/
theorem State.idxOf_of_mem_zipIdx {s : State} {k : PlaneId} {j : Nat}
    (h : (k, j) ∈ s.selectedPlanes.zipIdx) :
    k ∈ s.selectedPlanes ∧ s.selectedPlanes.idxOf k = j := by
  rcases s.selectedPlanes_cases with hs | hs | hs | hs <;> rw [hs] at h ⊢ <;> simp at h
  · obtain ⟨rfl, rfl⟩ := h; decide
  · obtain ⟨rfl, rfl⟩ := h; decide
  · rcases h with ⟨rfl, rfl⟩ | ⟨rfl, rfl⟩ <;> decide

theorem State.mem_zipIdx_of_mem {s : State} {k : PlaneId} (h : k ∈ s.selectedPlanes) :
    (k, s.selectedPlanes.idxOf k) ∈ s.selectedPlanes.zipIdx := by
  rcases s.selectedPlanes_cases with hs | hs | hs | hs <;> rw [hs] at h ⊢ <;> revert h <;>
    cases k <;> decide

theorem Frame.drawPlanes {w : Effects} {s t : State} (h : Frame w s t) (e : DrawEnv)
    (hk : ∀ k ∈ t.selectedPlanes, w.planes k) : Frame w s (drawPlanes e t).1 := by
  rw [drawPlanes_eq]
  exact { h with
    planes := fun k hn => by
      have hm : k ∉ t.selectedPlanes := fun hm => hn (hk k hm)
      have := h.planes k hn
      cases k
      · exact (if_neg hm).trans this
      · exact (if_neg hm).trans this }

/-! ## The invariant -/

/-- The invariant reads six fields. -/
theorem State.Inv.of_eq {s t : State} (h : s.Inv) (hc : t.config = s.config)
    (hm : t.memory = s.memory) (hp : ∀ k, t.plane k = s.plane k)
    (ha : t.activeDrawPlane = s.activeDrawPlane) (hh : t.highResMode = s.highResMode)
    (hi : t.loadedImage = s.loadedImage) : t.Inv where
  memory := by simpa only [State.memSize, hc, hm] using h.memory
  planes := fun k => by simpa only [hc, hp] using h.planes k
  plane2 := fun hv => by have := hp .two; exact this.trans (h.plane2 (hc ▸ hv))
  drawPlane := fun hv => ha.trans (h.drawPlane (hc ▸ hv))
  highRes := fun hv => hh.trans (h.highRes (hc ▸ hv))
  image := by simpa only [State.memSize, hc, hi] using h.image

theorem State.Inv.fetched {s : State} (h : s.Inv) : s.fetched.Inv :=
  h.of_eq rfl rfl (fun k => by cases k <;> rfl) rfl rfl rfl

theorem State.Inv.recorded {s : State} (h : s.Inv) (f : Fault) : (s.recorded f).Inv :=
  h.of_eq rfl rfl (fun k => by cases k <;> rfl) rfl rfl rfl

/-- A handler that keeps the invariant gives an instruction that does. -/
theorem State.Inv.execute {s t : State} {f : State → Except Fault State} (h : s.Inv)
    (hf : ∀ u, f s.fetched = .ok u → u.Inv) (ht : s.execute f = .next t) : t.Inv := by
  rcases State.execute_eq_next.mp ht with h1 | ⟨e, -, rfl⟩
  · exact hf t h1
  · exact h.recorded e

theorem State.Inv.writeV {s : State} (h : s.Inv) (x : Reg) (b : Byte) : (s.writeV x b).Inv :=
  h.of_eq rfl rfl (fun k => by cases k <;> rfl) rfl rfl rfl

theorem State.Inv.writeResultFlag {s : State} (h : s.Inv) (x : Reg) (b f : Byte) :
    (s.writeResultFlag x b f).Inv := (h.writeV x b).writeV VF f

theorem State.Inv.writeLogic {s : State} (h : s.Inv) (x : Reg) (b : Byte) :
    (s.writeLogic x b).Inv := by
  unfold State.writeLogic; split
  · exact h.writeResultFlag x b 0
  · exact h.writeV x b

theorem State.Inv.writeRegs {s : State} (h : s.Inv) (xs : List Reg) (bs : List Byte) :
    (s.writeRegs xs bs).Inv := by
  rw [State.writeRegs_eq]
  exact h.of_eq rfl rfl (fun k => by cases k <;> rfl) rfl rfl rfl

theorem State.Inv.skipIf {s : State} (h : s.Inv) (c : Bool) : (s.skipIf c).Inv := by
  unfold State.skipIf; split
  · exact h.of_eq rfl rfl (fun k => by cases k <;> rfl) rfl rfl rfl
  · exact h

theorem State.Inv.postIncrement {s : State} (h : s.Inv) (x : Reg) : (s.postIncrement x).Inv := by
  unfold State.postIncrement; split
  · exact h.of_eq rfl rfl (fun k => by cases k <;> rfl) rfl rfl rfl
  · exact h

theorem State.Inv.push {s t : State} (h : s.Inv) {a : Word} (ht : s.push a = .ok t) : t.Inv := by
  unfold State.push at ht
  split at ht
  · cases ht; exact h.of_eq rfl rfl (fun k => by cases k <;> rfl) rfl rfl rfl
  · split at ht
    · cases ht; exact h.of_eq rfl rfl (fun k => by cases k <;> rfl) rfl rfl rfl
    · cases ht

theorem State.Inv.popPc {s t : State} (h : s.Inv) (ht : s.popPc = .ok t) : t.Inv := by
  unfold State.popPc at ht
  split at ht
  · cases ht
  · cases ht; exact h.of_eq rfl rfl (fun k => by cases k <;> rfl) rfl rfl rfl

/-- A block write that succeeds lies in memory, and writes memory only (R63). -/
theorem State.writeBytes_eq_ok {s t : State} {a : Nat} {bs : List Byte}
    (h : s.writeBytes a bs = .ok t) : (bs = [] ∨ a + bs.length ≤ s.memSize) ∧
      t = { s with memory := s.memory.writeBytes s.config.resetByte a bs } := by
  by_cases hp : bs = []
  · subst hp; cases h; exact ⟨.inl rfl, rfl⟩
  · by_cases hl : a + bs.length ≤ s.memSize
    · rw [State.writeBytes_ok hl] at h
      cases h; exact ⟨.inr hl, rfl⟩
    · rw [State.writeBytes_error (List.length_pos_iff.mpr hp) (by omega)] at h
      cases h

theorem State.Inv.writeBytes {s t : State} (h : s.Inv) {a : Nat} {bs : List Byte}
    (ht : s.writeBytes a bs = .ok t) : t.Inv := by
  obtain ⟨hb, rfl⟩ := State.writeBytes_eq_ok ht
  refine { h with memory := ?_, planes := h.planes }
  rcases hb with rfl | hl
  · exact h.memory
  · exact Memory.wf_writeBytes h.memory hl

/-- Operations that keep a buffer's form keep the invariant, where they also leave an empty plane 2
empty. -/
theorem State.Inv.setPlanes {s : State} (h : s.Inv) {p q : Plane}
    (hp : p.wf s.config.variant.bufSize = true) (hq : q.wf s.config.variant.bufSize = true)
    (h2 : s.config.variant.hasPlane2 = false → q = []) :
    State.Inv { s with plane1 := p, plane2 := q } :=
  { h with
    memory := h.memory
    planes := fun k => by cases k; exacts [hp, hq]
    plane2 := h2 }

theorem State.Inv.not_two_mem {s : State} (h : s.Inv) (hv : s.config.variant.hasPlane2 = false) :
    PlaneId.two ∉ s.selectedPlanes := by
  simp [State.selectedPlanes, h.drawPlane hv]

theorem State.Inv.onSelected {s : State} (h : s.Inv) {f : Plane → Plane}
    (hf : ∀ p : Plane, p.wf s.config.variant.bufSize = true →
      (f p).wf s.config.variant.bufSize = true) : (s.onSelected f).Inv := by
  rw [State.onSelected_eq]
  refine h.setPlanes ?_ ?_ fun hv => (if_neg (h.not_two_mem hv)).trans (h.plane2 hv)
  · split; exacts [hf _ (h.planes .one), h.planes .one]
  · split; exacts [hf _ (h.planes .two), h.planes .two]

/-! ## Drawing -/

/-- The logical pixels tile the buffer, and the logical screen is large enough for a sprite
(R43). -/
theorem geometry_tiles (v : Variant) (hr : Bool) :
    Tiles v.bufW (v.geometry hr) ∧ (v.geometry hr).height * (v.geometry hr).scale = v.bufH ∧
      16 ≤ (v.geometry hr).width ∧ 16 ≤ (v.geometry hr).height := by
  cases v <;> cases hr <;> exact ⟨⟨by decide, rfl⟩, rfl, by decide, by decide⟩

theorem spriteShape_le (n : Nibble) : (spriteShape n).cols ≤ 16 ∧ (spriteShape n).rows ≤ 16 := by
  unfold spriteShape
  have := n.isLt
  split
  · exact ⟨le_rfl, le_rfl⟩
  · exact ⟨by simp only; omega, by simp only; omega⟩

theorem State.drawEnv_ok (s : State) (x y : Reg) (n : Nibble) (bytes : List Byte) :
    (s.drawEnv x y n bytes).Ok s.config.variant.bufH := by
  obtain ⟨h1, h2, h3, h4⟩ := geometry_tiles s.config.variant s.highResMode
  have hs := spriteShape_le n
  exact {
    tiles := h1
    height := h2
    x0 := Nat.mod_lt _ (by simp only [State.geometry]; omega)
    y0 := Nat.mod_lt _ (by simp only [State.geometry]; omega)
    cols := hs.1.trans h3
    rows := hs.2.trans h4 }

theorem State.Inv.drawPlanes {s : State} (h : s.Inv) {e : DrawEnv}
    (he : e.Ok s.config.variant.bufH) (hw : e.bufW = s.config.variant.bufW) :
    (drawPlanes e s).1.Inv := by
  have hsz : e.bufW * s.config.variant.bufH = s.config.variant.bufSize := by rw [hw]; rfl
  have key : ∀ k, (drawnPlane e s k).wf s.config.variant.bufSize = true := fun k => by
    unfold drawnPlane; split
    · exact hsz ▸ (drawImage_spec he _ _ (hsz ▸ h.planes k)).1
    · exact h.planes k
  rw [drawPlanes_eq]
  exact h.setPlanes (key .one) (key .two) fun hv =>
    (if_neg (h.not_two_mem hv)).trans (h.plane2 hv)

/-! ## Construction, reset and load -/

theorem State.new_inv (c : Config) : (State.new c).Inv where
  memory := rfl
  planes := fun k => by cases k <;> rfl
  plane2 := fun _ => rfl
  drawPlane := fun _ => rfl
  highRes := fun _ => rfl
  image := Nat.zero_le _

theorem loadBase_le (v : Variant) : loadBase ≤ v.memSize := by cases v <;> decide

theorem State.resetEvent_inv (s : State) : s.resetEvent.Inv :=
  (State.new_inv s.config).of_eq rfl rfl (fun k => by cases k <;> rfl) rfl rfl rfl

theorem State.Inv.exitReset {s : State} (h : s.Inv) : s.exitReset.Inv := by
  refine { s.resetEvent_inv with memory := ?_, planes := s.resetEvent_inv.planes, image := h.image }
  have := h.image
  have hb := loadBase_le s.config.variant
  have hl : loadBase + s.loadedImage.length ≤ s.resetEvent.memSize := by
    change _ ≤ s.config.variant.memSize
    simp only [State.memSize] at this; omega
  exact Memory.wf_writeBytes s.resetEvent_inv.memory hl

theorem State.Inv.load {s t : State} (h : s.Inv) {bs : List Byte} (ht : s.load bs = .ok t) :
    t.Inv := by
  unfold State.load at ht
  split at ht
  · cases ht
  · cases ht
    have hb := loadBase_le s.config.variant
    refine { h with memory := ?_, planes := h.planes, image := by simp only [State.memSize] at *; omega }
    exact Memory.wf_writeBytes h.memory (by simp only [State.memSize] at *; omega)

end Sys2Proof.Machine
end

