-- ==== Sys2Proof/Laws/Effects.lean ====
section
/-! SUPPORT. What each instruction can do, said once: either it records a fault and changes nothing
else (60_exceptions.md R224), or it keeps a frame (Safety.lean). EXIT stands apart (40_flow.md R115). -/

namespace Sys2Proof.Machine

/-- Every instruction is a handler run in the frame of R104. -/
theorem exec_handler (i : Instr) : ∃ f, ∀ s, exec i s = State.execute s f := by
  cases i <;> simp only [exec] <;> exact ⟨_, fun s => rfl⟩

theorem exec_next (i : Instr) (s : State) : ∃ t, exec i s = .next t := by
  obtain ⟨f, hf⟩ := exec_handler i
  rw [hf]; exact State.execute_next s f

/-- The parts of the state an instruction may write, in a machine with the quirks `q` and the
selected planes `ps`. -/
def effectsOf (q : Quirks) (ps : List PlaneId) (i : Instr) : Effects :=
  let regs := fun r => mayWriteReg q.vfReset r i
  match i with
  | .nop | .jp _ | .jpV0Nnn _ | .seVxNn _ _ | .sneVxNn _ _ | .seVxVy _ _ | .sneVxVy _ _
  | .skp _ | .sknp _ | .exit => {}
  | .ret | .call _ => { stack := True }
  | .ldVxNn _ _ | .addVxNn _ _ | .ldVxVy _ _ | .orVxVy _ _ | .andVxVy _ _ | .xorVxVy _ _
  | .addVxVy _ _ | .subVxVy _ _ | .shrVxVy _ _ | .subnVxVy _ _ | .shlVxVy _ _ | .ldVxDt _
  | .ldVxK _ | .loadVxVy _ _ | .ldVxR _ => { regs := regs }
  | .rndVxNn _ _ => { regs := regs, draws := True }
  | .ldINnn _ | .addIVx _ | .ldFVx _ | .ldHfVx _ | .ldILong _ => { index := True }
  | .ldBVx _ | .saveVxVy _ _ => { mem := fun _ => True }
  | .ldMemVx _ => { mem := fun _ => True, index := q.memoryIncrement = true }
  | .ldVxMem _ => { regs := regs, index := q.memoryIncrement = true }
  | .ldRVx _ => { rpl := True }
  | .cls | .scd _ | .scu _ | .scr | .scl => { planes := (· ∈ ps) }
  | .drw _ _ _ => { regs := regs, planes := (· ∈ ps) }
  | .low | .high => { highRes := True }
  | .plane _ => { drawPlane := True }
  | .ldDtVx _ => { dt := True }
  | .ldStVx _ => { st := True }
  | .audio => { pattern := True }
  | .pitchVx _ => { pitch := True }

/-- A handler that keeps a frame gives an instruction that keeps it or records a fault. -/
theorem Frame.execute {w : Effects} {s t : State} {f : State → Except Fault State}
    (hf : ∀ u, f s.fetched = .ok u → Frame w s u) (h : s.execute f = .next t) :
    Frame w s t ∨ ∃ e, t = s.recorded e := by
  rcases State.execute_eq_next.mp h with h1 | ⟨e, -, h2⟩
  · exact .inl (hf t h1)
  · exact .inr ⟨e, h2⟩

theorem exec_frame {i : Instr} {s t : State} (h : exec i s = .next t) (hx : i ≠ .exit) :
    Frame (effectsOf s.config.quirks s.selectedPlanes i) s t ∨ ∃ e, t = s.recorded e := by
  have h0 : ∀ w, Frame w s s.fetched := fun w => Frame.fetched w s
  cases i
  all_goals simp only [exec] at h
  case exit => exact absurd rfl hx
  case nop => exact Frame.execute (fun u hu => by cases hu; exact h0 _) h
  case jp nnn => exact Frame.execute (fun u hu => by cases hu; exact (h0 _).setPc _) h
  case jpV0Nnn nnn => exact Frame.execute (fun u hu => by cases hu; exact (h0 _).setPc _) h
  case seVxNn x nn => exact Frame.execute (fun u hu => by cases hu; exact (h0 _).skipIf _) h
  case sneVxNn x nn => exact Frame.execute (fun u hu => by cases hu; exact (h0 _).skipIf _) h
  case seVxVy x y => exact Frame.execute (fun u hu => by cases hu; exact (h0 _).skipIf _) h
  case sneVxVy x y => exact Frame.execute (fun u hu => by cases hu; exact (h0 _).skipIf _) h
  case skp x =>
    refine Frame.execute (fun u hu => ?_) h
    simp only [bind, Except.bind] at hu
    split at hu
    · cases hu
    · cases hu; exact (h0 _).skipIf _
  case sknp x =>
    refine Frame.execute (fun u hu => ?_) h
    simp only [bind, Except.bind] at hu
    split at hu
    · cases hu
    · cases hu; exact (h0 _).skipIf _
  case ret => exact Frame.execute (fun u hu => (h0 _).popPc trivial hu) h
  case call nnn =>
    refine Frame.execute (fun u hu => ?_) h
    simp only [bind, Except.bind] at hu
    split at hu
    · cases hu
    · rename_i v hv
      cases hu; exact ((h0 _).push trivial hv).setPc _
  case ldVxNn x nn => exact Frame.execute (fun u hu => by cases hu; exact (h0 _).writeV rfl _) h
  case addVxNn x nn => exact Frame.execute (fun u hu => by cases hu; exact (h0 _).writeV rfl _) h
  case ldVxVy x y => exact Frame.execute (fun u hu => by cases hu; exact (h0 _).writeV rfl _) h
  case ldVxDt x => exact Frame.execute (fun u hu => by cases hu; exact (h0 _).writeV rfl _) h
  case ldVxK x =>
    refine Frame.execute (fun u hu => ?_) h
    split at hu
    · cases hu; exact (h0 _).writeV rfl _
    · cases hu; exact (h0 _).rewindPc
  case orVxVy x y =>
    exact Frame.execute (fun u hu => by
      cases hu; exact (h0 _).writeLogic (Or.inl rfl) (fun hq => Or.inr ⟨hq, rfl⟩) _) h
  case andVxVy x y =>
    exact Frame.execute (fun u hu => by
      cases hu; exact (h0 _).writeLogic (Or.inl rfl) (fun hq => Or.inr ⟨hq, rfl⟩) _) h
  case xorVxVy x y =>
    exact Frame.execute (fun u hu => by
      cases hu; exact (h0 _).writeLogic (Or.inl rfl) (fun hq => Or.inr ⟨hq, rfl⟩) _) h
  case addVxVy x y =>
    exact Frame.execute (fun u hu => by
      cases hu; exact (h0 _).writeResultFlag (Or.inl rfl) (Or.inr rfl) _ _) h
  case subVxVy x y =>
    exact Frame.execute (fun u hu => by
      cases hu; exact (h0 _).writeResultFlag (Or.inl rfl) (Or.inr rfl) _ _) h
  case shrVxVy x y =>
    exact Frame.execute (fun u hu => by
      cases hu; exact (h0 _).writeResultFlag (Or.inl rfl) (Or.inr rfl) _ _) h
  case subnVxVy x y =>
    exact Frame.execute (fun u hu => by
      cases hu; exact (h0 _).writeResultFlag (Or.inl rfl) (Or.inr rfl) _ _) h
  case shlVxVy x y =>
    exact Frame.execute (fun u hu => by
      cases hu; exact (h0 _).writeResultFlag (Or.inl rfl) (Or.inr rfl) _ _) h
  case rndVxNn x nn =>
    exact Frame.execute (fun u hu => by
      cases hu; exact ((h0 _).draw trivial).writeV rfl _) h
  case ldINnn nnn => exact Frame.execute (fun u hu => by cases hu; exact (h0 _).setIndex trivial _) h
  case addIVx x => exact Frame.execute (fun u hu => by cases hu; exact (h0 _).setIndex trivial _) h
  case ldFVx x => exact Frame.execute (fun u hu => by cases hu; exact (h0 _).setIndex trivial _) h
  case ldHfVx x => exact Frame.execute (fun u hu => by cases hu; exact (h0 _).setIndex trivial _) h
  case ldILong m =>
    exact Frame.execute (fun u hu => by
      cases hu; exact ((h0 _).setIndex trivial m).advancePc _) h
  case ldBVx x =>
    refine Frame.execute (fun u hu => ?_) h
    obtain ⟨-, rfl⟩ := State.writeBytes_eq_ok hu
    exact (h0 _).writeBytes (fun _ _ _ => trivial)
  case saveVxVy x y =>
    refine Frame.execute (fun u hu => ?_) h
    obtain ⟨-, rfl⟩ := State.writeBytes_eq_ok hu
    exact (h0 _).writeBytes (fun _ _ _ => trivial)
  case ldMemVx x =>
    refine Frame.execute (fun u hu => ?_) h
    simp only [bind, Except.bind] at hu
    split at hu
    · cases hu
    · rename_i v hv
      obtain ⟨-, rfl⟩ := State.writeBytes_eq_ok hv
      cases hu
      exact ((h0 _).writeBytes (fun _ _ _ => trivial)).postIncrement x id
  case ldVxMem x =>
    refine Frame.execute (fun u hu => ?_) h
    simp only [bind, Except.bind] at hu
    split at hu
    · cases hu
    · cases hu
      refine Frame.postIncrement ((h0 _).writeRegs (fun r hr => (mem_regsUpTo x r).mp hr) _) x ?_
      rw [State.writeRegs_eq]; exact id
  case loadVxVy x y =>
    refine Frame.execute (fun u hu => ?_) h
    simp only [bind, Except.bind] at hu
    split at hu
    · cases hu
    · cases hu
      exact (h0 _).writeRegs (fun r hr => (mem_regRange x y r).mp hr) _
  case ldRVx x => exact Frame.execute (fun u hu => by cases hu; exact (h0 _).setRpl trivial _) h
  case ldVxR x =>
    exact Frame.execute (fun u hu => by
      cases hu; exact (h0 _).writeRegs (fun r hr => (mem_regsUpTo x r).mp hr) _) h
  case cls => exact Frame.execute (fun u hu => by cases hu; exact (h0 _).onSelected (fun _ => id) _) h
  case scd n => exact Frame.execute (fun u hu => by cases hu; exact (h0 _).onSelected (fun _ => id) _) h
  case scu n => exact Frame.execute (fun u hu => by cases hu; exact (h0 _).onSelected (fun _ => id) _) h
  case scr => exact Frame.execute (fun u hu => by cases hu; exact (h0 _).onSelected (fun _ => id) _) h
  case scl => exact Frame.execute (fun u hu => by cases hu; exact (h0 _).onSelected (fun _ => id) _) h
  case drw x y n =>
    refine Frame.execute (fun u hu => ?_) h
    simp only [bind, Except.bind] at hu
    split at hu
    · cases hu; exact (h0 _).rewindPc
    · split at hu
      · cases hu
      · cases hu; exact ((h0 _).drawPlanes _ (fun _ => id)).writeV rfl _
  case low => exact Frame.execute (fun u hu => by cases hu; exact (h0 _).setHighRes trivial _) h
  case high => exact Frame.execute (fun u hu => by cases hu; exact (h0 _).setHighRes trivial _) h
  case plane x => exact Frame.execute (fun u hu => by cases hu; exact (h0 _).setDrawPlane trivial _) h
  case ldDtVx x => exact Frame.execute (fun u hu => by cases hu; exact (h0 _).setDt trivial _) h
  case ldStVx x => exact Frame.execute (fun u hu => by cases hu; exact (h0 _).setSt trivial _) h
  case audio =>
    refine Frame.execute (fun u hu => ?_) h
    simp only [bind, Except.bind] at hu
    split at hu
    · cases hu
    · cases hu; exact (h0 _).setPattern trivial _
  case pitchVx x => exact Frame.execute (fun u hu => by cases hu; exact (h0 _).setPitch trivial _) h

end Sys2Proof.Machine
end

