-- ==== Sys2Proof/Laws/Fetch.lean ====
section
/-! SUPPORT. What the fetch unit and a `step` event answer (40_flow.md R100, R101; 42_index_memory.md
R157; 60_exceptions.md R221, R226, R227). -/

namespace Sys2Proof.Machine

/-- The word at pc, when it lies in memory. -/
def State.opAt (s : State) : Word := wordOfBytes (s.byteAt s.pc.toNat) (s.byteAt (s.pc.toNat + 1))

/-- The word after it, at wrap16(pc + 2). -/
def State.operandAt (s : State) : Word :=
  wordOfBytes (s.byteAt (s.pc + 2).toNat) (s.byteAt ((s.pc + 2).toNat + 1))

theorem State.fetchWord_ok {s : State} (h : s.pc.toNat + 1 < s.memSize) :
    s.fetchWord = .ok s.opAt := State.memRead2_ok h

theorem State.fetchWord_error {s : State} (h : s.memSize ≤ s.pc.toNat + 1) :
    s.fetchWord = .error (.outOfBounds .memory (max s.pc.toNat s.memSize)) := State.memRead2_error h

theorem instrWords_of_ne {v : Variant} {op : Word} (h : op ≠ longWord) : instrWords v op = 1 :=
  if_neg fun hh => h hh.1

/-- A word that decodes is fetched and decoded as it stands (R84, R101). -/
theorem State.fetchInstr_ok {s : State} {i : Instr} (hp : s.pc.toNat + 1 < s.memSize)
    (hm : s.opAt = longWord → (s.pc + 2).toNat + 1 < s.memSize)
    (hd : decodeWord s.config.variant s.opAt s.operandAt = some i) : s.fetchInstr = .ok i := by
  simp only [State.fetchInstr, State.fetchWord_ok hp, bind, Except.bind, State.fetchOperand]
  by_cases hl : s.opAt = longWord
  · have hv : s.config.variant = .xochip := by
      rw [hl, decodeWord_longWord] at hd
      by_contra hn
      rw [if_neg hn] at hd
      cases hd
    rw [if_pos (by rw [instrWords, if_pos ⟨hl, hv⟩]), State.memRead2_ok (hm hl)]
    simp only [State.decoded]
    rw [show wordOfBytes _ _ = s.operandAt from rfl, hd]
  · rw [if_neg (by rw [instrWords_of_ne hl]; decide)]
    simp only [State.decoded]
    rw [decodeWord_congr hl _ 0 s.operandAt, hd]

theorem State.fetchInstr_fetch_error {s : State} (h : s.memSize ≤ s.pc.toNat + 1) :
    s.fetchInstr = .error (.outOfBounds .memory (max s.pc.toNat s.memSize)) := by
  simp only [State.fetchInstr, State.fetchWord_error h, bind, Except.bind]

/-- The operand word of F000 is read only where F000 is an instruction (R157). -/
theorem State.fetchInstr_operand_error {s : State} (hp : s.pc.toNat + 1 < s.memSize)
    (hl : s.opAt = longWord) (hv : s.config.variant = .xochip)
    (h : s.memSize ≤ (s.pc + 2).toNat + 1) :
    s.fetchInstr = .error (.outOfBounds .memory (max (s.pc + 2).toNat s.memSize)) := by
  simp only [State.fetchInstr, State.fetchWord_ok hp, bind, Except.bind, State.fetchOperand]
  rw [if_pos (by rw [instrWords, if_pos ⟨hl, hv⟩]), State.memRead2_error h]

theorem State.fetchInstr_decode_error {s : State} (hp : s.pc.toNat + 1 < s.memSize)
    (hd : ∀ m, decodeWord s.config.variant s.opAt m = none) :
    s.fetchInstr = .error (.decodeFailure s.opAt) := by
  have hn : ¬instrWords s.config.variant s.opAt = 2 := by
    intro h
    have hh : s.opAt = longWord ∧ s.config.variant = .xochip := by
      by_contra hc; rw [instrWords, if_neg hc] at h; cases h
    have := hd 0
    rw [hh.1, hh.2] at this
    cases this
  simp only [State.fetchInstr, State.fetchWord_ok hp, bind, Except.bind, State.fetchOperand]
  rw [if_neg hn]
  simp only [State.decoded, hd]

/-- What the fetch gives is an instruction of the machine's variant (R86, R221). -/
theorem State.variants_of_fetchInstr {s : State} {i : Instr} (h : s.fetchInstr = .ok i) :
    i.variants.mem s.config.variant = true := by
  simp only [State.fetchInstr, bind, Except.bind] at h
  split at h
  · cases h
  · split at h
    · cases h
    · simp only [State.decoded] at h
      split at h
      · rename_i hd; cases h; exact (decodeWord_eq_some.mp hd).2
      · cases h

theorem State.stepInstr_ok {s : State} {i : Instr} (hf : s.fault = none)
    (hi : s.fetchInstr = .ok i) : s.stepInstr = exec i s := by
  simp only [State.stepInstr, State.halted, hf, hi]; rfl

theorem State.stepInstr_error {s : State} {f : Fault} (hf : s.fault = none)
    (hi : s.fetchInstr = .error f) : s.stepInstr = .next (s.recorded f) := by
  simp only [State.stepInstr, State.halted, hf, hi]; rfl

theorem State.stepInstr_halted {s : State} {r : FaultRecord} (hf : s.fault = some r) :
    s.stepInstr = .next s := by
  simp only [State.stepInstr, State.halted, hf]; rfl

/-- The three ends of a `step` event. -/
theorem State.stepInstr_cases {s t : State} (h : s.stepInstr = .next t) :
    (t = s ∧ s.fault.isSome = true) ∨
    (∃ i, s.fetchInstr = .ok i ∧ s.fault = none ∧ exec i s = .next t) ∨
    (∃ f, s.fetchInstr = .error f ∧ s.fault = none ∧ t = s.recorded f) := by
  cases hf : s.fault with
  | some r => rw [State.stepInstr_halted hf] at h; cases h; exact .inl ⟨rfl, rfl⟩
  | none =>
    cases hi : s.fetchInstr with
    | ok i => rw [State.stepInstr_ok hf hi] at h; exact .inr (.inl ⟨i, rfl, rfl, h⟩)
    | error f => rw [State.stepInstr_error hf hi] at h; cases h; exact .inr (.inr ⟨f, rfl, rfl, rfl⟩)

theorem step_nil {s : State} (h : s.schedule = []) : step s = s.stepInstr := by
  simp only [step, State.nextEvent, h]

theorem step_cons {s : State} {e : HostEvent} {es : List HostEvent} (h : s.schedule = e :: es) :
    step s = State.event { s with schedule := es } e := by
  simp only [step, State.nextEvent, h]

end Sys2Proof.Machine
end

