-- ==== Sys2Proof/Laws/Events.lean ====
section
/-! SUPPORT. What the host's events other than `step` do (44_keys_timers_audio.md R206;
60_exceptions.md R229, R236; 70_reset_and_hazards.md R251, R253). -/

namespace Sys2Proof.Machine

/-- A timer goes down by one and stops at 0 (R206). -/
theorem toNat_tickByte (b : Byte) : (tickByte b).toNat = b.toNat - 1 := by
  unfold tickByte
  split
  · subst_vars; rfl
  · bv_omega

/-- An image that fits is written from LOAD_BASE on and recorded (R253). -/
theorem State.load_ok {s : State} {bs : List Byte} (h : bs.length ≤ s.memSize - loadBase) :
    s.load bs = .ok { s with
      memory := s.memory.writeBytes s.config.resetByte loadBase bs, loadedImage := bs } :=
  if_neg (by omega)

/-- An image that does not fit is refused (R229). -/
theorem State.load_error {s : State} {bs : List Byte} (h : s.memSize - loadBase < bs.length) :
    s.load bs = .error (.outOfBounds .memory s.memSize) := if_pos h

theorem State.loadEvent_ok {s : State} {bs : List Byte} (h : bs.length ≤ s.memSize - loadBase) :
    s.loadEvent bs = { s with
      memory := s.memory.writeBytes s.config.resetByte loadBase bs, loadedImage := bs } := by
  rw [State.loadEvent, State.load_ok h]

theorem State.loadEvent_refused {s : State} {bs : List Byte}
    (h : s.memSize - loadBase < bs.length) : s.loadEvent bs = s := by
  rw [State.loadEvent, State.load_error h]

theorem State.loadEvent_cases (s : State) (bs : List Byte) :
    s.loadEvent bs = s ∨ (bs.length ≤ s.memSize - loadBase ∧ s.loadEvent bs = { s with
      memory := s.memory.writeBytes s.config.resetByte loadBase bs, loadedImage := bs }) := by
  rcases Nat.lt_or_ge (s.memSize - loadBase) bs.length with h | h
  · exact .inl (State.loadEvent_refused h)
  · exact .inr ⟨h, State.loadEvent_ok h⟩

/-- `set_key` writes the keys and nothing else (R236). -/
theorem State.setKey_eq (s : State) (n : Nat) (b : Bool) :
    s.setKey n b = { s with keys := (s.setKey n b).keys } := by
  unfold State.setKey; split <;> rfl

theorem State.keys_setKey (s : State) (n : Nat) (b : Bool) (k : Fin 16) :
    (s.setKey n b).keys.get k = if k.val = n then b else s.keys.get k := by
  unfold State.setKey
  split
  · by_cases h : k.val = n
    · subst h; simp [Vector.get_eq_getElem]
    · simp [Vector.get_eq_getElem, Vector.getElem_set_ne, h, Ne.symm h]
  · rw [if_neg (by omega)]

theorem State.Inv.loadEvent {s : State} (h : s.Inv) (bs : List Byte) : (s.loadEvent bs).Inv := by
  unfold State.loadEvent
  split
  · exact h.load ‹_›
  · exact h

theorem State.Inv.setKey {s : State} (h : s.Inv) (n : Nat) (b : Bool) : (s.setKey n b).Inv := by
  rw [State.setKey_eq]
  exact h.of_eq rfl rfl (fun k => by cases k <;> rfl) rfl rfl rfl

theorem State.Inv.tickTimers {s : State} (h : s.Inv) : s.tickTimers.Inv :=
  h.of_eq rfl rfl (fun k => by cases k <;> rfl) rfl rfl rfl

/-- The host's inputs are no part of the invariant. -/
theorem State.Inv.inputs {s : State} (h : s.Inv) (es : List HostEvent) (kf : Bool) :
    State.Inv { s with schedule := es, keyFrameIn := kf } :=
  h.of_eq rfl rfl (fun k => by cases k <;> rfl) rfl rfl rfl

end Sys2Proof.Machine
end

