-- ==== Sys2Proof/Laws/Exec.lean ====
section
/-! SUPPORT. One equation per instruction: the state its execution ends in, or the fault it records,
over the shared operations, so that no proof unfolds a meaning (rules as in the meanings). -/

namespace Sys2Proof.Machine

/-! ## The state after the fetch -/

@[simp] theorem State.fetched_plane (s : State) (k : PlaneId) : s.fetched.plane k = s.plane k := by
  cases k <;> rfl

@[simp] theorem State.fetched_selectedPlanes (s : State) :
    s.fetched.selectedPlanes = s.selectedPlanes := rfl

@[simp] theorem State.fetched_byteAt (s : State) (a : Nat) : s.fetched.byteAt a = s.byteAt a := rfl

@[simp] theorem State.fetched_readV (s : State) (r : Reg) : s.fetched.readV r = s.readV r := rfl

/-- A pixel of a selected plane after an operation on the selected planes (R170). -/
theorem State.pixel_fetched_onSelected {s : State} {k : PlaneId} (hk : k ∈ s.selectedPlanes)
    (f : Plane → Plane) {x y : Nat} (hx : x < s.config.variant.bufW)
    (hy : y < s.config.variant.bufH) :
    (s.fetched.onSelected f).pixel k x y =
      (f (s.plane k)).lit (y * s.config.variant.bufW + x) := by
  have hc : (s.fetched.onSelected f).config = s.config := by rw [State.onSelected_eq]; rfl
  have hk' : k ∈ s.fetched.selectedPlanes := hk
  rw [State.pixel, State.onSelected_plane, if_pos hk', hc, State.fetched_plane]
  simp only [hx, hy, decide_true, Bool.true_and]

theorem State.onSelected_pc (s : State) (f : Plane → Plane) : (s.onSelected f).pc = s.pc := by
  rw [State.onSelected_eq]

/-! ## Control flow (40_flow.md) -/

theorem exec_nop (s : State) : exec .nop s = .next s.fetched := rfl

theorem exec_jp (nnn : BitVec 12) (s : State) :
    exec (.jp nnn) s = .next (s.fetched.setPc (nnn.setWidth 16)) := rfl

theorem exec_jpV0Nnn (nnn : BitVec 12) (s : State) : exec (.jpV0Nnn nnn) s =
    .next (s.fetched.setPc (nnn.setWidth 16 + (s.readV (s.jumpReg nnn)).setWidth 16)) := rfl

theorem exec_call_ok {nnn : BitVec 12} {s t : State} (h : s.fetched.push (s.pc + 2) = .ok t) :
    exec (.call nnn) s = .next (t.setPc (nnn.setWidth 16)) := by
  simp only [exec, execCall]
  exact State.execute_ok (by simp only [State.fetched_pc, h]; rfl)

theorem exec_call_error {nnn : BitVec 12} {s : State} {f : Fault}
    (h : s.fetched.push (s.pc + 2) = .error f) : exec (.call nnn) s = .next (s.recorded f) := by
  simp only [exec, execCall]
  exact State.execute_error (by simp only [State.fetched_pc, h]; rfl)

theorem exec_ret_ok {s t : State} (h : s.fetched.popPc = .ok t) : exec .ret s = .next t :=
  State.execute_ok (f := fun t => t.popPc) h

theorem exec_ret_error {s : State} {f : Fault} (h : s.fetched.popPc = .error f) :
    exec .ret s = .next (s.recorded f) := State.execute_error (f := fun t => t.popPc) h

theorem exec_seVxNn (x : Reg) (nn : Byte) (s : State) :
    exec (.seVxNn x nn) s = .next (s.fetched.skipIf (s.readV x == nn)) := rfl

theorem exec_sneVxNn (x : Reg) (nn : Byte) (s : State) :
    exec (.sneVxNn x nn) s = .next (s.fetched.skipIf (s.readV x != nn)) := rfl

theorem exec_seVxVy (x y : Reg) (s : State) :
    exec (.seVxVy x y) s = .next (s.fetched.skipIf (s.readV x == s.readV y)) := rfl

theorem exec_sneVxVy (x y : Reg) (s : State) :
    exec (.sneVxVy x y) s = .next (s.fetched.skipIf (s.readV x != s.readV y)) := rfl

theorem exec_exit (s : State) : exec .exit s = .next s.fetched.exitReset := rfl

theorem keyIndex_ok {b : Byte} {k : Fin 16} (h : b.toNat = k.val) : keyIndex b = .ok k := by
  unfold keyIndex
  rw [dif_pos (h ▸ k.isLt)]
  exact congrArg _ (Fin.ext h)

theorem keyIndex_error {b : Byte} (h : 15 < b.toNat) :
    keyIndex b = .error (.outOfBounds .keys b.toNat) := dif_neg (by omega)

theorem exec_skp_ok {x : Reg} {s : State} {k : Fin 16} (h : (s.readV x).toNat = k.val) :
    exec (.skp x) s = .next (s.fetched.skipIf (s.keys.get k)) := by
  simp only [exec, execSkp]
  refine State.execute_ok ?_
  rw [show keyIndex (s.fetched.readV x) = .ok k from keyIndex_ok h]; rfl

theorem exec_sknp_ok {x : Reg} {s : State} {k : Fin 16} (h : (s.readV x).toNat = k.val) :
    exec (.sknp x) s = .next (s.fetched.skipIf (!s.keys.get k)) := by
  simp only [exec, execSknp]
  refine State.execute_ok ?_
  rw [show keyIndex (s.fetched.readV x) = .ok k from keyIndex_ok h]; rfl

theorem exec_skp_error {x : Reg} {s : State} (h : 15 < (s.readV x).toNat) :
    exec (.skp x) s = .next (s.recorded (.outOfBounds .keys (s.readV x).toNat)) := by
  simp only [exec, execSkp]
  refine State.execute_error ?_
  rw [show keyIndex (s.fetched.readV x) = _ from keyIndex_error h]; rfl

theorem exec_sknp_error {x : Reg} {s : State} (h : 15 < (s.readV x).toNat) :
    exec (.sknp x) s = .next (s.recorded (.outOfBounds .keys (s.readV x).toNat)) := by
  simp only [exec, execSknp]
  refine State.execute_error ?_
  rw [show keyIndex (s.fetched.readV x) = _ from keyIndex_error h]; rfl

/-- Where a skip leaves pc (R105). -/
theorem State.skipIf_fetched_pc (s : State) (c : Bool) :
    (s.fetched.skipIf c).pc = skipTarget s c := by
  cases c with
  | false => rfl
  | true =>
    change s.pc + 2 + (if s.lookahead (s.pc + 2) = true then 4 else 2) =
      if s.lookahead (s.pc + 2) = true then s.pc + 6 else s.pc + 4
    split <;> rw [BitVec.add_assoc] <;> rfl

/-! ## ALU (41_alu.md) -/

theorem exec_ldVxNn (x : Reg) (nn : Byte) (s : State) :
    exec (.ldVxNn x nn) s = .next (s.fetched.writeV x nn) := rfl

theorem exec_addVxNn (x : Reg) (nn : Byte) (s : State) :
    exec (.addVxNn x nn) s = .next (s.fetched.writeV x (s.readV x + nn)) := rfl

theorem exec_ldVxVy (x y : Reg) (s : State) :
    exec (.ldVxVy x y) s = .next (s.fetched.writeV x (s.readV y)) := rfl

theorem exec_orVxVy (x y : Reg) (s : State) :
    exec (.orVxVy x y) s = .next (s.fetched.writeLogic x (s.readV x ||| s.readV y)) := rfl

theorem exec_andVxVy (x y : Reg) (s : State) :
    exec (.andVxVy x y) s = .next (s.fetched.writeLogic x (s.readV x &&& s.readV y)) := rfl

theorem exec_xorVxVy (x y : Reg) (s : State) :
    exec (.xorVxVy x y) s = .next (s.fetched.writeLogic x (s.readV x ^^^ s.readV y)) := rfl

theorem exec_addVxVy (x y : Reg) (s : State) : exec (.addVxVy x y) s =
    .next (s.fetched.writeResultFlag x (s.readV x + s.readV y)
      (carryFlag (s.readV x) (s.readV y))) := rfl

theorem exec_subVxVy (x y : Reg) (s : State) : exec (.subVxVy x y) s =
    .next (s.fetched.writeResultFlag x (s.readV x - s.readV y)
      (notBorrowFlag (s.readV x) (s.readV y))) := rfl

theorem exec_subnVxVy (x y : Reg) (s : State) : exec (.subnVxVy x y) s =
    .next (s.fetched.writeResultFlag x (s.readV y - s.readV x)
      (notBorrowFlag (s.readV y) (s.readV x))) := rfl

theorem exec_shrVxVy (x y : Reg) (s : State) : exec (.shrVxVy x y) s =
    .next (s.fetched.writeResultFlag x (s.shiftSource x y >>> 1)
      (shrFlag (s.shiftSource x y))) := rfl

theorem exec_shlVxVy (x y : Reg) (s : State) : exec (.shlVxVy x y) s =
    .next (s.fetched.writeResultFlag x (s.shiftSource x y <<< 1)
      (shlFlag (s.shiftSource x y))) := rfl

theorem exec_rndVxNn (x : Reg) (nn : Byte) (s : State) : exec (.rndVxNn x nn) s =
    .next (s.fetched.draw.2.writeV x (Config.randomByte s.draws &&& nn)) := rfl

/-! ## Index, memory, RPL (42_index_memory.md) -/

theorem exec_ldINnn (nnn : BitVec 12) (s : State) :
    exec (.ldINnn nnn) s = .next { s.fetched with index := nnn.setWidth 16 } := rfl

theorem exec_addIVx (x : Reg) (s : State) :
    exec (.addIVx x) s = .next { s.fetched with index := s.index + (s.readV x).setWidth 16 } := rfl

theorem exec_ldFVx (x : Reg) (s : State) :
    exec (.ldFVx x) s = .next { s.fetched with index := smallGlyphAddr (s.readV x) } := rfl

theorem exec_ldHfVx (x : Reg) (s : State) :
    exec (.ldHfVx x) s = .next { s.fetched with index := bigGlyphAddr (s.readV x) } := rfl

theorem exec_ldILong (m : Word) (s : State) :
    exec (.ldILong m) s = .next (State.advancePc { s.fetched with index := m } 2) := rfl

/-- `s` after the fetch, with `bs` stored at I. -/
def State.stored (s : State) (bs : List Byte) : State :=
  { s.fetched with memory := s.memory.writeBytes s.config.resetByte s.index.toNat bs }

theorem State.fetched_writeBytes_ok {s : State} {bs : List Byte}
    (h : s.index.toNat + bs.length ≤ s.memSize) :
    s.fetched.writeBytes (s.fetched.dataAddr 0) bs = .ok (s.stored bs) :=
  State.writeBytes_ok (s := s.fetched) (a := s.index.toNat + 0) h

theorem State.fetched_writeBytes_error {s : State} {bs : List Byte} (hp : 0 < bs.length)
    (h : s.memSize < s.index.toNat + bs.length) :
    s.fetched.writeBytes (s.fetched.dataAddr 0) bs =
      .error (.outOfBounds .memory s.firstOutside) :=
  State.writeBytes_error (s := s.fetched) (a := s.index.toNat + 0) hp h

theorem State.fetched_readBytes_ok {s : State} {n : Nat} (h : s.index.toNat + n ≤ s.memSize) :
    s.fetched.readBytes (s.fetched.dataAddr 0) n =
      .ok ((List.range n).map fun k => s.byteAt (s.dataAddr k)) :=
  State.readBytes_ok (s := s.fetched) (a := s.index.toNat + 0) h

theorem State.fetched_readBytes_error {s : State} {n : Nat} (hp : 0 < n)
    (h : s.memSize < s.index.toNat + n) :
    s.fetched.readBytes (s.fetched.dataAddr 0) n =
      .error (.outOfBounds .memory s.firstOutside) :=
  State.readBytes_error (s := s.fetched) (a := s.index.toNat + 0) hp h

theorem State.readRegs_length (s : State) (xs : List Reg) : (s.readRegs xs).length = xs.length :=
  List.length_map ..

/-! The post-increment of I (R155, R156) writes I only. -/

theorem State.postIncrement_byteAt (s : State) (x : Reg) (a : Nat) :
    (s.postIncrement x).byteAt a = s.byteAt a := by
  unfold State.postIncrement; split <;> rfl

theorem State.postIncrement_readV (s : State) (x r : Reg) :
    (s.postIncrement x).readV r = s.readV r := by
  unfold State.postIncrement; split <;> rfl

theorem State.toNat_postIncrement_index {s : State} (x : Reg)
    (h : s.config.quirks.memoryIncrement = true) :
    (s.postIncrement x).index.toNat = (s.index.toNat + x.val + 1) % 65536 := by
  unfold State.postIncrement
  rw [if_pos h]
  have := x.isLt
  simp only [BitVec.toNat_add, BitVec.toNat_ofNat]
  omega

/-- The stored bytes read back. -/
theorem State.byteAt_stored_inside {s : State} {bs : List Byte} {k : Nat}
    (hw : s.memory.wf s.config.resetByte s.memSize = true)
    (hl : s.index.toNat + bs.length ≤ s.memSize) (hk : k < bs.length) :
    (s.stored bs).byteAt (s.dataAddr k) = bs[k] := Memory.read_writeBytes_inside hw hl hk

theorem Frame.stored {w : Effects} {s : State} {bs : List Byte}
    (hm : ∀ a, s.dataAddr 0 ≤ a → a < s.dataAddr bs.length → w.mem a) : Frame w s (s.stored bs) :=
  (Frame.fetched w s).writeBytes (a := s.index.toNat) hm

theorem exec_ldBVx_ok {x : Reg} {s : State} (h : s.index.toNat + 2 < s.memSize) :
    exec (.ldBVx x) s = .next (s.stored (bcdDigits (s.readV x))) := by
  simp only [exec, execLdBVx]
  exact State.execute_ok (State.fetched_writeBytes_ok (by simp only [bcdDigits, List.length]; omega))

theorem exec_ldBVx_error {x : Reg} {s : State} (h : s.memSize ≤ s.index.toNat + 2) :
    exec (.ldBVx x) s = .next (s.recorded (.outOfBounds .memory s.firstOutside)) := by
  simp only [exec, execLdBVx]
  exact State.execute_error (State.fetched_writeBytes_error (by simp [bcdDigits])
    (by simp only [bcdDigits, List.length]; omega))

theorem exec_ldMemVx_ok {x : Reg} {s : State} (h : s.index.toNat + x.val < s.memSize) :
    exec (.ldMemVx x) s =
      .next ((s.stored (s.readRegs (regsUpTo x))).postIncrement x) := by
  simp only [exec, execLdMemVx]
  refine State.execute_ok ?_
  rw [show s.fetched.readRegs (regsUpTo x) = s.readRegs (regsUpTo x) from rfl,
    State.fetched_writeBytes_ok (by rw [State.readRegs_length, regsUpTo_length]; omega)]
  rfl

theorem exec_ldMemVx_error {x : Reg} {s : State} (h : s.memSize ≤ s.index.toNat + x.val) :
    exec (.ldMemVx x) s = .next (s.recorded (.outOfBounds .memory s.firstOutside)) := by
  simp only [exec, execLdMemVx]
  refine State.execute_error ?_
  rw [show s.fetched.readRegs (regsUpTo x) = s.readRegs (regsUpTo x) from rfl,
    State.fetched_writeBytes_error (by rw [State.readRegs_length, regsUpTo_length]; omega)
      (by rw [State.readRegs_length, regsUpTo_length]; omega)]
  rfl

/-- The bytes a load reads at I. -/
def State.dataBytes (s : State) (n : Nat) : List Byte :=
  (List.range n).map fun k => s.byteAt (s.dataAddr k)

theorem State.dataBytes_length (s : State) (n : Nat) : (s.dataBytes n).length = n := by
  simp [State.dataBytes]

theorem State.dataBytes_getElem {s : State} {n k : Nat} (h : k < (s.dataBytes n).length) :
    (s.dataBytes n)[k] = s.byteAt (s.dataAddr k) := by simp [State.dataBytes]

theorem exec_ldVxMem_ok {x : Reg} {s : State} (h : s.index.toNat + x.val < s.memSize) :
    exec (.ldVxMem x) s =
      .next ((s.fetched.writeRegs (regsUpTo x) (s.dataBytes (x.val + 1))).postIncrement x) := by
  simp only [exec, execLdVxMem]
  refine State.execute_ok ?_
  rw [State.fetched_readBytes_ok (by omega)]; rfl

theorem exec_ldVxMem_error {x : Reg} {s : State} (h : s.memSize ≤ s.index.toNat + x.val) :
    exec (.ldVxMem x) s = .next (s.recorded (.outOfBounds .memory s.firstOutside)) := by
  simp only [exec, execLdVxMem]
  refine State.execute_error ?_
  rw [State.fetched_readBytes_error (by omega) (by omega)]; rfl

theorem exec_saveVxVy_ok {x y : Reg} {s : State}
    (h : s.index.toNat + (regRange x y).length ≤ s.memSize) :
    exec (.saveVxVy x y) s = .next (s.stored (s.readRegs (regRange x y))) := by
  simp only [exec, execSaveVxVy]
  exact State.execute_ok (State.fetched_writeBytes_ok (by rw [State.readRegs_length]; exact h))

theorem exec_saveVxVy_error {x y : Reg} {s : State}
    (h : s.memSize < s.index.toNat + (regRange x y).length) :
    exec (.saveVxVy x y) s = .next (s.recorded (.outOfBounds .memory s.firstOutside)) := by
  simp only [exec, execSaveVxVy]
  exact State.execute_error (State.fetched_writeBytes_error
    (by rw [State.readRegs_length, regRange_length]; omega) (by rw [State.readRegs_length]; exact h))

theorem exec_loadVxVy_ok {x y : Reg} {s : State}
    (h : s.index.toNat + (regRange x y).length ≤ s.memSize) :
    exec (.loadVxVy x y) s =
      .next (s.fetched.writeRegs (regRange x y) (s.dataBytes (regRange x y).length)) := by
  simp only [exec, execLoadVxVy]
  refine State.execute_ok ?_
  rw [State.fetched_readBytes_ok h]; rfl

theorem exec_loadVxVy_error {x y : Reg} {s : State}
    (h : s.memSize < s.index.toNat + (regRange x y).length) :
    exec (.loadVxVy x y) s = .next (s.recorded (.outOfBounds .memory s.firstOutside)) := by
  simp only [exec, execLoadVxVy]
  refine State.execute_error ?_
  rw [State.fetched_readBytes_error (by rw [regRange_length]; omega) h]; rfl

theorem exec_ldRVx (x : Reg) (s : State) : exec (.ldRVx x) s = .next { s.fetched with
    rpl := (regsUpTo x).foldl (fun f k => f.set k.val (s.readV k)) s.rpl } := rfl

theorem exec_ldVxR (x : Reg) (s : State) : exec (.ldVxR x) s =
    .next (s.fetched.writeRegs (regsUpTo x) ((regsUpTo x).map fun k => s.rpl.get k)) := rfl

/-! ## Display (43_display.md) -/

theorem exec_cls (s : State) : exec .cls s = .next (s.fetched.onSelected fun _ => []) := rfl

theorem exec_scd (n : Nibble) (s : State) : exec (.scd n) s = .next (s.fetched.onSelected
    (Plane.scrollDown s.config.variant.bufW s.config.variant.bufH (n.toNat * s.scrollUnit))) := rfl

theorem exec_scu (n : Nibble) (s : State) : exec (.scu n) s = .next (s.fetched.onSelected
    (Plane.scrollUp s.config.variant.bufW (n.toNat * s.scrollUnit))) := rfl

theorem exec_scr (s : State) : exec .scr s = .next (s.fetched.onSelected
    (Plane.scrollRight s.config.variant.bufW (4 * s.scrollUnit))) := rfl

theorem exec_scl (s : State) : exec .scl s = .next (s.fetched.onSelected
    (Plane.scrollLeft s.config.variant.bufW (4 * s.scrollUnit))) := rfl

theorem exec_low (s : State) : exec .low s = .next { s.fetched with highResMode := false } := rfl

theorem exec_high (s : State) : exec .high s = .next { s.fetched with highResMode := true } := rfl

theorem exec_plane (x : Reg) (s : State) :
    exec (.plane x) s = .next { s.fetched with activeDrawPlane := drawPlaneOf x } := rfl

theorem State.fetched_drawStalled (s : State) :
    s.fetched.drawStalled = (s.config.quirks.displayWait && !s.keyFrameIn) := rfl

theorem exec_drw_stalled {x y : Reg} {n : Nibble} {s : State}
    (hw : s.config.quirks.displayWait = true) (hk : s.keyFrameIn = false) :
    exec (.drw x y n) s = .next s.fetched.rewindPc := by
  simp only [exec, execDrw]
  exact State.execute_ok (if_pos (by rw [State.fetched_drawStalled, hw, hk]; rfl))

theorem State.not_drawStalled {s : State}
    (h : s.config.quirks.displayWait = false ∨ s.keyFrameIn = true) :
    ¬s.fetched.drawStalled = true := by
  rw [State.fetched_drawStalled]; rcases h with h | h <;> simp [h]

/-- DXYN that draws: the planes first, VF last (R175). -/
theorem exec_drw_ok {x y : Reg} {n : Nibble} {s : State}
    (hk : s.config.quirks.displayWait = false ∨ s.keyFrameIn = true)
    (hl : s.spriteLength n = 0 ∨ s.index.toNat + s.spriteLength n ≤ s.memSize) :
    let e := s.drawEnv x y n (s.dataBytes (s.spriteLength n))
    exec (.drw x y n) s = .next ((drawPlanes e s.fetched).1.writeV VF
      (collisionFlag s.highResMode (drawPlanes e s.fetched).2)) := by
  simp only [exec, execDrw]
  refine State.execute_ok ((if_neg (State.not_drawStalled hk)).trans ?_)
  have hr : s.fetched.spriteBytes n = .ok (s.dataBytes (s.spriteLength n)) := by
    rcases hl with hl | hl
    · have : s.fetched.selectedPlanes.length * (spriteShape n).bytes = 0 := hl
      rw [State.spriteBytes, this, hl]; rfl
    · exact State.fetched_readBytes_ok hl
  rw [hr]; rfl

theorem exec_drw_error {x y : Reg} {n : Nibble} {s : State}
    (hk : s.config.quirks.displayWait = false ∨ s.keyFrameIn = true)
    (hp : 0 < s.spriteLength n) (hl : s.memSize < s.index.toNat + s.spriteLength n) :
    exec (.drw x y n) s = .next (s.recorded (.outOfBounds .memory s.firstOutside)) := by
  simp only [exec, execDrw]
  refine State.execute_error ((if_neg (State.not_drawStalled hk)).trans ?_)
  have hr : s.fetched.spriteBytes n = .error (.outOfBounds .memory s.firstOutside) :=
    State.fetched_readBytes_error hp hl
  rw [hr]; rfl

/-! ## Keys, timers, audio (44_keys_timers_audio.md) -/

theorem exec_ldVxK_some {x k : Reg} {s : State} (h : s.lowestKey = some k) :
    exec (.ldVxK x) s = .next (s.fetched.writeV x (BitVec.ofNat 8 k.val)) := by
  simp only [exec, execLdVxK]
  refine State.execute_ok ?_
  rw [show s.fetched.lowestKey = some k from h]

theorem exec_ldVxK_none {x : Reg} {s : State} (h : s.lowestKey = none) :
    exec (.ldVxK x) s = .next s.fetched.rewindPc := by
  simp only [exec, execLdVxK]
  refine State.execute_ok ?_
  rw [show s.fetched.lowestKey = none from h]

theorem exec_ldVxDt (x : Reg) (s : State) :
    exec (.ldVxDt x) s = .next (s.fetched.writeV x s.dt) := rfl

theorem exec_ldDtVx (x : Reg) (s : State) :
    exec (.ldDtVx x) s = .next { s.fetched with dt := s.readV x } := rfl

theorem exec_ldStVx (x : Reg) (s : State) :
    exec (.ldStVx x) s = .next { s.fetched with st := s.readV x } := rfl

theorem exec_audio_ok {s : State} (h : s.index.toNat + 15 < s.memSize) :
    exec .audio s = .next { s.fetched with
      pattern := allRegs.foldl (fun f k => f.set k.val ((s.dataBytes 16).getD k.val 0))
        s.pattern } := by
  simp only [exec, execAudio]
  refine State.execute_ok ?_
  rw [State.fetched_readBytes_ok (by omega)]; rfl

theorem exec_audio_error {s : State} (h : s.memSize ≤ s.index.toNat + 15) :
    exec .audio s = .next (s.recorded (.outOfBounds .memory s.firstOutside)) := by
  simp only [exec, execAudio]
  refine State.execute_error ?_
  rw [State.fetched_readBytes_error (by omega) (by omega)]; rfl

theorem exec_pitchVx (x : Reg) (s : State) :
    exec (.pitchVx x) s = .next { s.fetched with pitch := s.readV x } := rfl

end Sys2Proof.Machine
end

