-- ==== Sys2Proof/Laws/PerInstr.lean ====
section
/-! SUPPORT. One lemma per instruction: its word has the fixed bits of its row of the opcode table
(30_encoding.md R85), and the row's variant set is the instruction's. -/

namespace Sys2Proof

/-! ## Masking a word, field by field -/

theorem d1_and (a b : Word) : (a &&& b).d1 = a.d1 &&& b.d1 := BitVec.extractLsb'_and

theorem d2_and (a b : Word) : (a &&& b).d2 = a.d2 &&& b.d2 := BitVec.extractLsb'_and

theorem d3_and (a b : Word) : (a &&& b).d3 = a.d3 &&& b.d3 := BitVec.extractLsb'_and

theorem d4_and (a b : Word) : (a &&& b).d4 = a.d4 &&& b.d4 := BitVec.extractLsb'_and

theorem nn_and (a b : Word) : (a &&& b).nn = a.nn &&& b.nn := BitVec.extractLsb'_and

/-- A row matches a word field by field. -/
theorem Row.matchesWord_iff (r : Row) (op : Word) : r.matchesWord op = true ↔
    op.d1 &&& r.mask.d1 = r.bits.d1 ∧ op.d2 &&& r.mask.d2 = r.bits.d2 ∧
    op.d3 &&& r.mask.d3 = r.bits.d3 ∧ op.d4 &&& r.mask.d4 = r.bits.d4 := by
  rw [Row.matchesWord, beq_iff_eq, ← d1_and, ← d2_and, ← d3_and, ← d4_and]
  constructor
  · intro h; rw [h]; exact ⟨rfl, rfl, rfl, rfl⟩
  · rintro ⟨h1, h2, h3, h4⟩
    rw [eq_fmtO (op &&& r.mask), eq_fmtO r.bits, h1, h2, h3, h4]

theorem and_zero_nibble (a : Nibble) : a &&& 0 = 0 := BitVec.and_zero

theorem and_full_nibble (a : Nibble) : a &&& 15 = a := BitVec.and_allOnes

/-- Rows whose only fixed field is d1. -/
theorem matches_d1 {op : Word} {o : Nibble} (h : op.d1 = o) (vs : VariantSet) :
    Row.matchesWord ⟨fmtO o 0 0 0, fmtO 15 0 0 0, vs⟩ op = true := by
  simp only [Row.matchesWord_iff, d1_fmtO, d2_fmtO, d3_fmtO, d4_fmtO, h, and_zero_nibble,
    and_full_nibble, and_true]

/-- Rows whose fixed fields are d1 and d4. -/
theorem matches_d1_d4 {op : Word} {o f : Nibble} (h : op.d1 = o) (h4 : op.d4 = f)
    (vs : VariantSet) : Row.matchesWord ⟨fmtO o 0 0 f, fmtO 15 0 0 15, vs⟩ op = true := by
  simp only [Row.matchesWord_iff, d1_fmtO, d2_fmtO, d3_fmtO, d4_fmtO, h, h4, and_zero_nibble,
    and_full_nibble, and_true]

/-- Rows whose fixed fields are d1, d2 and d3. -/
theorem matches_d1_d2_d3 (a b c n : Nibble) (vs : VariantSet) :
    Row.matchesWord ⟨fmtO a b c 0, fmtO 15 15 15 0, vs⟩ (fmtO a b c n) = true := by
  simp only [Row.matchesWord_iff, d1_fmtO, d2_fmtO, d3_fmtO, d4_fmtO, and_zero_nibble,
    and_full_nibble, and_true]

/-- Rows whose fixed fields are d1 and NN. -/
theorem matches_d1_nn (o : Nibble) (x : Reg) (nn : Byte) (vs : VariantSet) :
    Row.matchesWord ⟨fmtXB o 0 nn, 0xF0FF, vs⟩ (fmtXB o x nn) = true := by
  rw [Row.matchesWord, beq_iff_eq, eq_fmtXB (fmtXB o x nn &&& 0xF0FF), d1_and, nn_and, d1_fmtXB,
    nn_fmtXB, Word.x, d2_and, d2_fmtXB]
  exact congr (congr (congrArg fmtXB (and_full_nibble o)) (congrArg Reg.ofNibble (and_zero_nibble _)))
    BitVec.and_allOnes

/-! ## The family -/

/-- `i`'s word has the fixed bits of a row whose variant set is `i`'s. -/
def Laws.RowMatch.Statement (i : Instr) : Prop :=
  i.operandsOk = true → ∃ r ∈ opcodeTable, r.matchesWord i.word = true ∧ r.variants = i.variants

theorem Laws.RowMatch.nop : Laws.RowMatch.Statement (.nop) :=
  fun _ => ⟨⟨0x0000, 0xFFFF, .all⟩, by decide, by decide, rfl⟩

theorem Laws.RowMatch.cls : Laws.RowMatch.Statement (.cls) :=
  fun _ => ⟨⟨0x00E0, 0xFFFF, .all⟩, by decide, by decide, rfl⟩

theorem Laws.RowMatch.ret : Laws.RowMatch.Statement (.ret) :=
  fun _ => ⟨⟨0x00EE, 0xFFFF, .all⟩, by decide, by decide, rfl⟩

theorem Laws.RowMatch.scd (n : Nibble) : Laws.RowMatch.Statement (.scd n) :=
  fun _ => ⟨⟨0x00C0, 0xFFF0, .schipUp⟩, by decide, matches_d1_d2_d3 0x0 0x0 0xC n _, rfl⟩

theorem Laws.RowMatch.scu (n : Nibble) : Laws.RowMatch.Statement (.scu n) :=
  fun _ => ⟨⟨0x00D0, 0xFFF0, .xochipOnly⟩, by decide, matches_d1_d2_d3 0x0 0x0 0xD n _, rfl⟩

theorem Laws.RowMatch.scr : Laws.RowMatch.Statement (.scr) :=
  fun _ => ⟨⟨0x00FB, 0xFFFF, .schipUp⟩, by decide, by decide, rfl⟩

theorem Laws.RowMatch.scl : Laws.RowMatch.Statement (.scl) :=
  fun _ => ⟨⟨0x00FC, 0xFFFF, .schipUp⟩, by decide, by decide, rfl⟩

theorem Laws.RowMatch.exit : Laws.RowMatch.Statement (.exit) :=
  fun _ => ⟨⟨0x00FD, 0xFFFF, .schipUp⟩, by decide, by decide, rfl⟩

theorem Laws.RowMatch.low : Laws.RowMatch.Statement (.low) :=
  fun _ => ⟨⟨0x00FE, 0xFFFF, .schipUp⟩, by decide, by decide, rfl⟩

theorem Laws.RowMatch.high : Laws.RowMatch.Statement (.high) :=
  fun _ => ⟨⟨0x00FF, 0xFFFF, .schipUp⟩, by decide, by decide, rfl⟩

theorem Laws.RowMatch.jp (nnn : BitVec 12) : Laws.RowMatch.Statement (.jp nnn) :=
  fun _ => ⟨⟨0x1000, 0xF000, .all⟩, by decide, matches_d1 (d1_fmtA ..) _, rfl⟩

theorem Laws.RowMatch.call (nnn : BitVec 12) : Laws.RowMatch.Statement (.call nnn) :=
  fun _ => ⟨⟨0x2000, 0xF000, .all⟩, by decide, matches_d1 (d1_fmtA ..) _, rfl⟩

theorem Laws.RowMatch.seVxNn (x : Reg) (nn : Byte) : Laws.RowMatch.Statement (.seVxNn x nn) :=
  fun _ => ⟨⟨0x3000, 0xF000, .all⟩, by decide, matches_d1 (d1_fmtXB ..) _, rfl⟩

theorem Laws.RowMatch.sneVxNn (x : Reg) (nn : Byte) : Laws.RowMatch.Statement (.sneVxNn x nn) :=
  fun _ => ⟨⟨0x4000, 0xF000, .all⟩, by decide, matches_d1 (d1_fmtXB ..) _, rfl⟩

theorem Laws.RowMatch.seVxVy (x y : Reg) : Laws.RowMatch.Statement (.seVxVy x y) :=
  fun _ => ⟨⟨0x5000, 0xF00F, .all⟩, by decide, matches_d1_d4 (d1_fmtXY ..) (d4_fmtXY ..) _, rfl⟩

theorem Laws.RowMatch.saveVxVy (x y : Reg) : Laws.RowMatch.Statement (.saveVxVy x y) :=
  fun _ => ⟨⟨0x5002, 0xF00F, .xochipOnly⟩, by decide, matches_d1_d4 (d1_fmtXY ..) (d4_fmtXY ..) _, rfl⟩

theorem Laws.RowMatch.loadVxVy (x y : Reg) : Laws.RowMatch.Statement (.loadVxVy x y) :=
  fun _ => ⟨⟨0x5003, 0xF00F, .xochipOnly⟩, by decide, matches_d1_d4 (d1_fmtXY ..) (d4_fmtXY ..) _, rfl⟩

theorem Laws.RowMatch.ldVxNn (x : Reg) (nn : Byte) : Laws.RowMatch.Statement (.ldVxNn x nn) :=
  fun _ => ⟨⟨0x6000, 0xF000, .all⟩, by decide, matches_d1 (d1_fmtXB ..) _, rfl⟩

theorem Laws.RowMatch.addVxNn (x : Reg) (nn : Byte) : Laws.RowMatch.Statement (.addVxNn x nn) :=
  fun _ => ⟨⟨0x7000, 0xF000, .all⟩, by decide, matches_d1 (d1_fmtXB ..) _, rfl⟩

theorem Laws.RowMatch.ldVxVy (x y : Reg) : Laws.RowMatch.Statement (.ldVxVy x y) :=
  fun _ => ⟨⟨0x8000, 0xF00F, .all⟩, by decide, matches_d1_d4 (d1_fmtXY ..) (d4_fmtXY ..) _, rfl⟩

theorem Laws.RowMatch.orVxVy (x y : Reg) : Laws.RowMatch.Statement (.orVxVy x y) :=
  fun _ => ⟨⟨0x8001, 0xF00F, .all⟩, by decide, matches_d1_d4 (d1_fmtXY ..) (d4_fmtXY ..) _, rfl⟩

theorem Laws.RowMatch.andVxVy (x y : Reg) : Laws.RowMatch.Statement (.andVxVy x y) :=
  fun _ => ⟨⟨0x8002, 0xF00F, .all⟩, by decide, matches_d1_d4 (d1_fmtXY ..) (d4_fmtXY ..) _, rfl⟩

theorem Laws.RowMatch.xorVxVy (x y : Reg) : Laws.RowMatch.Statement (.xorVxVy x y) :=
  fun _ => ⟨⟨0x8003, 0xF00F, .all⟩, by decide, matches_d1_d4 (d1_fmtXY ..) (d4_fmtXY ..) _, rfl⟩

theorem Laws.RowMatch.addVxVy (x y : Reg) : Laws.RowMatch.Statement (.addVxVy x y) :=
  fun _ => ⟨⟨0x8004, 0xF00F, .all⟩, by decide, matches_d1_d4 (d1_fmtXY ..) (d4_fmtXY ..) _, rfl⟩

theorem Laws.RowMatch.subVxVy (x y : Reg) : Laws.RowMatch.Statement (.subVxVy x y) :=
  fun _ => ⟨⟨0x8005, 0xF00F, .all⟩, by decide, matches_d1_d4 (d1_fmtXY ..) (d4_fmtXY ..) _, rfl⟩

theorem Laws.RowMatch.shrVxVy (x y : Reg) : Laws.RowMatch.Statement (.shrVxVy x y) :=
  fun _ => ⟨⟨0x8006, 0xF00F, .all⟩, by decide, matches_d1_d4 (d1_fmtXY ..) (d4_fmtXY ..) _, rfl⟩

theorem Laws.RowMatch.subnVxVy (x y : Reg) : Laws.RowMatch.Statement (.subnVxVy x y) :=
  fun _ => ⟨⟨0x8007, 0xF00F, .all⟩, by decide, matches_d1_d4 (d1_fmtXY ..) (d4_fmtXY ..) _, rfl⟩

theorem Laws.RowMatch.shlVxVy (x y : Reg) : Laws.RowMatch.Statement (.shlVxVy x y) :=
  fun _ => ⟨⟨0x800E, 0xF00F, .all⟩, by decide, matches_d1_d4 (d1_fmtXY ..) (d4_fmtXY ..) _, rfl⟩

theorem Laws.RowMatch.sneVxVy (x y : Reg) : Laws.RowMatch.Statement (.sneVxVy x y) :=
  fun _ => ⟨⟨0x9000, 0xF00F, .all⟩, by decide, matches_d1_d4 (d1_fmtXY ..) (d4_fmtXY ..) _, rfl⟩

theorem Laws.RowMatch.ldINnn (nnn : BitVec 12) : Laws.RowMatch.Statement (.ldINnn nnn) :=
  fun _ => ⟨⟨0xA000, 0xF000, .all⟩, by decide, matches_d1 (d1_fmtA ..) _, rfl⟩

theorem Laws.RowMatch.jpV0Nnn (nnn : BitVec 12) : Laws.RowMatch.Statement (.jpV0Nnn nnn) :=
  fun _ => ⟨⟨0xB000, 0xF000, .all⟩, by decide, matches_d1 (d1_fmtA ..) _, rfl⟩

theorem Laws.RowMatch.rndVxNn (x : Reg) (nn : Byte) : Laws.RowMatch.Statement (.rndVxNn x nn) :=
  fun _ => ⟨⟨0xC000, 0xF000, .all⟩, by decide, matches_d1 (d1_fmtXB ..) _, rfl⟩

theorem Laws.RowMatch.drw (x y : Reg) (n : Nibble) : Laws.RowMatch.Statement (.drw x y n) :=
  fun _ => ⟨⟨0xD000, 0xF000, .all⟩, by decide, matches_d1 (d1_fmtXY ..) _, rfl⟩

theorem Laws.RowMatch.skp (x : Reg) : Laws.RowMatch.Statement (.skp x) :=
  fun _ => ⟨⟨0xE09E, 0xF0FF, .all⟩, by decide, matches_d1_nn 0xE x 0x9E _, rfl⟩

theorem Laws.RowMatch.sknp (x : Reg) : Laws.RowMatch.Statement (.sknp x) :=
  fun _ => ⟨⟨0xE0A1, 0xF0FF, .all⟩, by decide, matches_d1_nn 0xE x 0xA1 _, rfl⟩

theorem Laws.RowMatch.ldILong (m : Word) : Laws.RowMatch.Statement (.ldILong m) :=
  fun _ => ⟨⟨0xF000, 0xFFFF, .xochipOnly⟩, by decide, Eq.trans rfl (by decide : Row.matchesWord ⟨0xF000, 0xFFFF, .all⟩ 0xF000 = true), rfl⟩

theorem Laws.RowMatch.plane (x : Reg) : Laws.RowMatch.Statement (.plane x) := by
  intro h
  refine ⟨⟨0xF001, 0xFCFF, .xochipOnly⟩, by decide, ?_, rfl⟩
  revert x; decide

theorem Laws.RowMatch.audio : Laws.RowMatch.Statement (.audio) :=
  fun _ => ⟨⟨0xF002, 0xFFFF, .xochipOnly⟩, by decide, by decide, rfl⟩

theorem Laws.RowMatch.ldVxDt (x : Reg) : Laws.RowMatch.Statement (.ldVxDt x) :=
  fun _ => ⟨⟨0xF007, 0xF0FF, .all⟩, by decide, matches_d1_nn 0xF x 0x07 _, rfl⟩

theorem Laws.RowMatch.ldVxK (x : Reg) : Laws.RowMatch.Statement (.ldVxK x) :=
  fun _ => ⟨⟨0xF00A, 0xF0FF, .all⟩, by decide, matches_d1_nn 0xF x 0x0A _, rfl⟩

theorem Laws.RowMatch.ldDtVx (x : Reg) : Laws.RowMatch.Statement (.ldDtVx x) :=
  fun _ => ⟨⟨0xF015, 0xF0FF, .all⟩, by decide, matches_d1_nn 0xF x 0x15 _, rfl⟩

theorem Laws.RowMatch.ldStVx (x : Reg) : Laws.RowMatch.Statement (.ldStVx x) :=
  fun _ => ⟨⟨0xF018, 0xF0FF, .all⟩, by decide, matches_d1_nn 0xF x 0x18 _, rfl⟩

theorem Laws.RowMatch.addIVx (x : Reg) : Laws.RowMatch.Statement (.addIVx x) :=
  fun _ => ⟨⟨0xF01E, 0xF0FF, .all⟩, by decide, matches_d1_nn 0xF x 0x1E _, rfl⟩

theorem Laws.RowMatch.ldFVx (x : Reg) : Laws.RowMatch.Statement (.ldFVx x) :=
  fun _ => ⟨⟨0xF029, 0xF0FF, .all⟩, by decide, matches_d1_nn 0xF x 0x29 _, rfl⟩

theorem Laws.RowMatch.ldHfVx (x : Reg) : Laws.RowMatch.Statement (.ldHfVx x) :=
  fun _ => ⟨⟨0xF030, 0xF0FF, .schipUp⟩, by decide, matches_d1_nn 0xF x 0x30 _, rfl⟩

theorem Laws.RowMatch.ldBVx (x : Reg) : Laws.RowMatch.Statement (.ldBVx x) :=
  fun _ => ⟨⟨0xF033, 0xF0FF, .all⟩, by decide, matches_d1_nn 0xF x 0x33 _, rfl⟩

theorem Laws.RowMatch.pitchVx (x : Reg) : Laws.RowMatch.Statement (.pitchVx x) :=
  fun _ => ⟨⟨0xF03A, 0xF0FF, .xochipOnly⟩, by decide, matches_d1_nn 0xF x 0x3A _, rfl⟩

theorem Laws.RowMatch.ldMemVx (x : Reg) : Laws.RowMatch.Statement (.ldMemVx x) :=
  fun _ => ⟨⟨0xF055, 0xF0FF, .all⟩, by decide, matches_d1_nn 0xF x 0x55 _, rfl⟩

theorem Laws.RowMatch.ldVxMem (x : Reg) : Laws.RowMatch.Statement (.ldVxMem x) :=
  fun _ => ⟨⟨0xF065, 0xF0FF, .all⟩, by decide, matches_d1_nn 0xF x 0x65 _, rfl⟩

theorem Laws.RowMatch.ldRVx (x : Reg) : Laws.RowMatch.Statement (.ldRVx x) :=
  fun _ => ⟨⟨0xF075, 0xF0FF, .schipUp⟩, by decide, matches_d1_nn 0xF x 0x75 _, rfl⟩

theorem Laws.RowMatch.ldVxR (x : Reg) : Laws.RowMatch.Statement (.ldVxR x) :=
  fun _ => ⟨⟨0xF085, 0xF0FF, .schipUp⟩, by decide, matches_d1_nn 0xF x 0x85 _, rfl⟩

end Sys2Proof
end

