-- ==== Sys2Proof/Laws/Sprite.lean ====
section
/-! SUPPORT. Drawing in the vocabulary of Safety.lean: the bits DXYN reads, the pixels it flips and the
rows that collide (43_display.md R172 to R175). -/

namespace Sys2Proof.Machine

/-- Solving a wrapped coordinate for the sprite offset. -/
theorem wrap_eq_iff {w x0 c X : Nat} (hx0 : x0 < w) (hc : c < w) (hX : X < w) :
    X = (x0 + c) % w ↔ c = (X + w - x0) % w := by
  rcases Nat.lt_or_ge (x0 + c) w with h1 | h1 <;> rcases Nat.lt_or_ge (X + w - x0) w with h2 | h2
  · rw [Nat.mod_eq_of_lt h1, Nat.mod_eq_of_lt h2]; omega
  · rw [Nat.mod_eq_of_lt h1, Nat.mod_eq_sub_mod h2, Nat.mod_eq_of_lt (by omega)]; omega
  · rw [Nat.mod_eq_sub_mod h1, Nat.mod_eq_of_lt (by omega : x0 + c - w < w),
      Nat.mod_eq_of_lt h2]; omega
  · rw [Nat.mod_eq_sub_mod h1, Nat.mod_eq_of_lt (by omega : x0 + c - w < w),
      Nat.mod_eq_sub_mod h2, Nat.mod_eq_of_lt (by omega)]; omega

/-- A position's byte lies within its image (R172). -/
theorem spriteShape_byte_lt {n : Nibble} {r c : Nat} (hr : r < (spriteShape n).rows)
    (hc : c < (spriteShape n).cols) :
    r * (spriteShape n).bytesPerRow + c / 8 < (spriteShape n).bytes := by
  have : ((spriteShape n).cols = 16 ∧ (spriteShape n).bytesPerRow = 2) ∨
      ((spriteShape n).cols = 8 ∧ (spriteShape n).bytesPerRow = 1) := by
    unfold spriteShape; split <;> simp
  unfold SpriteShape.bytes
  rcases this with ⟨h1, h2⟩ | ⟨h1, h2⟩ <;> rw [h2] <;> rw [h1] at hc <;> omega

/-- The bits of the bytes read are the bits in memory at I (R172). -/
theorem State.spriteBit_dataBytes {s : State} {n : Nibble} {j r c : Nat}
    (hj : j < s.selectedPlanes.length) (hr : r < (spriteShape n).rows)
    (hc : c < (spriteShape n).cols) :
    spriteBit (spriteShape n) (s.dataBytes (s.spriteLength n)) j r c = s.spriteBitAt n j r c := by
  unfold spriteBit State.spriteBitAt
  have h1 := spriteShape_byte_lt hr hc
  have h2 : j * (spriteShape n).bytes + r * (spriteShape n).bytesPerRow + c / 8 <
      s.spriteLength n := by
    unfold State.spriteLength
    calc _ < j * (spriteShape n).bytes + (spriteShape n).bytes := by omega
      _ = (j + 1) * (spriteShape n).bytes := by ring
      _ ≤ _ := Nat.mul_le_mul_right _ hj
  rw [List.getD_eq_getElem _ _ (by rw [State.dataBytes_length]; exact h2), State.dataBytes_getElem]

theorem State.dropped_drawEnv (s : State) (x y : Reg) (n : Nibble) (bytes : List Byte)
    (r c : Nat) : (s.drawEnv x y n bytes).dropped r c = s.spriteDropped x y r c := rfl

/-- A buffer pixel lies in the block of the one position that wraps onto it (R173). -/
theorem State.mem_block_iff {s : State} {x y : Reg} {n : Nibble} {bytes : List Byte}
    {r c bx by_ : Nat} (hr : r < (spriteShape n).rows) (hc : c < (spriteShape n).cols)
    (hbx : bx < s.config.variant.bufW) (hby : by_ < s.config.variant.bufH) :
    by_ * s.config.variant.bufW + bx ∈ (s.drawEnv x y n bytes).block r c ↔
      c = (bx / s.geometry.scale + s.geometry.width - (s.spriteBase x y).1) % s.geometry.width ∧
      r = (by_ / s.geometry.scale + s.geometry.height - (s.spriteBase x y).2) %
        s.geometry.height := by
  obtain ⟨ht, hh, hw16, hh16⟩ := geometry_tiles s.config.variant s.highResMode
  have hs := spriteShape_le n
  have ok := s.drawEnv_ok x y n bytes
  have hX : bx / s.geometry.scale < s.geometry.width :=
    Nat.div_lt_of_lt_mul (by rw [Nat.mul_comm]; exact ht.width.symm ▸ hbx)
  have hY : by_ / s.geometry.scale < s.geometry.height :=
    Nat.div_lt_of_lt_mul (by rw [Nat.mul_comm]; exact hh.symm ▸ hby)
  rw [DrawEnv.block]
  refine (mem_blockEntries ht (Nat.mod_lt _ (by have := ok.x0; omega)) hbx).trans ?_
  exact and_congr (wrap_eq_iff ok.x0 (lt_of_lt_of_le hc (hs.1.trans hw16)) hX)
    (wrap_eq_iff ok.y0 (lt_of_lt_of_le hr (hs.2.trans hh16)) hY)

/-- The pixels an image flips (R172, R173). -/
theorem State.imageFlips_drawEnv {s : State} {x y : Reg} {n : Nibble} {j bx by_ : Nat}
    (hj : j < s.selectedPlanes.length) (hbx : bx < s.config.variant.bufW)
    (hby : by_ < s.config.variant.bufH) :
    (s.drawEnv x y n (s.dataBytes (s.spriteLength n))).imageFlips j
      (by_ * s.config.variant.bufW + bx) = s.spriteFlips x y n j bx by_ := by
  rw [Bool.eq_iff_iff]
  simp only [DrawEnv.imageFlips, DrawEnv.rowFlips, DrawEnv.flips, List.any_eq_true, List.mem_range,
    Bool.and_eq_true, decide_eq_true_eq, State.spriteFlips, Bool.not_eq_true',
    State.dropped_drawEnv]
  constructor
  · rintro ⟨r, hr, c, hc, ⟨hb, hd⟩, hm⟩
    obtain ⟨e1, e2⟩ := (State.mem_block_iff hr hc hbx hby).mp hm
    rw [← e1, ← e2]
    exact ⟨⟨⟨hc, hr⟩, (State.spriteBit_dataBytes hj hr hc) ▸ hb⟩, hd⟩
  · rintro ⟨⟨⟨hc, hr⟩, hb⟩, hd⟩
    exact ⟨_, hr, _, hc, ⟨(State.spriteBit_dataBytes hj hr hc).trans hb, hd⟩,
      (State.mem_block_iff hr hc hbx hby).mpr ⟨rfl, rfl⟩⟩

/-- Whether a position's block holds a lit pixel (R173). -/
theorem State.any_block_drawEnv (s : State) (x y : Reg) (n : Nibble) (bytes : List Byte)
    (k : PlaneId) (r c : Nat) :
    ((s.drawEnv x y n bytes).block r c).any (s.plane k).lit = s.blockLit k x y r c := by
  obtain ⟨ht, hh, hw16, hh16⟩ := geometry_tiles s.config.variant s.highResMode
  have in_range : ∀ {m sc b a d : Nat}, m * sc = b → a < m → d < sc → a * sc + d < b := by
    intro m sc b a d he ha hd
    calc a * sc + d < (a + 1) * sc := by rw [Nat.add_mul]; omega
      _ ≤ m * sc := Nat.mul_le_mul_right _ ha
      _ = b := he
  rw [Bool.eq_iff_iff]
  simp only [DrawEnv.block, blockEntries, State.blockLit, List.any_eq_true, List.mem_flatMap,
    List.mem_map, List.mem_range]
  have hx : ∀ dx, dx < s.geometry.scale →
      ((s.spriteBase x y).1 + c) % s.geometry.width * s.geometry.scale + dx <
        s.config.variant.bufW := fun dx hdx =>
    in_range ht.width (Nat.mod_lt _ (by simp only [State.geometry]; omega)) hdx
  have hy : ∀ dy, dy < s.geometry.scale →
      ((s.spriteBase x y).2 + r) % s.geometry.height * s.geometry.scale + dy <
        s.config.variant.bufH := fun dy hdy =>
    in_range hh (Nat.mod_lt _ (by simp only [State.geometry]; omega)) hdy
  constructor
  · rintro ⟨i, ⟨dy, hdy, dx, hdx, rfl⟩, hl⟩
    refine ⟨dy, hdy, dx, hdx, ?_⟩
    rw [State.pixel, decide_eq_true (hx dx hdx), decide_eq_true (hy dy hdy)]
    exact hl
  · rintro ⟨dy, hdy, dx, hdx, hl⟩
    refine ⟨_, ⟨dy, hdy, dx, hdx, rfl⟩, ?_⟩
    rw [State.pixel, decide_eq_true (hx dx hdx), decide_eq_true (hy dy hdy)] at hl
    exact hl

/-- Whether a row of an image collides (R174). -/
theorem State.rowCollides_drawEnv {s : State} {x y : Reg} {n : Nibble} {j r : Nat}
    (hj : j < s.selectedPlanes.length) (hr : r < (spriteShape n).rows) (k : PlaneId) :
    (s.drawEnv x y n (s.dataBytes (s.spriteLength n))).rowCollides j r (s.plane k) =
      s.rowCollides k x y n j r := by
  rw [Bool.eq_iff_iff]
  simp only [DrawEnv.rowCollides, State.rowCollides, List.any_eq_true, List.mem_range]
  refine exists_congr fun c => and_congr_right fun hc => ?_
  rw [DrawEnv.collides, State.any_block_drawEnv, State.dropped_drawEnv]
  rw [show spriteBit (s.drawEnv x y n (s.dataBytes (s.spriteLength n))).shape
      (s.drawEnv x y n (s.dataBytes (s.spriteLength n))).bytes j r c = _ from
    State.spriteBit_dataBytes hj hr hc]
  rfl

theorem State.lt_of_mem_zipIdx {s : State} {k : PlaneId} {j : Nat}
    (h : (k, j) ∈ s.selectedPlanes.zipIdx) : j < s.selectedPlanes.length := by
  have := List.snd_lt_of_mem_zipIdx h
  omega

end Sys2Proof.Machine
end

