-- ==== Sys2Proof/Tests/Slice0.lean ====
section
/-! SUPPORT. Tests: ill-formed terms; decoding of words written out from 30_encoding.md R85; one step
of each instruction with the results of 95_test_vectors.md (the vector is named in each test); a
witness for the hypotheses of each statement. -/

set_option maxRecDepth 8000

namespace Sys2Proof.Tests

open Sys2Proof Sys2Proof.Machine

/-! ## Helpers -/

/-- Registers from a list of values. -/
def regs (l : List (Reg × Byte)) : Vector Byte 16 :=
  l.foldl (fun v e => v.set e.1.val e.2) (Vector.replicate 16 0)

/-- A fresh machine in a variant's default configuration. -/
def fresh (v : Variant) : State := State.new (Config.ofVariant v)

/-- A fresh machine with one quirk record changed. -/
def freshQ (v : Variant) (f : Quirks → Quirks) : State :=
  State.new { Config.ofVariant v with quirks := f v.defaultQuirks }

/-- Chip8 with display_wait off, as the display vectors take it. -/
def noWait : State := freshQ .chip8 fun q => { q with displayWait := false }

/-- `s` with bytes stored from address `a` on. -/
def poke (s : State) (a : Nat) (bs : List Byte) : State :=
  { s with memory := s.memory.writeBytes s.config.resetByte a bs }

/-- `s` with an instruction word at its pc. -/
def ins (s : State) (w : Word) : State := poke s s.pc.toNat [w.hiByte, w.loByte]

/-- The state after one step. -/
def run (s : State) : State :=
  match step s with
  | .next t => t
  | .fault _ | .refused _ => s

/-- The lit pixels of a plane as (column, row). -/
def lit (s : State) (k : PlaneId) : List (Nat × Nat) :=
  (s.plane k).map fun i => (i % s.config.variant.bufW, i / s.config.variant.bufW)

/-- Bytes of memory. -/
def bytesAt (s : State) (a n : Nat) : List Byte := (List.range n).map fun k => s.byteAt (a + k)

/-- The recorded fault and its address. -/
def faultOf (s : State) : Option (Fault × Nat) := s.fault.map fun r => (r.fault, r.addr.toNat)

/-! ## WellFormed -/

theorem test_plane_mask_past_3_is_ill_formed :
    (Instr.plane 4).wellFormed .xochip = false := by decide

theorem test_scd_is_ill_formed_on_chip8 :
    (Instr.scd 1).wellFormed .chip8 = false := by decide

theorem test_scu_is_ill_formed_on_schip :
    (Instr.scu 1).wellFormed .schip = false ∧ (Instr.scu 1).wellFormed .xochip = true := by decide

/-! ## Decoding, bit by bit (R82, R85) -/

theorem test_decode_family_0 :
    decodeWord .chip8 0b0000_0000_0000_0000 0 = some (.nop) ∧
    decodeWord .chip8 0b0000_0000_1110_0000 0 = some (.cls) ∧
    decodeWord .chip8 0b0000_0000_1110_1110 0 = some (.ret) ∧
    decodeWord .schip 0b0000_0000_1100_0011 0 = some (.scd 3) ∧
    decodeWord .xochip 0b0000_0000_1101_1010 0 = some (.scu 10) ∧
    decodeWord .schip 0b0000_0000_1111_1011 0 = some (.scr) ∧
    decodeWord .schip 0b0000_0000_1111_1100 0 = some (.scl) ∧
    decodeWord .schip 0b0000_0000_1111_1101 0 = some (.exit) ∧
    decodeWord .schip 0b0000_0000_1111_1110 0 = some (.low) ∧
    decodeWord .schip 0b0000_0000_1111_1111 0 = some (.high) := by decide

theorem test_decode_jumps :
    decodeWord .chip8 0b0001_1010_1011_1100 0 = some (.jp 0xABC) ∧
    decodeWord .chip8 0b0010_0001_0010_0011 0 = some (.call 0x123) ∧
    decodeWord .chip8 0b1011_1111_1110_1101 0 = some (.jpV0Nnn 0xFED) := by decide

theorem test_decode_skips :
    decodeWord .chip8 0b0011_1010_0111_1111 0 = some (.seVxNn 10 0x7F) ∧
    decodeWord .chip8 0b0100_1011_1000_0000 0 = some (.sneVxNn 11 0x80) ∧
    decodeWord .chip8 0b0101_0001_0010_0000 0 = some (.seVxVy 1 2) ∧
    decodeWord .chip8 0b1001_0010_0001_0000 0 = some (.sneVxVy 2 1) ∧
    decodeWord .chip8 0b1110_0101_1001_1110 0 = some (.skp 5) ∧
    decodeWord .chip8 0b1110_0110_1010_0001 0 = some (.sknp 6) := by decide

theorem test_decode_alu_immediate :
    decodeWord .chip8 0b0110_1100_1000_0001 0 = some (.ldVxNn 12 0x81) ∧
    decodeWord .chip8 0b0111_1101_0001_1000 0 = some (.addVxNn 13 0x18) ∧
    decodeWord .chip8 0b1100_0011_1111_0000 0 = some (.rndVxNn 3 0xF0) := by decide

theorem test_decode_alu_register :
    decodeWord .chip8 0b1000_0001_0010_0000 0 = some (.ldVxVy 1 2) ∧
    decodeWord .chip8 0b1000_0001_0010_0001 0 = some (.orVxVy 1 2) ∧
    decodeWord .chip8 0b1000_0001_0010_0010 0 = some (.andVxVy 1 2) ∧
    decodeWord .chip8 0b1000_0001_0010_0011 0 = some (.xorVxVy 1 2) ∧
    decodeWord .chip8 0b1000_0001_0010_0100 0 = some (.addVxVy 1 2) ∧
    decodeWord .chip8 0b1000_0001_0010_0101 0 = some (.subVxVy 1 2) ∧
    decodeWord .chip8 0b1000_0001_0010_0110 0 = some (.shrVxVy 1 2) ∧
    decodeWord .chip8 0b1000_0001_0010_0111 0 = some (.subnVxVy 1 2) ∧
    decodeWord .chip8 0b1000_0001_0010_1110 0 = some (.shlVxVy 1 2) := by decide

theorem test_decode_index :
    decodeWord .chip8 0b1010_0101_1010_0110 0 = some (.ldINnn 0x5A6) ∧
    decodeWord .xochip 0b1111_0000_0000_0000 0xBEEF = some (.ldILong 0xBEEF) ∧
    decodeWord .chip8 0b1111_1001_0001_1110 0 = some (.addIVx 9) ∧
    decodeWord .chip8 0b1111_1000_0010_1001 0 = some (.ldFVx 8) ∧
    decodeWord .schip 0b1111_0111_0011_0000 0 = some (.ldHfVx 7) := by decide

theorem test_decode_transfers :
    decodeWord .chip8 0b1111_0100_0011_0011 0 = some (.ldBVx 4) ∧
    decodeWord .chip8 0b1111_0011_0101_0101 0 = some (.ldMemVx 3) ∧
    decodeWord .chip8 0b1111_0010_0110_0101 0 = some (.ldVxMem 2) ∧
    decodeWord .xochip 0b0101_0001_0010_0010 0 = some (.saveVxVy 1 2) ∧
    decodeWord .xochip 0b0101_0001_0010_0011 0 = some (.loadVxVy 1 2) ∧
    decodeWord .schip 0b1111_0001_0111_0101 0 = some (.ldRVx 1) ∧
    decodeWord .schip 0b1111_1110_1000_0101 0 = some (.ldVxR 14) := by decide

theorem test_decode_display :
    decodeWord .chip8 0b1101_0001_0010_1111 0 = some (.drw 1 2 15) ∧
    decodeWord .xochip 0b1111_0011_0000_0001 0 = some (.plane 3) := by decide

theorem test_decode_keys_timers_audio :
    decodeWord .chip8 0b1111_1011_0000_1010 0 = some (.ldVxK 11) ∧
    decodeWord .chip8 0b1111_1100_0000_0111 0 = some (.ldVxDt 12) ∧
    decodeWord .chip8 0b1111_1101_0001_0101 0 = some (.ldDtVx 13) ∧
    decodeWord .chip8 0b1111_1110_0001_1000 0 = some (.ldStVx 14) ∧
    decodeWord .xochip 0b1111_0000_0000_0010 0 = some (.audio) ∧
    decodeWord .xochip 0b1111_1111_0011_1010 0 = some (.pitchVx 15) := by decide

/-- The list of decode failures in 95_test_vectors.md. -/
theorem test_decode_refuses :
    decodeWord .chip8 0x00FB 0 = none ∧ decodeWord .chip8 0x8128 0 = none ∧
    decodeWord .schip 0x00D1 0 = none ∧ decodeWord .schip 0xF000 0 = none ∧
    decodeWord .xochip 0xF401 0 = none ∧ decodeWord .xochip 0xF102 0 = none := by decide

/-- The host's numbering: the first word is bits 15..0. -/
theorem test_decode_table_word :
    decodeTableWord 32 0x1234F000 = some (.ldILong 0x1234) ∧
    decodeTableWord 16 0xF000 = some (.ldILong 0) ∧ decodeTableWord 16 0x8124 = some (.addVxVy 1 2) :=
  by decide

theorem test_bytes_refused :
    decode .xochip [0xF0, 0x00, 0x12] = .error .truncated ∧
    decode .chip8 [0x01, 0x23] = .error (.decodeFailure 0x0123) := by decide

/-! ## Control flow -/

theorem test_nop_V_F1 :
    (run { fresh .chip8 with pc := 0xFFE }).pc = 0x1000 := by decide

theorem test_fetch_past_memory_V_F2 :
    faultOf (run { fresh .chip8 with pc := 0x1000 }) = some (.outOfBounds .memory 0x1000, 0x1000) :=
  by decide

theorem test_jp_V_F14 :
    (run (ins (fresh .chip8) 0x1201)).pc = 0x201 := by decide

theorem test_call_V_F8 :
    let s := run (ins (fresh .chip8) 0x2200)
    s.pc = 0x200 ∧ s.sp = some 0 ∧ s.stack.get 0 = 0x202 :=
  by decide

theorem test_call_full_V_F8 :
    faultOf (run { ins (fresh .chip8) 0x2200 with sp := some 15 }) = some (.stackOverflow, 0x200) :=
  by decide

theorem test_ret_empty_V_F9 :
    let s := run (ins (fresh .chip8) 0x00EE); faultOf s = some (.stackUnderflow, 0x200) ∧
      s.pc = 0x200 ∧ s.sp = none := by decide

/-- R107. -/
theorem test_ret :
    let s := run { ins (fresh .chip8) 0x00EE with
      sp := some 1, stack := (Vector.replicate 16 0).set 1 0x456 }; s.pc = 0x456 ∧ s.sp = some 0 :=
  by decide

theorem test_se_byte_past_long_V_F6 :
    (run { poke (fresh .xochip) 0x200 [0x30, 0x01, 0xF0, 0x00] with v := regs [(0, 1)] }).pc = 0x206 :=
  by decide

theorem test_se_byte_not_taken_V_F5 :
    let s := run (poke (fresh .xochip) 0x200 [0x30, 0x01, 0xF0, 0x00])
    s.pc = 0x202 ∧ s.wide = true :=
  by decide

/-- R111. -/
theorem test_sne_byte :
    (run (ins (fresh .chip8) 0x4001)).pc = 0x204 := by decide

/-- R112. -/
theorem test_se_register :
    (run { ins (fresh .chip8) 0x5120 with v := regs [(1, 7), (2, 7)] }).pc = 0x204 := by decide

/-- R113. -/
theorem test_sne_register :
    (run { ins (fresh .chip8) 0x9120 with v := regs [(1, 7), (2, 7)] }).pc = 0x202 := by decide

theorem test_jp_offset_schip_V_F12 :
    (run { ins (fresh .schip) 0xB300 with v := regs [(0, 0x10), (3, 4)] }).pc = 0x304 := by decide

theorem test_jp_offset_chip8_V_F10 :
    (run { ins (fresh .chip8) 0xBFFF with v := regs [(0, 0xFF)] }).pc = 0x10FE := by decide

/-- R115, R256. -/
theorem test_exit_V_R5 :
    let s := run { poke (fresh .schip) 0x200 [0x00, 0xFD] with
      loadedImage := [0x00, 0xFD], v := regs [(0, 9)], rpl := regs [(3, 7)], index := 0x345 }
    s.pc = 0x200 ∧ s.readV 0 = 0 ∧ s.index = 0 ∧ s.rpl.get 3 = 7 ∧ s.byteAt 0x201 = 0xFD :=
  by decide

/-! ## ALU -/

theorem test_ld_byte_W2 :
    let s := run { ins (fresh .chip8) 0x6A02 with v := regs [] }; s.readV 10 = 2 := by decide

theorem test_add_byte_V_A18 :
    let s := run { ins (fresh .chip8) 0x71FF with v := regs [(15, 7)] }
    s.readV 1 = 0xFF ∧ s.readV 15 = 7 :=
  by decide

theorem test_add_byte_wrap_V_A19 :
    let s := run { ins (fresh .chip8) 0x7001 with v := regs [(0, 0xFF), (15, 9)] }
    s.readV 0 = 0 ∧ s.readV 15 = 9 :=
  by decide

theorem test_ld_register_V_A20 :
    let s := run { ins (fresh .chip8) 0x8120 with v := regs [(2, 0x33)] }; s.readV 1 = 0x33 :=
  by decide

theorem test_or_chip8_V_A15 :
    let s := run { ins (fresh .chip8) 0x8121 with v := regs [(1, 0x0F), (2, 0xF0), (15, 1)] }
    s.readV 1 = 0xFF ∧ s.readV 15 = 0 :=
  by decide

theorem test_or_schip_x_f_V_A16 :
    let s := run { ins (fresh .schip) 0x8F21 with v := regs [(15, 0x0F), (2, 0xF0)] }
    s.readV 15 = 0xFF :=
  by decide

theorem test_and_V_A17 :
    let s := run { ins (fresh .chip8) 0x8122 with v := regs [(1, 0x3C), (2, 0x0F), (15, 5)] }
    s.readV 1 = 0x0C ∧ s.readV 15 = 0 :=
  by decide

theorem test_xor_V_A17 :
    let s := run { ins (fresh .schip) 0x8123 with v := regs [(1, 0x3C), (2, 0x0F), (15, 5)] }
    s.readV 1 = 0x33 ∧ s.readV 15 = 5 :=
  by decide

theorem test_add_carry_V_A1 :
    let s := run { ins (fresh .chip8) 0x8014 with v := regs [(0, 0xFF), (1, 1)] }
    s.readV 0 = 0 ∧ s.readV 15 = 1 :=
  by decide

theorem test_add_x_f_V_A3 :
    let s := run { ins (fresh .chip8) 0x8F14 with v := regs [(15, 0xFF), (1, 1)] }
    s.readV 15 = 1 :=
  by decide

theorem test_sub_borrow_V_A6 :
    let s := run { ins (fresh .chip8) 0x8015 with v := regs [(1, 1)] }
    s.readV 0 = 0xFF ∧ s.readV 15 = 0 :=
  by decide

theorem test_sub_x_y_f_V_A7 :
    let s := run { ins (fresh .chip8) 0x8FF5 with v := regs [(15, 0x42)] }; s.readV 15 = 1 :=
  by decide

theorem test_shr_chip8_V_A11 :
    let s := run { ins (fresh .chip8) 0x8126 with v := regs [(1, 0xFF), (2, 5)] }
    s.readV 1 = 2 ∧ s.readV 15 = 1 :=
  by decide

theorem test_shr_schip_V_A11 :
    let s := run { ins (fresh .schip) 0x8126 with v := regs [(1, 0xFF), (2, 5)] }
    s.readV 1 = 0x7F ∧ s.readV 15 = 1 :=
  by decide

theorem test_subn_V_A8 :
    let s := run { ins (fresh .chip8) 0x8017 with v := regs [(0, 1)] }
    s.readV 0 = 0xFF ∧ s.readV 15 = 0 :=
  by decide

theorem test_subn_x_f_V_A10 :
    let s := run { ins (fresh .chip8) 0x8F17 with v := regs [(15, 3), (1, 1)] }; s.readV 15 = 0 :=
  by decide

theorem test_shl_chip8_V_A12 :
    let s := run { ins (fresh .chip8) 0x812E with v := regs [(1, 0x81), (2, 0x40)] }
    s.readV 1 = 0x80 ∧ s.readV 15 = 0 :=
  by decide

theorem test_shl_schip_V_A12 :
    let s := run { ins (fresh .schip) 0x812E with v := regs [(1, 0x81), (2, 0x40)] }
    s.readV 1 = 2 ∧ s.readV 15 = 1 :=
  by decide

/-- V-A22; that V3 is 0 is test_rnd_masked_V_A22, since no evaluation reaches the free byte. -/
theorem test_rnd_counts_a_draw :
    (run (ins (fresh .chip8) 0xC300)).draws = 1 ∧ (run (ins (fresh .chip8) 0xC300)).pc = 0x202 :=
  by decide

/-- V-A22: C300 gives 0 whatever byte RANDOM draws. -/
theorem test_rnd_masked_V_A22 :
    ∀ t, exec (.rndVxNn 3 0) (fresh .chip8) = .next t → t.readV 3 = 0 := by
  intro t h
  cases h
  rw [State.readV_writeV_self]
  exact BitVec.and_zero

/-! ## Index, memory, RPL -/

/-- R150. -/
theorem test_ld_i :
    (run (ins (fresh .chip8) 0xAFFF)).index = 0xFFF := by decide

theorem test_add_i_wraps_V_M1 :
    let s := run { ins (fresh .xochip) 0xF01E with index := 0xFFFF, v := regs [(0, 1)] }
    s.index = 0 ∧ s.readV VF = 0 := by decide

theorem test_ld_f_V_M3 :
    (run { ins (fresh .chip8) 0xF129 with v := regs [(1, 0x1A)] }).index = 50 := by decide

theorem test_ld_hf_V_M5 :
    (run { ins (fresh .schip) 0xF130 with v := regs [(1, 10)] }).index = 180 := by decide

theorem test_bcd_V_M6 :
    bytesAt (run { ins (fresh .chip8) 0xF033 with index := 0x300, v := regs [(0, 255)] }) 0x300 3 =
      [2, 5, 5] := by decide

theorem test_bcd_past_memory_V_M8 :
    let s := run { ins (fresh .chip8) 0xF033 with index := 0xFFE, v := regs [(0, 7)] }
    faultOf s = some (.outOfBounds .memory 0x1000, 0x200) ∧ bytesAt s 0xFFE 2 = [0, 0] := by decide

theorem test_store_block_V_M12 :
    let s := run { ins (fresh .schip) 0xF255 with
      index := 0x300, v := regs [(0, 0x11), (1, 0x22), (2, 0x33), (3, 0x44)] }
    bytesAt s 0x300 4 = [0x11, 0x22, 0x33, 0] ∧ s.index = 0x300 := by decide

theorem test_store_block_increments_V_M11 :
    (run { ins (fresh .chip8) 0xFE55 with index := 0xFF0 }).index = 0xFFF := by decide

theorem test_load_block_W4 :
    let s := run { poke (ins (fresh .chip8) 0xF265) 0x300 [0x11, 0x22, 0x33, 0x44] with index := 0x300 }
    s.readV 0 = 0x11 ∧ s.readV 2 = 0x33 ∧ s.readV 3 = 0 ∧ s.index = 0x303 := by decide

theorem test_long_load_V_M20 :
    let s := run (poke { fresh .xochip with pc := 0xFFFC } 0xFFFC [0xF0, 0x00, 0xAB, 0xCD])
    s.index = 0xABCD ∧ s.pc = 0 := by decide

theorem test_long_load_past_memory_V_M21 :
    faultOf (run (poke { fresh .xochip with pc := 0xFFFD } 0xFFFD [0xF0, 0x00, 0x12])) =
      some (.outOfBounds .memory 0x10000, 0xFFFD) := by decide

theorem test_save_range_falling_V_M13 :
    bytesAt (run { ins (fresh .xochip) 0x5422 with
      index := 0x400, v := regs [(2, 0xA), (3, 0xB), (4, 0xC)] }) 0x400 3 = [0xC, 0xB, 0xA] :=
  by decide

theorem test_save_range_past_memory_V_M18 :
    faultOf (run { ins (fresh .xochip) 0x50F2 with index := 0xFFF2 }) =
      some (.outOfBounds .memory 0x10000, 0x200) := by decide

theorem test_load_range_falling_V_M17 :
    let s := run { poke (ins (fresh .xochip) 0x5423) 0x400 [0xC, 0xB, 0xA] with index := 0x400 }
    s.readV 2 = 0xA ∧ s.readV 3 = 0xB ∧ s.readV 4 = 0xC := by decide

theorem test_save_rpl_V_M22 :
    let s := run { ins (fresh .schip) 0xF175 with v := regs [(0, 1), (1, 2), (2, 9)] }
    s.rpl.get 0 = 1 ∧ s.rpl.get 1 = 2 ∧ s.rpl.get 2 = 0 := by decide

theorem test_load_rpl_V_M24 :
    let s := run { ins (fresh .schip) 0xF285 with rpl := regs [(0, 7), (1, 8), (2, 9), (3, 4)] }
    s.readV 0 = 7 ∧ s.readV 2 = 9 ∧ s.readV 3 = 0 := by decide

/-! ## Display -/

/-- R171. -/
theorem test_cls_plane_2_only :
    let s := run { ins (fresh .xochip) 0x00E0 with
      plane1 := [3], plane2 := [3, 4], activeDrawPlane := .plane2 }
    s.plane1 = [3] ∧ s.plane2 = [] := by decide

theorem test_draw_V_D2 :
    let s := run { ins noWait 0xD015 with v := regs [(0, 62), (1, 30)] }
    lit s .one = [(62, 30), (63, 30), (62, 31)] ∧ s.readV VF = 0 := by decide

theorem test_redraw_V_D6 :
    let s := run (poke { ins (fresh .schip) 0xD013 with
      highResMode := true, index := 0x300, plane1 := [0, 1, 2, 3, 4, 5, 6, 7, 256, 263] } 0x300 [0xFF, 0x00, 0x81])
    s.plane1 = [] ∧ s.readV VF = 2 := by decide

/-- R178: the pixel moved off the bottom is lost. -/
theorem test_scroll_down :
    lit (run { ins (fresh .schip) 0x00C1 with
      plane1 := [0, 8191], highResMode := true }) .one = [(0, 1)] := by decide

/-- R177, R179: two buffer rows in low resolution. -/
theorem test_scroll_up_low_res :
    lit (run { ins (fresh .xochip) 0x00D1 with plane1 := [127, 261] }) .one = [(5, 0)] := by decide

/-- R177, R180. -/
theorem test_scroll_right_legacy :
    lit (run { ins (fresh .schip) 0x00FB with plane1 := [0, 124] }) .one = [(4, 0)] := by decide

/-- R177, R181: eight buffer columns in low resolution. -/
theorem test_scroll_left :
    lit (run { ins (fresh .xochip) 0x00FC with plane1 := [7, 136] }) .one = [(0, 1)] := by decide

/-- R182. -/
theorem test_low_keeps_pixels :
    let s := run { ins (fresh .schip) 0x00FE with highResMode := true, plane1 := [9] }
    s.highResMode = false ∧ s.plane1 = [9] := by decide

/-- R183. -/
theorem test_high_keeps_pixels :
    let s := run { ins (fresh .schip) 0x00FF with plane1 := [9] }
    s.highResMode = true ∧ s.plane1 = [9] := by decide

theorem test_plane_V_D11 :
    (run (ins (fresh .xochip) 0xF301)).activeDrawPlane = .both ∧
    (run (ins (fresh .xochip) 0xF001)).activeDrawPlane = .none := by decide

/-! ## Keys, timers, audio -/

/-- R200. -/
theorem test_skp :
    (run { ins (fresh .chip8) 0xE19E with
      v := regs [(1, 5)], keys := (Vector.replicate 16 false).set 5 true }).pc = 0x204 := by decide

/-- R200, R225. -/
theorem test_skp_past_15 :
    faultOf (run { ins (fresh .chip8) 0xE19E with v := regs [(1, 16)] }) =
      some (.outOfBounds .keys 16, 0x200) := by decide

theorem test_sknp_past_long_V_F16 :
    (run { poke (fresh .xochip) 0x200 [0xE1, 0xA1, 0xF0, 0x00] with v := regs [(1, 5)] }).pc = 0x206 :=
  by decide

/-- R202. -/
theorem test_wait_key_lowest :
    let s := run { ins (fresh .chip8) 0xF20A with
      keys := ((Vector.replicate 16 false).set 9 true).set 12 true }
    s.readV 2 = 9 ∧ s.pc = 0x202 := by decide

/-- R202. -/
theorem test_wait_key_waits :
    (run (ins (fresh .chip8) 0xF20A)).pc = 0x200 := by decide

/-- R203. -/
theorem test_ld_vx_dt :
    (run { ins (fresh .chip8) 0xF307 with dt := 0x42 }).readV 3 = 0x42 := by decide

/-- R204. -/
theorem test_ld_dt_vx :
    (run { ins (fresh .chip8) 0xF315 with v := regs [(3, 0x42)] }).dt = 0x42 := by decide

/-- R205, R207. -/
theorem test_ld_st_vx :
    let s := run { ins (fresh .chip8) 0xF318 with v := regs [(3, 1)] }; s.st = 1 ∧ s.beep = true :=
  by decide

/-- R208. -/
theorem test_audio :
    let s := run { poke (ins (fresh .xochip) 0xF002) 0x300 [1, 2, 3] with index := 0x300 }
    s.pattern.get 0 = 1 ∧ s.pattern.get 2 = 3 ∧ s.pattern.get 15 = 0 ∧ s.index = 0x300 := by decide

/-- R209. -/
theorem test_pitch :
    (run { ins (fresh .xochip) 0xF33A with v := regs [(3, 112)] }).pitch = 112 := by decide

/-- R210: 64 is 4000 Hz and 48 steps are an octave. -/
theorem test_sound_frequency :
    soundFrequencyOf 64 = 4000 ∧ soundFrequencyOf 112 = 8000 ∧ soundFrequencyOf 16 = 2000 :=
  by decide +kernel

theorem test_tick_W6 :
    let s := run { fresh .chip8 with dt := 2, st := 1, schedule := [.tickTimers] }
    s.dt = 1 ∧ s.st = 0 ∧ s.beep = false := by decide

/-- The host's placing of an instruction. -/
theorem test_with_fetch_word :
    (run (State.reset.withFetchWord 32 0x1234F000)).index = 0x1234 := by decide

/-! ## Witnesses for the hypotheses of the statements -/

theorem fresh_inv (v : Variant) : (fresh v).Inv := State.new_inv _

/-- The invariant reads no register. -/
theorem fresh_inv_with (v : Variant) (r : Vector Byte 16) (i : Word) (b : Bool) :
    State.Inv { fresh v with v := r, index := i, keyFrameIn := b } :=
  (fresh_inv v).of_eq rfl rfl (fun k => by cases k <;> rfl) rfl rfl rfl

theorem witness_DecodeOfEncodeIsIdentity :
    (Instr.plane 3).wellFormed .xochip = true ∧ (Instr.ldILong 0xFFFF).wellFormed .xochip = true ∧
    (Instr.scd 15).wellFormed .schip = true ∧ Instr.nop.wellFormed .chip8 = true := by decide

theorem witness_DecodedBytesAreTheEncoding :
    decode .xochip [0xF0, 0x00, 0x12, 0x34, 0x99] = .ok (.ldILong 0x1234, [0x99]) ∧
    decode .chip8 [0x81, 0x24] = .ok (.addVxVy 1 2, []) := by decide

/-- A one-word instruction at the last even address, and F000 at the last place its operand fits. -/
theorem witness_StepRunsTheDecodedInstruction :
    (let s := ins { fresh .chip8 with pc := 0xFFE } 0x8124
     s.fault = none ∧ s.pc.toNat + 1 < s.memSize ∧ s.schedule = [] ∧
     decodeWord s.config.variant s.opAt s.operandAt = some (.addVxVy 1 2)) ∧
    (let s := { ins (fresh .chip8) 0x8124 with schedule := [.step false, .reset] }
     s.fault = none ∧ s.schedule = [.step false, .reset] ∧ s.pc.toNat + 1 < s.memSize ∧
     decodeWord s.config.variant s.opAt s.operandAt = some (.addVxVy 1 2)) ∧
    (let s := poke { fresh .xochip with pc := 0xFFFC } 0xFFFC [0xF0, 0x00, 0xAB, 0xCD]
     s.fault = none ∧ s.opAt = longWord ∧ (s.pc + 2).toNat + 1 < s.memSize ∧
     decodeWord s.config.variant s.opAt s.operandAt = some (.ldILong 0xABCD)) := by decide

theorem witness_FetchAndDecodeFaultsAreRecorded :
    (let s := { fresh .chip8 with pc := 0xFFF }
     s.fault = none ∧ s.schedule = [] ∧ s.memSize ≤ s.pc.toNat + 1) ∧
    (let s := ins { fresh .chip8 with pc := 0xFFE } 0x0123
     s.fault = none ∧ s.schedule = [] ∧ s.pc.toNat + 1 < s.memSize ∧ s.opAt = 0x0123) ∧
    ∀ m, decodeWord .chip8 0x0123 m = none :=
  ⟨by decide, by decide, fun _ => rfl⟩

theorem witness_FaultsArePrecise :
    let s := { fresh .chip8 with pc := 0xFFF }
    s.fault = none ∧ ∃ t r, step s = .next t ∧ t.fault = some r := ⟨rfl, _, _, rfl, rfl⟩

theorem witness_HaltedUntilReset :
    let s := { fresh .chip8 with fault := some ⟨.stackOverflow, 0x300⟩ }
    (s.schedule = [] ∧ ∃ t, step s = .next t) ∧
    (∃ t, step { s with schedule := [.step true] } = .next t) ∧
    (∃ t, step { s with schedule := [.tickTimers] } = .next t) ∧
    ∃ t, step { s with schedule := [.reset] } = .next t :=
  ⟨⟨rfl, _, rfl⟩, ⟨_, rfl⟩, ⟨_, rfl⟩, _, rfl⟩

theorem witness_EveryTransitionKeepsTheInvariant :
    State.reset.Inv ∧ ∃ t, step State.reset = .next t := ⟨State.new_inv _, _, rfl⟩

theorem witness_ConfigurationFixedKeysOnlyFromTheHost :
    (∃ t, step State.reset = .next t) ∧
    ∃ t, step { State.reset with schedule := [.setKey 15 true] } = .next t := ⟨⟨_, rfl⟩, _, rfl⟩

theorem witness_SpecialRegistersHaveOneWriter :
    ∃ t, exec (.ldDtVx 0) { fresh .chip8 with v := regs [(0, 5)] } = .next t ∧
      Instr.ldDtVx 0 ≠ .exit ∧ t.dt ≠ (fresh .chip8).dt := ⟨_, rfl, by decide, by decide⟩

theorem witness_GeneralRegistersChangeOnlyByTheirWriters :
    ∃ t, exec (.ldVxNn 15 5) (fresh .chip8) = .next t ∧ t.readV 15 ≠ (fresh .chip8).readV 15 :=
  ⟨_, rfl, by decide⟩

theorem witness_OnlyDisplayWaitReadsTheKeyFrame :
    (∃ t, exec .nop (fresh .chip8) = .next t) ∧ (∀ x y n, Instr.nop ≠ .drw x y n) ∧
    (∃ t, exec (.drw 0 1 5) noWait = .next t) ∧ noWait.config.quirks.displayWait = false :=
  ⟨⟨_, rfl⟩, (by intro _ _ _ h; cases h), ⟨_, rfl⟩, rfl⟩

theorem witness_ResetReinitialisesAllButKeys :
    State.schedule { fresh .chip8 with schedule := [.reset] } = [.reset] := rfl

/-- An image of one byte, and the two addresses around it. -/
theorem witness_ExitRestartsTheLoadedProgram :
    State.Inv { fresh .schip with loadedImage := [0xAA] } ∧ 0 < [0xAA].length ∧ 0x1FF < loadBase ∧
      loadBase + 1 ≤ 0x201 :=
  ⟨{ fresh_inv .schip with
      memory := rfl, planes := (fresh_inv .schip).planes, image := by decide }, by decide⟩

theorem witness_LoadWritesTheImageOrNothing :
    (∀ bs, State.Inv { fresh .chip8 with schedule := [.load bs] }) ∧
    (List.replicate 3584 (0 : Byte)).length ≤ (fresh .chip8).memSize - 0x200 ∧
    (fresh .chip8).memSize - 0x200 < (List.replicate 3585 (0 : Byte)).length :=
  ⟨fun bs => (fresh_inv .chip8).inputs [.load bs] true, by
    rw [List.length_replicate]; decide, by rw [List.length_replicate]; decide⟩

theorem witness_TickDecrementsTimersAndSetKeyWritesOneKey :
    State.schedule { fresh .chip8 with schedule := [.tickTimers] } = [.tickTimers] ∧
    State.schedule { fresh .chip8 with schedule := [.setKey 15 true] } = [.setKey 15 true] ∧
    State.schedule { fresh .chip8 with schedule := [.setKey 16 true] } = [.setKey 16 true] :=
  ⟨rfl, rfl, rfl⟩

theorem witness_DisplayPortIsRowMajor :
    63 < Variant.bufW .chip8 ∧ 31 < Variant.bufH .chip8 ∧
    (fresh .chip8).config.variant ≠ .xochip ∧ (fresh .xochip).config.variant = .xochip := by decide

theorem witness_MemoryReadsWhatWasWritten :
    (fresh .chip8).Inv ∧ 0xFFF < (fresh .chip8).memSize ∧ (fresh .chip8).memSize ≤ 0x1000 ∧
      0xFFE + 1 < (fresh .chip8).memSize ∧ (fresh .chip8).memSize ≤ 0xFFF + 1 :=
  ⟨fresh_inv _, by decide⟩

theorem witness_FetchSeesAStoreAtOnce :
    let s := { fresh .chip8 with v := regs [(0, 0x12), (1, 0x34)], index := 0xFFE, keyFrameIn := true }
    s.Inv ∧ 1 ≤ (1 : Reg).val ∧ s.index.toNat + (1 : Reg).val < s.memSize ∧
      ∃ t, exec (.ldMemVx 1) s = .next t := ⟨fresh_inv_with .., by decide, by decide, _, rfl⟩

/-- V3 with jump_uses_vx, V0 without. -/
theorem witness_JumpsGoToTheirTargets :
    (3 : Reg).val =
      (if (fresh .schip).config.quirks.jumpUsesVx then (0x3FF : BitVec 12).toNat / 256 else 0) ∧
    (0 : Reg).val =
      (if (fresh .chip8).config.quirks.jumpUsesVx then (0x3FF : BitVec 12).toNat / 256 else 0) := by
  decide

theorem witness_CallPushesTheReturnAddress :
    (fresh .chip8).spInt ≠ 15 ∧ State.spInt { fresh .chip8 with sp := some 14 } ≠ 15 ∧
    State.spInt { fresh .chip8 with sp := some 15 } = 15 := by decide

theorem witness_RetPopsTheReturnAddress :
    State.spInt { fresh .chip8 with sp := some 0 } = ((0 : Fin 16).val : Int) ∧
    State.spInt { fresh .chip8 with sp := some 15 } = ((15 : Fin 16).val : Int) ∧
    (fresh .chip8).spInt = -1 := by decide

theorem witness_ReturnUndoesCall :
    let s := { fresh .chip8 with sp := some 14 }
    s.spInt ≠ 15 ∧ ∃ t, exec (.call 0x300) s = .next t := ⟨by decide, _, rfl⟩

theorem witness_KeySkipsReadTheKeyOfVx :
    (State.readV { fresh .chip8 with v := regs [(1, 15)] } 1).toNat = (15 : Fin 16).val ∧
    15 < (State.readV { fresh .chip8 with v := regs [(1, 16)] } 1).toNat := by decide

theorem witness_LogicCombinesAndResetsVF :
    (fresh .chip8).config.quirks.vfReset = true ∧ (1 : Reg) ≠ VF ∧
    (fresh .schip).config.quirks.vfReset = false := by decide

theorem witness_FlagInstructions : (0 : Reg) ≠ VF ∧ (14 : Reg) ≠ VF := by decide

theorem witness_BcdStoresThreeDigits :
    let s := { fresh .chip8 with v := regs [(0, 255)], index := 0xFFD, keyFrameIn := true }
    s.Inv ∧ s.index.toNat + 2 < s.memSize := ⟨fresh_inv_with .., by decide⟩

/-- All sixteen registers at the last place they fit, with memory_increment on. -/
theorem witness_BlockStoreWritesV0ToVx :
    let s := { fresh .chip8 with v := regs [(15, 7)], index := 0xFF0, keyFrameIn := true }
    s.Inv ∧ s.index.toNat + (15 : Reg).val < s.memSize ∧ (15 : Reg) ≤ 15 ∧
      s.config.quirks.memoryIncrement = true := ⟨fresh_inv_with .., by decide⟩

theorem witness_BlockLoadReadsV0ToVx :
    let s := { fresh .chip8 with index := 0xFF0 }
    s.index.toNat + (15 : Reg).val < s.memSize ∧ (0 : Reg) ≤ 15 ∧
      s.config.quirks.memoryIncrement = true := by decide

theorem witness_BlockStoreThenLoadIsARoundTrip :
    let s := { fresh .chip8 with v := regs [(15, 7)], index := 0xFF0, keyFrameIn := true }
    s.Inv ∧ s.index.toNat + (15 : Reg).val < s.memSize ∧ ∃ t u : State,
      exec (.ldMemVx 15) s = .next t ∧ u.memory = t.memory ∧ u.config = t.config ∧
        u.index = s.index :=
  ⟨fresh_inv_with .., by decide, _, { (fresh .chip8) with
      memory := _, config := _, index := 0xFF0 }, rfl, rfl, rfl, rfl⟩

theorem witness_LongLoadSetsIndexFromItsOperandWord :
    (let s := poke { fresh .xochip with pc := 0xFFFC } 0xFFFC [0xF0, 0x00, 0xAB, 0xCD]
     s.fault = none ∧ s.schedule = [] ∧ s.config.variant = .xochip ∧ s.pc.toNat + 1 < s.memSize ∧
     s.opAt = 0xF000 ∧ (s.pc + 2).toNat + 1 < s.memSize) ∧
    (let s := poke { fresh .xochip with pc := 0xFFFD } 0xFFFD [0xF0, 0x00, 0x12]
     s.fault = none ∧ s.schedule = [] ∧ s.config.variant = .xochip ∧ s.pc.toNat + 1 < s.memSize ∧
     s.opAt = 0xF000 ∧ s.memSize ≤ (s.pc + 2).toNat + 1) := by decide

/-- V5 down to V2 at the last place they fit; the last register of the range is V2. -/
theorem witness_RangeSaveAndLoad :
    let s := { fresh .xochip with v := regs [(2, 9)], index := 0xFFFC, keyFrameIn := true }
    s.Inv ∧ s.index.toNat + (5 - 2) < s.memSize ∧ ¬(5 : Reg).val ≤ (2 : Reg).val ∧
      (2 : Reg).val = (5 : Reg).val - 3 := ⟨fresh_inv_with .., by decide⟩

theorem witness_RplFlagsSaveAndRestore : (15 : Reg) ≤ 15 ∧ (0 : Reg) ≤ 0 := by decide

theorem witness_TransfersPastMemoryChangeNothing :
    (let s := { fresh .chip8 with index := 0xFFE }; s.memSize ≤ s.index.toNat + 2) ∧
    (let s := { fresh .chip8 with index := 0xFF1 }
     s.memSize ≤ s.index.toNat + (15 : Reg).val ∧ s.memSize ≤ s.index.toNat + 15) ∧
    (let s := { fresh .xochip with index := 0xFFFD }; s.memSize ≤ s.index.toNat + (5 - 2)) ∧
    (let s := { noWait with index := 0xFFC }
     s.config.quirks.displayWait = false ∧ 0 < s.spriteLength 5 ∧
     s.memSize < s.index.toNat + s.spriteLength 5) := by decide

theorem witness_ClearScreenClearsSelectedPlanes : PlaneId.one ∈ (fresh .chip8).selectedPlanes := by
  decide

theorem witness_DrawWaitsForTheKeyFrame :
    let s := { fresh .chip8 with keyFrameIn := false }
    s.config.quirks.displayWait = true ∧ s.keyFrameIn = false := by decide

/-- A sprite whose last byte is the last byte of memory; a machine that selects no plane; both
planes. -/
theorem witness_DrawXorsTheSpriteAndReportsCollision :
    (let s := { fresh .chip8 with v := regs [], index := 0xFFB, keyFrameIn := true }
     s.Inv ∧ s.keyFrameIn = true ∧ s.index.toNat + s.spriteLength 5 ≤ s.memSize ∧
     (PlaneId.one, 0) ∈ s.selectedPlanes.zipIdx ∧ 63 < s.config.variant.bufW) ∧
    State.selectedPlanes { fresh .xochip with activeDrawPlane := .none } = [] ∧
    (PlaneId.two, 1) ∈ (State.selectedPlanes { fresh .xochip with activeDrawPlane := .both }).zipIdx :=
  ⟨⟨fresh_inv_with .., by decide⟩, by decide⟩

theorem witness_DrawingTwiceRestoresEveryPixel :
    let s := { fresh .chip8 with v := regs [], index := 0xFFB, keyFrameIn := true }
    s.Inv ∧ (0 : Reg) ≠ VF ∧ (14 : Reg) ≠ VF ∧ s.keyFrameIn = true ∧
      s.index.toNat + s.spriteLength 5 ≤ s.memSize ∧ s.plane1 = [] ∧ s.plane2 = [] :=
  ⟨fresh_inv_with .., by decide⟩

theorem witness_Scrolls :
    (fresh .xochip).Inv ∧ PlaneId.one ∈ (fresh .xochip).selectedPlanes ∧
      127 < (fresh .xochip).config.variant.bufW ∧ 63 < (fresh .xochip).config.variant.bufH :=
  ⟨fresh_inv _, by decide⟩

theorem witness_PlaneSelectsByTwoBitMask : (3 : Reg).val ≤ 3 ∧ 3 < (4 : Reg).val := by decide

theorem witness_WaitForKeyTakesTheLowestOrWaits :
    (let s := { fresh .chip8 with keys := (Vector.replicate 16 false).set 15 true }
     s.keys.get 15 = true ∧ ∀ j : Fin 16, j < 15 → s.keys.get j = false) ∧
    ∀ k : Fin 16, (fresh .chip8).keys.get k = false := by decide

theorem witness_AudioLoadsThePatternAndPitchItsRegister :
    let s := { fresh .xochip with index := 0xFFF0 }; s.index.toNat + 15 < s.memSize := by decide

end Sys2Proof.Tests
end

section
/-! SUPPORT. The whole-machine rules of the state (10_state.md): what construction leaves, the
invariant of every transition, which instructions write a field, the reach of the key-frame input,
and the display port. -/

namespace Sys2Proof.Machine

/-- A computation in sequence succeeds exactly when its first part does and its second does on the
value of the first. -/
theorem bind_eq_ok {α β : Type} {x : Except Fault α} {f : α → Except Fault β} {b : β} :
    x >>= f = .ok b ↔ ∃ a, x = .ok a ∧ f a = .ok b := by
  cases x with
  | error e => exact ⟨nofun, nofun⟩
  | ok a => exact ⟨fun h => ⟨a, rfl, h⟩, fun ⟨_, ha, hb⟩ => by cases ha; exact hb⟩

/-! ## Every event keeps the invariant -/

/-- The variants of LOW and HIGH have a high-resolution mode (R35, R86). -/
theorem hiresCapable_of_schipUp {v : Variant} (h : VariantSet.schipUp.mem v = true) :
    v.hiresCapable = true := by
  cases v with
  | chip8 => exact absurd h (by decide)
  | schip | xochip => rfl

theorem hasPlane2_iff {v : Variant} : v.hasPlane2 = true ↔ v = .xochip := by
  cases v <;> decide

theorem State.Inv.setHighRes {s : State} (h : s.Inv) (hv : s.config.variant.hiresCapable = true)
    (b : Bool) : State.Inv { s with highResMode := b } :=
  { h with planes := h.planes, highRes := fun hn => absurd (hv.symm.trans hn) (by decide) }

theorem State.Inv.setDrawPlane {s : State} (h : s.Inv)
    (hv : s.config.variant.hasPlane2 = true) (p : DrawPlane) :
    State.Inv { s with activeDrawPlane := p } :=
  { h with planes := h.planes, drawPlane := fun hn => absurd (hv.symm.trans hn) (by decide) }

/-- The invariant's fields one by one, for a state whose other fields alone were written. -/
theorem State.Inv.of_fields {s t : State} (h : s.Inv) (hc : t.config = s.config := by rfl)
    (hm : t.memory = s.memory := by rfl) (h1 : t.plane1 = s.plane1 := by rfl)
    (h2 : t.plane2 = s.plane2 := by rfl)
    (ha : t.activeDrawPlane = s.activeDrawPlane := by rfl)
    (hh : t.highResMode = s.highResMode := by rfl)
    (hi : t.loadedImage = s.loadedImage := by rfl) : t.Inv :=
  h.of_eq hc hm (fun k => by cases k; exacts [h1, h2]) ha hh hi

/-- An instruction of the machine's variant keeps the invariant. -/
theorem exec_keeps_inv {i : Instr} {s t : State} (h : s.Inv)
    (hv : i.variants.mem s.config.variant = true) (ht : exec i s = .next t) : t.Inv := by
  have hf := h.fetched
  cases i
  all_goals simp only [exec] at ht
  all_goals refine h.execute (fun u hu => ?_) ht
  case nop => cases hu; exact hf
  case ldVxNn | addVxNn | ldVxVy | ldVxDt => cases hu; exact hf.writeV _ _
  case rndVxNn x nn =>
    cases hu
    have hdraw : s.fetched.draw.2.Inv := hf.of_fields
    exact hdraw.writeV _ _
  case orVxVy | andVxVy | xorVxVy => cases hu; exact hf.writeLogic _ _
  case addVxVy | subVxVy | shrVxVy | subnVxVy | shlVxVy => cases hu; exact hf.writeResultFlag _ _ _
  case seVxNn | sneVxNn | seVxVy | sneVxVy => cases hu; exact hf.skipIf _
  case jp | jpV0Nnn | ldINnn | addIVx | ldFVx | ldHfVx | ldILong | ldRVx | ldDtVx | ldStVx |
      pitchVx =>
    cases hu; exact hf.of_fields
  case ldVxR => cases hu; exact hf.writeRegs _ _
  case cls => cases hu; exact hf.onSelected fun _ _ => rfl
  case scd => cases hu; exact hf.onSelected fun _ => Plane.wf_scrollDown
  case scu => cases hu; exact hf.onSelected fun _ => Plane.wf_scrollUp
  case scr => cases hu; exact hf.onSelected fun _ => Plane.wf_scrollRight
  case scl => cases hu; exact hf.onSelected fun _ => Plane.wf_scrollLeft
  case low | high => cases hu; exact hf.setHighRes (hiresCapable_of_schipUp hv) _
  case plane x => cases hu; exact hf.setDrawPlane (hasPlane2_iff.mpr (beq_iff_eq.mp hv)) _
  case exit => cases hu; exact hf.exitReset
  case ret => exact hf.popPc hu
  case ldBVx | saveVxVy => exact hf.writeBytes hu
  case ldVxK x =>
    split at hu
    · cases hu; exact hf.writeV _ _
    · cases hu; exact hf.of_fields
  case call nnn =>
    obtain ⟨p, hp, hu⟩ := bind_eq_ok.mp hu
    cases hu
    exact (hf.push hp).of_fields
  case skp | sknp =>
    obtain ⟨k, -, hu⟩ := bind_eq_ok.mp hu
    cases hu
    exact hf.skipIf _
  case ldMemVx x =>
    obtain ⟨m, hm, hu⟩ := bind_eq_ok.mp hu
    cases hu
    exact (hf.writeBytes hm).postIncrement x
  case ldVxMem x =>
    obtain ⟨bs, -, hu⟩ := bind_eq_ok.mp hu
    cases hu
    exact (hf.writeRegs _ bs).postIncrement x
  case loadVxVy x y =>
    obtain ⟨bs, -, hu⟩ := bind_eq_ok.mp hu
    cases hu
    exact hf.writeRegs _ bs
  case audio =>
    obtain ⟨bs, -, hu⟩ := bind_eq_ok.mp hu
    cases hu
    exact hf.of_fields
  case drw x y n =>
    split at hu
    · cases hu; exact hf.of_fields
    · obtain ⟨bs, -, hu⟩ := bind_eq_ok.mp hu
      cases hu
      exact (hf.drawPlanes (State.drawEnv_ok ..) rfl).writeV _ _

theorem State.Inv.stepInstr {s t : State} (h : s.Inv) (ht : s.stepInstr = .next t) : t.Inv := by
  rcases State.stepInstr_cases ht with ⟨rfl, -⟩ | ⟨i, hi, -, hx⟩ | ⟨f, -, -, rfl⟩
  · exact h
  · exact exec_keeps_inv h (State.variants_of_fetchInstr hi) hx
  · exact h.recorded f

theorem State.Inv.event {s t : State} (h : s.Inv) {e : HostEvent} (ht : s.event e = .next t) :
    t.Inv := by
  cases e
  case step kf => exact (h.inputs s.schedule kf).stepInstr ht
  case tickTimers => cases ht; exact h.tickTimers
  case setKey n b => cases ht; exact h.setKey n b
  case load bs => cases ht; exact h.loadEvent bs
  case reset => cases ht; exact s.resetEvent_inv

/-- Settles O12: an instruction's rows exist only in the variants where what it writes is free, and
every shared operation keeps the invariant. -/
theorem everyTransitionKeepsTheInvariant : Obligations.EveryTransitionKeepsTheInvariant := by
  intro s t h ht
  cases hs : s.schedule with
  | nil => exact h.stepInstr (step_nil hs ▸ ht)
  | cons e es => exact (h.inputs es s.keyFrameIn).event (step_cons hs ▸ ht)

/-- Settles O11: every field of the invariant is at its reset value. -/
theorem constructionMeetsTheInvariant : Obligations.ConstructionMeetsTheInvariant :=
  ⟨State.new_inv, State.new_inv Config.default⟩

/-! ## Which fields an instruction writes -/

/-- Every instruction leaves the configuration and the keys alone, EXIT included (R30, R48). -/
theorem exec_config_keys {i : Instr} {s t : State} (h : exec i s = .next t) :
    t.config = s.config ∧ t.keys = s.keys := by
  by_cases hx : i = .exit
  · subst hx; rw [exec_exit] at h; cases h; exact ⟨rfl, rfl⟩
  · rcases exec_frame h hx with hf | ⟨e, rfl⟩
    · exact ⟨hf.config, hf.keys⟩
    · exact ⟨rfl, rfl⟩

theorem State.stepInstr_config_keys {s t : State} (h : s.stepInstr = .next t) :
    t.config = s.config ∧ t.keys = s.keys := by
  rcases State.stepInstr_cases h with ⟨rfl, -⟩ | ⟨i, -, -, hx⟩ | ⟨f, -, -, rfl⟩
  · exact ⟨rfl, rfl⟩
  · exact exec_config_keys hx
  · exact ⟨rfl, rfl⟩

/-- No event changes the configuration, and only `set_key` writes the keys (R30, R48). -/
theorem State.event_config_keys {s t : State} {e : HostEvent} (h : s.event e = .next t) :
    t.config = s.config ∧ ((∀ k b, e ≠ .setKey k b) → t.keys = s.keys) := by
  cases e
  case step kf =>
    obtain ⟨hc, hk⟩ := State.stepInstr_config_keys h
    exact ⟨hc, fun _ => hk⟩
  case tickTimers | reset => cases h; exact ⟨rfl, fun _ => rfl⟩
  case setKey n b =>
    cases h
    rw [State.setKey_eq]
    exact ⟨rfl, fun hn => absurd rfl (hn n b)⟩
  case load bs =>
    cases h
    rcases s.loadEvent_cases bs with hl | ⟨-, hl⟩ <;> rw [hl] <;> exact ⟨rfl, fun _ => rfl⟩

/-- Settles O13: no instruction writes either, and of the host's events only `set_key` does. -/
theorem configurationFixedKeysOnlyFromTheHost :
    Obligations.ConfigurationFixedKeysOnlyFromTheHost := by
  intro s t ht
  cases hs : s.schedule with
  | nil =>
    obtain ⟨hc, hk⟩ := State.stepInstr_config_keys (step_nil hs ▸ ht)
    exact ⟨hc, fun _ => hk⟩
  | cons e es =>
    rw [step_cons hs] at ht
    obtain ⟨hc, hk⟩ := State.event_config_keys ht
    exact ⟨hc, fun hn => hk fun k b he => hn k b es (by rw [he])⟩

/-- The registers an instruction's effects name are those it may write (R23). -/
theorem mayWriteReg_of_effectsOf {q : Quirks} {ps : List PlaneId} {i : Instr} {r : Reg}
    (h : (effectsOf q ps i).regs r) : mayWriteReg q.vfReset r i := by
  cases i
  case ldVxNn | addVxNn | ldVxVy | orVxVy | andVxVy | xorVxVy | addVxVy | subVxVy | shrVxVy |
      subnVxVy | shlVxVy | rndVxNn | drw | ldVxDt | ldVxK | ldVxMem | loadVxVy | ldVxR => exact h
  all_goals exact h.elim

/-- Settles O15: EXIT may write every register, a fault writes none, and else the frame holds. -/
theorem generalRegistersChangeOnlyByTheirWriters :
    Obligations.GeneralRegistersChangeOnlyByTheirWriters := by
  intro i s t r h hr
  by_cases hx : i = .exit
  · subst hx; trivial
  · rcases exec_frame h hx with hf | ⟨e, rfl⟩
    · exact mayWriteReg_of_effectsOf (not_imp_comm.mp (hf.regs r) hr)
    · exact absurd rfl hr

/-! ### The instructions that the effects of a frame name -/

section Writers
variable {q : Quirks} {ps : List PlaneId} {i : Instr}

theorem writes_dt (h : (effectsOf q ps i).dt) : ∃ x, i = .ldDtVx x := by
  cases i
  case ldDtVx x => exact ⟨x, rfl⟩
  all_goals exact h.elim

theorem writes_st (h : (effectsOf q ps i).st) : ∃ x, i = .ldStVx x := by
  cases i
  case ldStVx x => exact ⟨x, rfl⟩
  all_goals exact h.elim

theorem writes_pitch (h : (effectsOf q ps i).pitch) : ∃ x, i = .pitchVx x := by
  cases i
  case pitchVx x => exact ⟨x, rfl⟩
  all_goals exact h.elim

theorem writes_pattern (h : (effectsOf q ps i).pattern) : i = .audio := by
  cases i
  case audio => rfl
  all_goals exact h.elim

theorem writes_rpl (h : (effectsOf q ps i).rpl) : ∃ x, i = .ldRVx x := by
  cases i
  case ldRVx x => exact ⟨x, rfl⟩
  all_goals exact h.elim

theorem writes_drawPlane (h : (effectsOf q ps i).drawPlane) : ∃ x, i = .plane x := by
  cases i
  case plane x => exact ⟨x, rfl⟩
  all_goals exact h.elim

theorem writes_highRes (h : (effectsOf q ps i).highRes) : i = .low ∨ i = .high := by
  cases i
  case low => exact .inl rfl
  case high => exact .inr rfl
  all_goals exact h.elim

theorem writes_stack (h : (effectsOf q ps i).stack) : i = .ret ∨ ∃ a, i = .call a := by
  cases i
  case ret => exact .inl rfl
  case call a => exact .inr ⟨a, rfl⟩
  all_goals exact h.elim

theorem writes_mem {a : Nat} (h : (effectsOf q ps i).mem a) : (∃ x, i = .ldBVx x) ∨
    (∃ x, i = .ldMemVx x) ∨ ∃ x y, i = .saveVxVy x y := by
  cases i
  case ldBVx x => exact .inl ⟨x, rfl⟩
  case ldMemVx x => exact .inr (.inl ⟨x, rfl⟩)
  case saveVxVy x y => exact .inr (.inr ⟨x, y, rfl⟩)
  all_goals exact h.elim

theorem writes_index (h : (effectsOf q ps i).index) : (∃ a, i = .ldINnn a) ∨
    (∃ x, i = .addIVx x) ∨ (∃ x, i = .ldFVx x) ∨ (∃ x, i = .ldHfVx x) ∨ (∃ m, i = .ldILong m) ∨
    (∃ x, i = .ldMemVx x) ∨ ∃ x, i = .ldVxMem x := by
  cases i
  case ldINnn | addIVx | ldFVx | ldHfVx | ldILong | ldMemVx | ldVxMem => simp
  all_goals exact h.elim

theorem writes_planes {k : PlaneId} (h : (effectsOf q ps i).planes k) : i = .cls ∨
    (∃ x y n, i = .drw x y n) ∨ (∃ n, i = .scd n) ∨ (∃ n, i = .scu n) ∨ i = .scr ∨ i = .scl := by
  cases i
  case cls | drw | scd | scu | scr | scl => simp
  all_goals exact h.elim

end Writers

/-- A return moves sp and leaves the entries of the stack (R107). -/
theorem State.popPc_stack {s t : State} (h : s.popPc = .ok t) : t.stack = s.stack := by
  unfold State.popPc at h
  split at h <;> cases h
  rfl

theorem exec_ret_stack {s t : State} (h : exec .ret s = .next t) : t.stack = s.stack := by
  cases hp : s.fetched.popPc with
  | ok u => rw [exec_ret_ok hp] at h; cases h; exact (State.popPc_stack hp :)
  | error e => rw [exec_ret_error hp] at h; cases h; rfl

/-- Settles O14: each clause is a clause of the instruction's frame, but for the stack entries
under RET, whose frame does not tell them from sp. -/
theorem specialRegistersHaveOneWriter : Obligations.SpecialRegistersHaveOneWriter := by
  intro i s t h hx
  rcases exec_frame h hx with hf | ⟨e, rfl⟩
  · refine ⟨?_, ?_, ?_, ?_, ?_, ?_, ?_, ?_, ?_, ?_, ?_, ?_⟩ <;>
      refine or_iff_not_imp_right.mpr fun hn => ?_
    · exact hf.dt (mt writes_dt hn)
    · exact hf.st (mt writes_st hn)
    · exact hf.pitch (mt writes_pitch hn)
    · exact hf.pattern (mt writes_pattern hn)
    · exact hf.rpl (mt writes_rpl hn)
    · exact hf.drawPlane (mt writes_drawPlane hn)
    · exact hf.highRes (mt writes_highRes hn)
    · by_cases hr : i = .ret
      · subst hr; exact exec_ret_stack h
      · exact (hf.stack (mt writes_stack (not_or.mpr ⟨hr, hn⟩))).1
    · exact (hf.stack (mt writes_stack hn)).2
    · exact fun a => hf.mem a (mt writes_mem hn)
    · exact hf.index (mt writes_index hn)
    · exact fun k => hf.planes k (mt writes_planes hn)
  · exact ⟨.inl rfl, .inl rfl, .inl rfl, .inl rfl, .inl rfl, .inl rfl, .inl rfl, .inl rfl, .inl rfl,
      .inl fun _ => rfl, .inl rfl, .inl fun _ => rfl⟩

/-! ## The key-frame input -/

/-- `s` with another level of the key-frame input, and the bit of the running step along with it. -/
def State.withKeyFrame (s : State) (b : Bool) : State := { s with keyFrame := b, keyFrameIn := b }

@[simp] theorem State.withKeyFrame_config (s : State) (b : Bool) :
    (s.withKeyFrame b).config = s.config := rfl

@[simp] theorem State.withKeyFrame_sp (s : State) (b : Bool) : (s.withKeyFrame b).sp = s.sp := rfl

@[simp] theorem State.withKeyFrame_lowestKey (s : State) (b : Bool) :
    (s.withKeyFrame b).lowestKey = s.lowestKey := rfl

/-- From `s` the handler `f` does the same whatever the key frame is, and passes it through. -/
def KeyFrameBlind (f : State → Except Fault State) (s : State) : Prop :=
  ∀ b, f (s.withKeyFrame b) = (f s).map (·.withKeyFrame b)

theorem State.readBytes_withKeyFrame (s : State) (b : Bool) :
    ∀ n a, (s.withKeyFrame b).readBytes a n = s.readBytes a n
  | 0, _ => rfl
  | n + 1, a => by
    rw [State.readBytes, State.readBytes, State.readBytes_withKeyFrame s b n]; rfl

theorem State.writeBytes_withKeyFrame (s : State) (b : Bool) (a : Nat) (bs : List Byte) :
    (s.withKeyFrame b).writeBytes a bs = (s.writeBytes a bs).map (·.withKeyFrame b) := by
  induction bs generalizing s a with
  | nil => rfl
  | cons c bs ih =>
    rw [State.writeBytes, State.writeBytes]
    by_cases ha : a < s.memSize
    · have hs : s.memWrite a c = .ok _ := if_pos ha
      have hk : (s.withKeyFrame b).memWrite a c = .ok _ := if_pos ha
      rw [hs, hk]
      exact ih { s with memory := s.memory.write s.config.resetByte a c } (a + 1)
    · have hs : s.memWrite a c = .error _ := if_neg ha
      have hk : (s.withKeyFrame b).memWrite a c = .error _ := if_neg ha
      rw [hs, hk]; rfl

theorem State.skipIf_withKeyFrame (s : State) (b c : Bool) :
    (s.withKeyFrame b).skipIf c = (s.skipIf c).withKeyFrame b := by cases c <;> rfl

theorem State.writeLogic_withKeyFrame (s : State) (b : Bool) (x : Reg) (r : Byte) :
    (s.withKeyFrame b).writeLogic x r = (s.writeLogic x r).withKeyFrame b := by
  unfold State.writeLogic
  rw [State.withKeyFrame_config]
  split <;> rfl

theorem State.postIncrement_withKeyFrame (s : State) (b : Bool) (x : Reg) :
    (s.withKeyFrame b).postIncrement x = (s.postIncrement x).withKeyFrame b := by
  unfold State.postIncrement
  rw [State.withKeyFrame_config]
  split <;> rfl

theorem State.writeRegs_withKeyFrame (s : State) (b : Bool) (xs : List Reg) (bs : List Byte) :
    (s.withKeyFrame b).writeRegs xs bs = (s.writeRegs xs bs).withKeyFrame b := by
  induction xs generalizing s bs with
  | nil => rfl
  | cons x xs ih =>
    cases bs with
    | nil => rfl
    | cons c bs => exact ih (s.writeV x c) bs

theorem State.onSelected_withKeyFrame (s : State) (b : Bool) (f : Plane → Plane) :
    (s.withKeyFrame b).onSelected f = (s.onSelected f).withKeyFrame b := by
  rw [State.onSelected_eq, State.onSelected_eq]; rfl

theorem drawPlanes_withKeyFrame (e : DrawEnv) (s : State) (b : Bool) :
    drawPlanes e (s.withKeyFrame b) = ((drawPlanes e s).1.withKeyFrame b, (drawPlanes e s).2) := by
  refine Prod.ext ?_ ?_
  · simp only [drawPlanes_eq]; rfl
  · simp only [drawPlanes_count]; rfl

theorem State.push_withKeyFrame (s : State) (b : Bool) (w : Word) :
    (s.withKeyFrame b).push w = (s.push w).map (·.withKeyFrame b) := by
  unfold State.push
  rw [State.withKeyFrame_sp]
  split
  · rfl
  · split <;> rfl

theorem State.popPc_withKeyFrame (s : State) (b : Bool) :
    (s.withKeyFrame b).popPc = s.popPc.map (·.withKeyFrame b) := by
  unfold State.popPc
  rw [State.withKeyFrame_sp]
  split <;> rfl

/-- A value that does not see the key frame, then a part that passes it through. -/
theorem bind_value_withKeyFrame {α : Type} {b : Bool} {x y : Except Fault α}
    {f g : α → Except Fault State} (hx : x = y) (hf : ∀ a, f a = (g a).map (·.withKeyFrame b)) :
    (x >>= f) = (y >>= g).map (·.withKeyFrame b) := by
  subst hx
  cases x with
  | error e => rfl
  | ok a => exact hf a

/-- Two parts in sequence that each pass the key frame through. -/
theorem bind_state_withKeyFrame {b : Bool} {x y : Except Fault State}
    {f : State → Except Fault State} (hx : x = y.map (·.withKeyFrame b))
    (hf : ∀ u, f (u.withKeyFrame b) = (f u).map (·.withKeyFrame b)) :
    (x >>= f) = (y >>= f).map (·.withKeyFrame b) := by
  subst hx
  cases y with
  | error e => rfl
  | ok u => exact hf u

/-- Every instruction but EXIT and a DXYN under display_wait is the run of a handler that does not
see the key frame (R39). -/
theorem exec_keyFrameBlind {i : Instr} {s : State} (hx : i ≠ .exit)
    (h : (∀ x y n, i ≠ .drw x y n) ∨ s.config.quirks.displayWait = false) :
    ∃ f, (∀ u, exec i u = State.execute u f) ∧ KeyFrameBlind f s.fetched := by
  cases i
  all_goals simp only [exec]
  all_goals refine ⟨_, fun _ => rfl, fun b => ?_⟩
  case exit => exact absurd rfl hx
  case nop | ldVxNn | addVxNn | ldVxVy | ldVxDt | rndVxNn | addVxVy | subVxVy | shrVxVy | subnVxVy |
      shlVxVy | jp | jpV0Nnn | ldINnn | addIVx | ldFVx | ldHfVx | ldILong | ldRVx | ldDtVx |
      ldStVx | pitchVx | low | high | plane => rfl
  case orVxVy | andVxVy | xorVxVy => exact congrArg Except.ok (State.writeLogic_withKeyFrame ..)
  case seVxNn | sneVxNn | seVxVy | sneVxVy =>
    exact congrArg Except.ok (State.skipIf_withKeyFrame ..)
  case cls | scd | scu | scr | scl => exact congrArg Except.ok (State.onSelected_withKeyFrame ..)
  case ldVxR => exact congrArg Except.ok (State.writeRegs_withKeyFrame ..)
  case ret => exact State.popPc_withKeyFrame ..
  case ldBVx | saveVxVy => exact State.writeBytes_withKeyFrame ..
  case call => exact bind_state_withKeyFrame (State.push_withKeyFrame ..) fun _ => rfl
  case ldMemVx x =>
    exact bind_state_withKeyFrame (State.writeBytes_withKeyFrame ..) fun u =>
      congrArg Except.ok (State.postIncrement_withKeyFrame u b x)
  case skp | sknp =>
    exact bind_value_withKeyFrame rfl fun k => congrArg Except.ok (State.skipIf_withKeyFrame ..)
  case ldVxK x =>
    rw [State.withKeyFrame_lowestKey]
    cases s.fetched.lowestKey <;> rfl
  case ldVxMem x =>
    refine bind_value_withKeyFrame (State.readBytes_withKeyFrame ..) fun bs => congrArg Except.ok ?_
    rw [State.writeRegs_withKeyFrame, State.postIncrement_withKeyFrame]
  case loadVxVy x y =>
    exact bind_value_withKeyFrame (State.readBytes_withKeyFrame ..) fun bs =>
      congrArg Except.ok (State.writeRegs_withKeyFrame ..)
  case audio => exact bind_value_withKeyFrame (State.readBytes_withKeyFrame ..) fun bs => rfl
  case drw x y n =>
    have hw : s.config.quirks.displayWait = false := h.resolve_left fun hn => hn x y n rfl
    have stalled : ∀ u : State, u.config = s.config → ¬u.drawStalled = true := fun u hu => by
      simp [State.drawStalled, hu, hw]
    rw [if_neg (stalled s.fetched rfl), if_neg (stalled (s.fetched.withKeyFrame b) rfl)]
    refine bind_value_withKeyFrame (State.readBytes_withKeyFrame ..) fun bs => congrArg Except.ok ?_
    rw [drawPlanes_withKeyFrame]
    rfl

/-- Settles O16: a blind handler gives the same end, or the same fault, in both runs. -/
theorem onlyDisplayWaitReadsTheKeyFrame : Obligations.OnlyDisplayWaitReadsTheKeyFrame := by
  intro i s t b ht h
  by_cases hx : i = .exit
  · subst hx
    rw [exec_exit] at ht
    cases ht
    exact ⟨_, exec_exit _, rfl⟩
  · obtain ⟨f, hf, hblind⟩ := exec_keyFrameBlind hx h
    have hb : f (State.fetched { s with keyFrameIn := b }) = (f s.fetched).map (·.withKeyFrame b) :=
      hblind b
    rw [hf] at ht ⊢
    rcases State.execute_eq_next.mp ht with hok | ⟨e, herr, rfl⟩
    · exact ⟨t.withKeyFrame b, State.execute_ok (hb.trans (by rw [hok]; rfl)), rfl⟩
    · exact ⟨_, State.execute_error (hb.trans (by rw [herr]; rfl)), rfl⟩

/-! ## Construction and the display port -/

/-- Settles O17: memory is empty at construction, so each address reads as its reset byte. -/
theorem constructionLeavesTheStatedValues : Obligations.ConstructionLeavesTheStatedValues := by
  intro c
  have hmem : ∀ a, (State.new c).byteAt a = c.resetByte a := fun _ => rfl
  refine ⟨fun r => ?_, rfl, rfl, rfl, rfl, fun k => ?_, fun k x y => ?_, fun a h => ?_,
    fun a h => ?_, fun a h => ?_⟩
  · exact Vector.get_replicate ..
  · exact Vector.get_replicate ..
  · cases k <;> simp [State.pixel, State.plane]
  · rw [hmem, Config.resetByte, dif_pos h]
  · simp [hmem, Config.resetByte, h]
  · rw [hmem, Config.resetByte, dif_neg (by omega), dif_neg (by omega)]

/-- Settles O18: each is a field of the constructed state. -/
theorem constructionLeavesTheDecidedValues : Obligations.ConstructionLeavesTheDecidedValues := by
  intro c
  have hzero : ∀ k : Fin 16, (Vector.replicate 16 (0 : Byte)).get k = 0 := Vector.get_replicate 16 0
  exact ⟨rfl, rfl, rfl, Vector.get_replicate 16 0, hzero, hzero, rfl, rfl, rfl, rfl, rfl, rfl⟩

theorem State.planeBuffer_length (s : State) (k : PlaneId) :
    (s.planeBuffer k).length = s.config.variant.bufW * s.config.variant.bufH := by
  simp [State.planeBuffer, Variant.bufSize]

/-- Entry `y * BUF_W + x` of a shown plane is its pixel at column `x` and row `y` (R33). -/
theorem State.planeBuffer_getElem? (s : State) (k : PlaneId) {x y : Nat}
    (hx : x < s.config.variant.bufW) (hy : y < s.config.variant.bufH) :
    (s.planeBuffer k)[y * s.config.variant.bufW + x]? = some (s.pixel k x y) := by
  have hlt : y * s.config.variant.bufW + x < s.config.variant.bufSize := calc
    y * s.config.variant.bufW + x < (y + 1) * s.config.variant.bufW := by rw [Nat.succ_mul]; omega
    _ ≤ s.config.variant.bufH * s.config.variant.bufW := Nat.mul_le_mul_right _ hy
    _ = s.config.variant.bufSize := Nat.mul_comm ..
  simp [State.planeBuffer, State.pixel, hlt, hx, hy]

/-- Settles O24: both outputs are shown planes, and only XOChip has the second. -/
theorem displayPortIsRowMajor : Obligations.DisplayPortIsRowMajor := by
  intro s
  refine ⟨s.planeBuffer_length .one, fun x y hx hy => s.planeBuffer_getElem? .one hx hy,
    fun hv => ?_, fun hv => ⟨s.planeBuffer .two, ?_, s.planeBuffer_length .two,
      fun x y hx hy => s.planeBuffer_getElem? .two hx hy⟩⟩
  · exact if_neg (mt hasPlane2_iff.mp hv)
  · exact if_pos (hasPlane2_iff.mpr hv)

end Sys2Proof.Machine
end

section
/-! SUPPORT. Memory as the machine sees it (20_memory.md): the faults of fetch and decode, read
after write of bytes and words, a store seen by the next fetch, and transfers that run past MEM_SIZE. -/

namespace Sys2Proof.Machine

/-- Settles O6: the fault of the fetch or of the decode is that of `fetchInstr`, which the step
records. -/
theorem fetchAndDecodeFaultsAreRecorded : Obligations.FetchAndDecodeFaultsAreRecorded := by
  intro s hf hs
  rw [step_nil hs]
  exact ⟨fun h => State.stepInstr_error hf (State.fetchInstr_fetch_error h),
    fun h hd => State.stepInstr_error hf (State.fetchInstr_decode_error h hd)⟩

/-- Settles O49: a transfer reads or writes its bytes one by one from I, so the first address
outside stops it, and the handler's fault discards the rest. -/
theorem transfersPastMemoryChangeNothing : Obligations.TransfersPastMemoryChangeNothing := by
  intro s x y n
  refine ⟨exec_ldBVx_error, fun h => ⟨exec_ldMemVx_error h, exec_ldVxMem_error h⟩, fun h => ?_,
    exec_audio_error, exec_drw_error⟩
  have hl : s.memSize < s.index.toNat + (regRange x y).length := by
    rw [regRange_length]; omega
  exact ⟨exec_saveVxVy_error hl, exec_loadVxVy_error hl⟩

/-! ## Byte and word writes as block writes -/

theorem State.memWrite_eq_writeBytes (s : State) (a : Nat) (b : Byte) :
    s.memWrite a b = s.writeBytes a [b] := (bind_pure (s.memWrite a b)).symm

theorem State.memWrite2_eq_writeBytes (s : State) (a : Nat) (w : Word) :
    s.memWrite2 a w = s.writeBytes a [w.hiByte, w.loByte] :=
  bind_congr fun t => t.memWrite_eq_writeBytes (a + 1) w.loByte

section BlockWrite
variable {s t : State} {a : Nat} {bs : List Byte} (ht : s.writeBytes a bs = .ok t)
include ht

theorem State.eq_of_writeBytes : t = { s with memory := t.memory } := by
  obtain ⟨-, rfl⟩ := State.writeBytes_eq_ok ht
  rfl

theorem State.memSize_of_writeBytes : t.memSize = s.memSize := by
  rw [State.eq_of_writeBytes ht]; rfl

/-- The bytes of a block write are where it put them, in ascending order (R63). -/
theorem State.byteAt_of_writeBytes (h : s.Inv) {k : Nat} (hk : k < bs.length) :
    t.byteAt (a + k) = bs[k] := by
  obtain ⟨hb, rfl⟩ := State.writeBytes_eq_ok ht
  have hl : a + bs.length ≤ s.memSize :=
    hb.resolve_left (List.length_pos_iff.mp (Nat.zero_lt_of_lt hk))
  exact State.byteAt_writeBytes_inside h.memory hl hk

/-- A read outside the block answers as before, a fault included. -/
theorem State.memRead_of_writeBytes {x : Nat} (hx : x < a ∨ a + bs.length ≤ x) :
    t.memRead x = s.memRead x := by
  obtain ⟨-, rfl⟩ := State.writeBytes_eq_ok ht
  simp only [State.memRead, State.byteAt_writeBytes_outside hx]
  rfl

end BlockWrite

theorem State.memWrite_error {s : State} {a : Nat} {b : Byte} (ha : s.memSize ≤ a) :
    s.memWrite a b = .error (.outOfBounds .memory a) := if_neg (Nat.not_lt.mpr ha)

/-- A byte write in memory: the byte reads back, and no other read changes (R62, R63). -/
theorem State.memWrite_ok {s : State} {a : Nat} {b : Byte} (h : s.Inv) (ha : a < s.memSize) :
    ∃ t, s.memWrite a b = .ok t ∧ t.memRead a = .ok b ∧ t.Inv ∧
      (∀ x, x ≠ a → t.memRead x = s.memRead x) ∧ t = { s with memory := t.memory } := by
  have ht : s.writeBytes a [b] = .ok _ := State.writeBytes_ok ha
  refine ⟨_, (s.memWrite_eq_writeBytes a b).trans ht, ?_, h.writeBytes ht, fun x hx => ?_,
    State.eq_of_writeBytes ht⟩
  · rw [State.memRead_ok (State.memSize_of_writeBytes ht ▸ ha)]
    exact congrArg Except.ok (State.byteAt_of_writeBytes ht h Nat.zero_lt_one)
  · exact State.memRead_of_writeBytes ht (by simp only [List.length_singleton]; omega)

/-- A word write in memory: the high byte at the lower address, and it reads back (R63, R64). -/
theorem State.memWrite2_ok {s : State} {a : Nat} {w : Word} (h : s.Inv) (ha : a + 1 < s.memSize) :
    ∃ t, s.memWrite2 a w = .ok t ∧ t.memRead2 a = .ok w ∧ t.byteAt a = w.hiByte ∧
      t.byteAt (a + 1) = w.loByte ∧
      (∀ x, x ≠ a → x ≠ a + 1 → t.memRead x = s.memRead x) ∧ t = { s with memory := t.memory } := by
  have ht : s.writeBytes a [w.hiByte, w.loByte] = .ok _ := State.writeBytes_ok ha
  have hhi := State.byteAt_of_writeBytes ht h (k := 0) Nat.two_pos
  have hlo := State.byteAt_of_writeBytes ht h (k := 1) Nat.one_lt_two
  refine ⟨_, (s.memWrite2_eq_writeBytes a w).trans ht, ?_, hhi, hlo, fun x h0 h1 => ?_,
    State.eq_of_writeBytes ht⟩
  · rw [State.memRead2_ok (State.memSize_of_writeBytes ht ▸ ha)]
    exact congrArg Except.ok ((congrArg₂ wordOfBytes hhi hlo).trans (wordOfBytes_hi_lo w))
  · exact State.memRead_of_writeBytes ht (by simp only [List.length_cons, List.length_nil]; omega)

/-- A word write past the end names the first address out of range (R63, R225). -/
theorem State.memWrite2_error {s : State} {a : Nat} {w : Word} (ha : s.memSize ≤ a + 1) :
    s.memWrite2 a w = .error (.outOfBounds .memory (max a s.memSize)) := by
  rw [State.memWrite2_eq_writeBytes]
  exact State.writeBytes_error Nat.two_pos (Nat.lt_succ_of_le ha)

/-- Settles O25: byte and word writes are block writes of one and two bytes. -/
theorem memoryReadsWhatWasWritten : Obligations.MemoryReadsWhatWasWritten := by
  intro s a b w h
  refine ⟨State.memWrite_ok h, fun ha => ⟨State.memWrite_error ha, State.memRead_error ha⟩,
    fun ha => ?_, fun ha => ⟨State.memWrite2_error ha, State.memRead2_error ha⟩⟩
  obtain ⟨t, ht, hr, hhi, hlo, ho, hm⟩ := State.memWrite2_ok (w := w) h ha
  exact ⟨t, ht, hr, hhi ▸ toNat_hiByte w, hlo ▸ toNat_loByte w, ho, hm⟩

/-! ## A store and the fetch after it -/

theorem State.postIncrement_memSize (s : State) (x : Reg) :
    (s.postIncrement x).memSize = s.memSize := by
  unfold State.postIncrement; split <;> rfl

/-- FX55 puts each register of V0 .. VX at its place from I on (R155). -/
theorem State.byteAt_stored_regsUpTo {s : State} {x r : Reg} (h : s.Inv) (hr : r ≤ x)
    (hl : s.index.toNat + x.val < s.memSize) :
    (s.stored (s.readRegs (regsUpTo x))).byteAt (s.dataAddr r.val) = s.readV r := by
  have hn : (s.readRegs (regsUpTo x)).length = x.val + 1 := by
    rw [State.readRegs_length, regsUpTo_length]
  have hk : r.val < (s.readRegs (regsUpTo x)).length := hn ▸ Nat.lt_succ_of_le hr
  rw [State.byteAt_stored_inside h.memory (by omega) hk, State.readRegs_regsUpTo_getElem hr]

/-- Settles O26: the two bytes the fetch reads are the first two that FX55 stored. -/
theorem fetchSeesAStoreAtOnce : Obligations.FetchSeesAStoreAtOnce := by
  intro s t x h hx hl ht
  rw [exec_ldMemVx_ok hl] at ht
  cases ht
  have hsize := (s.stored (s.readRegs (regsUpTo x))).postIncrement_memSize x
  have hin : s.index.toNat + 1 < s.memSize := by omega
  refine (State.fetchWord_ok (hsize ▸ hin)).trans
    (congrArg Except.ok (congrArg₂ wordOfBytes ?_ ?_))
  · exact (State.postIncrement_byteAt ..).trans (State.byteAt_stored_regsUpTo h (Fin.zero_le x) hl)
  · exact (State.postIncrement_byteAt ..).trans (State.byteAt_stored_regsUpTo (r := 1) h hx hl)

end Sys2Proof.Machine
end

section
/-! SUPPORT. The encoding as a whole (30_encoding.md R80 to R87): a word and the instruction it
decodes to determine each other, the decoder over bytes undoes the encoder, and the words that
decode are those of the opcode table's rows, which are disjoint. -/

namespace Sys2Proof

/-! ## A word from its leading field -/

section LeadingField
variable {op : Word} {o : Nibble} (h : op.d1 = o)
include h

theorem fmtA_of_d1 : fmtA o op.nnn = op := h ▸ (eq_fmtA op).symm

theorem fmtXB_of_d1 : fmtXB o op.x op.nn = op := h ▸ (eq_fmtXB op).symm

theorem fmtXY_of_d1 : fmtXY o op.x op.y op.d4 = op := h ▸ (eq_fmtXY op).symm

end LeadingField

/-! ## A word and the instruction it decodes to -/

/-- The dispatch table gives back an instruction from its word and its operand word; an instruction
of one word is given back whatever word `m` follows (R84, R85). -/
theorem decodeRow_word {i : Instr} (h : i.operandsOk = true) (m : Word) :
    decodeRow i.word (i.operandWords.headD m) = some i := by
  cases i with
  | plane x =>
    have hx : x.val ≤ 3 := of_decide_eq_true h
    simp [decodeRow, decodeF, Instr.word, hx]
  | _ =>
    simp [decodeRow, decode0, decode5, decode8, decodeE, decodeF, Instr.word, Instr.operandWords]

/-- The dispatch table answers only an instruction whose word is the one read (R82, R85). -/
theorem word_of_decodeRow {op m : Word} {i : Instr} (h : decodeRow op m = some i) :
    i.word = op ∧ i.operandsOk = true := by
  unfold decodeRow at h
  rcases eq_some_of_ite h with ⟨h1, h⟩ | ⟨n, h⟩
  · exact word_of_decode0 h1 h
  iterate 2
    rcases eq_some_of_ite_some h with ⟨h1, rfl⟩ | ⟨n, h⟩
    · exact ⟨fmtA_of_d1 h1, rfl⟩
  iterate 2
    rcases eq_some_of_ite_some h with ⟨h1, rfl⟩ | ⟨n, h⟩
    · exact ⟨fmtXB_of_d1 h1, rfl⟩
  rcases eq_some_of_ite h with ⟨h1, h⟩ | ⟨n, h⟩
  · exact word_of_decode5 h1 h
  iterate 2
    rcases eq_some_of_ite_some h with ⟨h1, rfl⟩ | ⟨n, h⟩
    · exact ⟨fmtXB_of_d1 h1, rfl⟩
  rcases eq_some_of_ite h with ⟨h1, h⟩ | ⟨n, h⟩
  · exact word_of_decode8 h1 h
  rcases eq_some_of_ite h with ⟨h1, h⟩ | ⟨n, h⟩
  · obtain ⟨h4, h⟩ := Option.ite_none_right_eq_some.mp h
    cases h
    exact ⟨(congrArg _ h4.symm).trans (fmtXY_of_d1 h1), rfl⟩
  iterate 2
    rcases eq_some_of_ite_some h with ⟨h1, rfl⟩ | ⟨n, h⟩
    · exact ⟨fmtA_of_d1 h1, rfl⟩
  rcases eq_some_of_ite_some h with ⟨h1, rfl⟩ | ⟨n, h⟩
  · exact ⟨fmtXB_of_d1 h1, rfl⟩
  rcases eq_some_of_ite_some h with ⟨h1, rfl⟩ | ⟨n, h⟩
  · exact ⟨fmtXY_of_d1 h1, rfl⟩
  rcases eq_some_of_ite h with ⟨h1, h⟩ | ⟨n, h⟩
  · exact word_of_decodeE h1 h
  have h1 : op.d1 = 0xF := by clear h; bv_omega -- the one value left
  exact word_of_decodeF h1 h

/-- Only F000 has an operand word (R84). -/
theorem Instr.operandWords_eq_nil {i : Instr} (h : i.word ≠ longWord) : i.operandWords = [] := by
  cases i with
  | ldILong m => exact absurd rfl h
  | _ => rfl

theorem Instr.wellFormed_iff {v : Variant} {i : Instr} :
    i.wellFormed v = true ↔ i.variants.mem v = true ∧ i.operandsOk = true := Bool.and_eq_true_iff

/-- An instruction of a variant decodes from its word and its operand word (R85, R86). -/
theorem decodeWord_word {v : Variant} {i : Instr} (h : i.wellFormed v = true) (m : Word) :
    decodeWord v i.word (i.operandWords.headD m) = some i := by
  obtain ⟨hv, hok⟩ := Instr.wellFormed_iff.mp h
  exact decodeWord_eq_some.mpr ⟨decodeRow_word hok m, hv⟩

theorem wellFormed_of_decodeWord {v : Variant} {op m : Word} {i : Instr}
    (h : decodeWord v op m = some i) : i.wellFormed v = true := by
  obtain ⟨hr, hv⟩ := decodeWord_eq_some.mp h
  exact Instr.wellFormed_iff.mpr ⟨hv, (word_of_decodeRow hr).2⟩

/-- What decodes from `op` and the word `m` after it is encoded by as many of the two as the
instruction takes (R84). -/
theorem encode_of_decodeWord {v : Variant} {op m : Word} {i : Instr}
    (h : decodeWord v op m = some i) : encode i = [op, m].take (instrWords v op) := by
  by_cases hop : op = longWord
  · subst hop
    rw [decodeWord_longWord] at h
    obtain ⟨rfl, h⟩ := Option.ite_none_right_eq_some.mp h
    cases h
    rfl
  · obtain ⟨hr, -⟩ := decodeWord_eq_some.mp h
    obtain ⟨hw, -⟩ := word_of_decodeRow hr
    rw [instrWords, if_neg (fun hc => hop hc.1), encode, Instr.operandWords_eq_nil (hw ▸ hop), hw]
    rfl

/-! ## The decoder over bytes -/

theorem instrWords_eq (v : Variant) (op : Word) : instrWords v op = 2 ∨ instrWords v op = 1 :=
  ite_eq_or_eq ..

/-- An instruction of one word does not depend on the word that follows (R84). -/
theorem decodeWord_of_one_word {v : Variant} {op m : Word} {i : Instr}
    (hn : instrWords v op ≠ 2) (h : decodeWord v op m = some i) (m' : Word) :
    decodeWord v op m' = some i := by
  refine (decodeWord_congr (fun hop => ?_) v m' m).trans h
  subst hop
  rw [decodeWord_longWord] at h
  exact hn (if_pos ⟨rfl, (Option.ite_none_right_eq_some.mp h).1⟩)

/-- The decoder succeeds exactly on the bytes of a word that decodes with the word after it, and
takes as many of the two as the instruction has (R64, R84). -/
theorem decode_eq_ok_iff_decodeWord {v : Variant} {bs rest : List Byte} {i : Instr} :
    decode v bs = .ok (i, rest) ↔ ∃ op m, decodeWord v op m = some i ∧
      bs = bytesOfWords ([op, m].take (instrWords v op)) ++ rest := by
  constructor
  · intro h
    match bs with
    | [] | [_] => cases h
    | b0 :: b1 :: tl =>
      by_cases hn : instrWords v (wordOfBytes b0 b1) = 2
      · match tl with
        | [] | [_] => simp [decode, hn] at h
        | b2 :: b3 :: tl =>
          simp only [decode, if_pos hn] at h
          split at h <;> cases h
          exact ⟨_, _, ‹_›, by simp [hn, bytesOfWords]⟩
      · simp only [decode, if_neg hn] at h
        split at h <;> cases h
        exact ⟨_, _, ‹_›, by simp [(instrWords_eq ..).resolve_left hn, bytesOfWords]⟩
  · rintro ⟨op, m, h, rfl⟩
    by_cases hn : instrWords v op = 2
    · simp [decode, bytesOfWords, hn, h]
    · simp [decode, bytesOfWords, (instrWords_eq ..).resolve_left hn, decodeWord_of_one_word hn h]

/-- The decoder undoes the encoder, and the encoder undoes the decoder (R80 to R87). -/
theorem decode_eq_ok_iff {v : Variant} {bs rest : List Byte} {i : Instr} :
    decode v bs = .ok (i, rest) ↔
      i.wellFormed v = true ∧ bs = bytesOfWords (encode i) ++ rest := by
  rw [decode_eq_ok_iff_decodeWord]
  constructor
  · rintro ⟨op, m, h, rfl⟩
    exact ⟨wellFormed_of_decodeWord h, by rw [encode_of_decodeWord h]⟩
  · rintro ⟨hwf, rfl⟩
    have h := decodeWord_word hwf 0
    exact ⟨_, _, h, by rw [encode_of_decodeWord h]⟩

/-- Settles O1: a well-formed instruction decodes from its word and its operand word, and the bytes
of these are its encoding. -/
theorem decodeOfEncodeIsIdentity : Obligations.DecodeOfEncodeIsIdentity :=
  fun _ _ _ h => decode_eq_ok_iff.mpr ⟨h, rfl⟩

/-- Settles O2: the word that decodes to an instruction is that instruction's own, and the decoder
takes as many words as its encoding has. -/
theorem decodedBytesAreTheEncoding : Obligations.DecodedBytesAreTheEncoding :=
  fun _ _ _ _ => decode_eq_ok_iff.mp

/-! ## The opcode table -/

/-- The two rows differ in a bit that both fix. -/
def Row.Conflicts (r r' : Row) : Prop := r.bits &&& r'.mask ≠ r'.bits &&& r.mask

theorem Row.not_conflicts_of_matchesWord {r r' : Row} {op : Word} (h : r.matchesWord op = true)
    (h' : r'.matchesWord op = true) : ¬ r.Conflicts r' := by
  rw [Row.matchesWord, beq_iff_eq] at h h'
  rw [Row.Conflicts, ← h, ← h', BitVec.and_assoc, BitVec.and_assoc, BitVec.and_comm r.mask,
    ne_eq, not_not]

/-- Any two rows of the table conflict (R85). -/
theorem opcodeTable_pairwise_conflicts : opcodeTable.Pairwise Row.Conflicts := by
  unfold Row.Conflicts
  decide

/-- A list holds at most one entry with a property that no two of its entries share. -/
theorem countP_le_one_of_pairwise {α : Type} {p : α → Bool} {l : List α}
    (h : l.Pairwise fun a b => p a = true → ¬ p b = true) : l.countP p ≤ 1 := by
  induction h with
  | nil => exact Nat.zero_le 1
  | @cons a l ha _ ih =>
    by_cases hp : p a = true
    · rw [List.countP_cons_of_pos hp, List.countP_eq_zero.mpr fun b hb => ha b hb hp]
    · rwa [List.countP_cons_of_neg hp]

/-! ### The words of a row -/

section RowWords
variable {op : Word} {vs : VariantSet}

theorem eq_of_matches_full {w : Word} (h : Row.matchesWord ⟨w, 0xFFFF, vs⟩ op = true) : w = op :=
  (beq_iff_eq.mp h).symm.trans BitVec.and_allOnes

theorem fmtO_of_matches {a b c : Nibble}
    (h : Row.matchesWord ⟨fmtO a b c 0, fmtO 15 15 15 0, vs⟩ op = true) :
    fmtO a b c op.d4 = op := by
  simp only [Row.matchesWord_iff, d1_fmtO, d2_fmtO, d3_fmtO, and_full_nibble] at h
  obtain ⟨rfl, rfl, rfl, -⟩ := h
  exact (eq_fmtO op).symm

theorem d1_of_matches {o : Nibble}
    (h : Row.matchesWord ⟨fmtO o 0 0 0, fmtO 15 0 0 0, vs⟩ op = true) : op.d1 = o := by
  simpa only [d1_fmtO, and_full_nibble] using ((Row.matchesWord_iff ..).mp h).1

theorem fmtXY_of_matches {o f : Nibble}
    (h : Row.matchesWord ⟨fmtO o 0 0 f, fmtO 15 0 0 15, vs⟩ op = true) :
    fmtXY o op.x op.y f = op := by
  simp only [Row.matchesWord_iff, d1_fmtO, d4_fmtO, and_full_nibble] at h
  obtain ⟨rfl, -, -, rfl⟩ := h
  exact (eq_fmtXY op).symm

theorem fmtXB_of_matches {o : Nibble} {nn : Byte} (k : Reg)
    (h : Row.matchesWord ⟨fmtXB o 0 nn, fmtXB 15 k 255, vs⟩ op = true) :
    fmtXB o op.x nn = op := by
  have h := beq_iff_eq.mp h
  have h1 : op.d1 = o := by
    simpa only [d1_and, d1_fmtXB, and_full_nibble] using congrArg Word.d1 h
  have hn : op.nn &&& 255 = nn := by
    simpa only [nn_and, nn_fmtXB] using congrArg Word.nn h
  rw [← h1, ← hn, show op.nn &&& 255 = op.nn from BitVec.and_allOnes]
  exact (eq_fmtXB op).symm

/-- The bound of FN01's mask is the row's two extra fixed bits (R85, R184). -/
theorem operandsOk_plane_of_matches (h : Row.matchesWord ⟨0xF001, 0xFCFF, vs⟩ op = true) :
    (Instr.plane op.x).operandsOk = true := by
  have key : ∀ d : Nibble, d &&& (0xFCFF : Word).d2 = (0xF001 : Word).d2 → d.toNat ≤ 3 := by
    decide
  obtain ⟨-, h2, -, -⟩ := (Row.matchesWord_iff ..).mp h
  exact decide_eq_true (key op.d2 h2)

end RowWords

/-- Every word of a row is the word of an instruction with the row's variant set; `m` is the word
that follows, which F000 takes as its operand (R84 to R86). -/
theorem exists_instr_of_matchesWord (op m : Word) : ∀ r ∈ opcodeTable, r.matchesWord op = true →
    ∃ i : Instr, i.word = op ∧ i.operandWords.headD m = m ∧ i.operandsOk = true ∧
      i.variants = r.variants := by
  simp only [opcodeTable, List.cons_append, List.nil_append, List.forall_mem_cons]
  exact ⟨fun h => ⟨.nop, eq_of_matches_full h, rfl, rfl, rfl⟩,
    fun h => ⟨.cls, eq_of_matches_full h, rfl, rfl, rfl⟩,
    fun h => ⟨.ret, eq_of_matches_full h, rfl, rfl, rfl⟩,
    fun h => ⟨.scd op.d4, fmtO_of_matches h, rfl, rfl, rfl⟩,
    fun h => ⟨.scu op.d4, fmtO_of_matches h, rfl, rfl, rfl⟩,
    fun h => ⟨.scr, eq_of_matches_full h, rfl, rfl, rfl⟩,
    fun h => ⟨.scl, eq_of_matches_full h, rfl, rfl, rfl⟩,
    fun h => ⟨.exit, eq_of_matches_full h, rfl, rfl, rfl⟩,
    fun h => ⟨.low, eq_of_matches_full h, rfl, rfl, rfl⟩,
    fun h => ⟨.high, eq_of_matches_full h, rfl, rfl, rfl⟩,
    fun h => ⟨.jp op.nnn, fmtA_of_d1 (d1_of_matches h), rfl, rfl, rfl⟩,
    fun h => ⟨.call op.nnn, fmtA_of_d1 (d1_of_matches h), rfl, rfl, rfl⟩,
    fun h => ⟨.seVxNn op.x op.nn, fmtXB_of_d1 (d1_of_matches h), rfl, rfl, rfl⟩,
    fun h => ⟨.sneVxNn op.x op.nn, fmtXB_of_d1 (d1_of_matches h), rfl, rfl, rfl⟩,
    fun h => ⟨.seVxVy op.x op.y, fmtXY_of_matches h, rfl, rfl, rfl⟩,
    fun h => ⟨.saveVxVy op.x op.y, fmtXY_of_matches h, rfl, rfl, rfl⟩,
    fun h => ⟨.loadVxVy op.x op.y, fmtXY_of_matches h, rfl, rfl, rfl⟩,
    fun h => ⟨.ldVxNn op.x op.nn, fmtXB_of_d1 (d1_of_matches h), rfl, rfl, rfl⟩,
    fun h => ⟨.addVxNn op.x op.nn, fmtXB_of_d1 (d1_of_matches h), rfl, rfl, rfl⟩,
    fun h => ⟨.ldVxVy op.x op.y, fmtXY_of_matches h, rfl, rfl, rfl⟩,
    fun h => ⟨.orVxVy op.x op.y, fmtXY_of_matches h, rfl, rfl, rfl⟩,
    fun h => ⟨.andVxVy op.x op.y, fmtXY_of_matches h, rfl, rfl, rfl⟩,
    fun h => ⟨.xorVxVy op.x op.y, fmtXY_of_matches h, rfl, rfl, rfl⟩,
    fun h => ⟨.addVxVy op.x op.y, fmtXY_of_matches h, rfl, rfl, rfl⟩,
    fun h => ⟨.subVxVy op.x op.y, fmtXY_of_matches h, rfl, rfl, rfl⟩,
    fun h => ⟨.shrVxVy op.x op.y, fmtXY_of_matches h, rfl, rfl, rfl⟩,
    fun h => ⟨.subnVxVy op.x op.y, fmtXY_of_matches h, rfl, rfl, rfl⟩,
    fun h => ⟨.shlVxVy op.x op.y, fmtXY_of_matches h, rfl, rfl, rfl⟩,
    fun h => ⟨.sneVxVy op.x op.y, fmtXY_of_matches h, rfl, rfl, rfl⟩,
    fun h => ⟨.ldINnn op.nnn, fmtA_of_d1 (d1_of_matches h), rfl, rfl, rfl⟩,
    fun h => ⟨.jpV0Nnn op.nnn, fmtA_of_d1 (d1_of_matches h), rfl, rfl, rfl⟩,
    fun h => ⟨.rndVxNn op.x op.nn, fmtXB_of_d1 (d1_of_matches h), rfl, rfl, rfl⟩,
    fun h => ⟨.drw op.x op.y op.d4, fmtXY_of_d1 (d1_of_matches h), rfl, rfl, rfl⟩,
    fun h => ⟨.skp op.x, fmtXB_of_matches 0 h, rfl, rfl, rfl⟩,
    fun h => ⟨.sknp op.x, fmtXB_of_matches 0 h, rfl, rfl, rfl⟩,
    fun h => ⟨.ldILong m, eq_of_matches_full h, rfl, rfl, rfl⟩,
    fun h => ⟨.plane op.x, fmtXB_of_matches 12 h, rfl, operandsOk_plane_of_matches h, rfl⟩,
    fun h => ⟨.audio, eq_of_matches_full h, rfl, rfl, rfl⟩,
    fun h => ⟨.ldVxDt op.x, fmtXB_of_matches 0 h, rfl, rfl, rfl⟩,
    fun h => ⟨.ldVxK op.x, fmtXB_of_matches 0 h, rfl, rfl, rfl⟩,
    fun h => ⟨.ldDtVx op.x, fmtXB_of_matches 0 h, rfl, rfl, rfl⟩,
    fun h => ⟨.ldStVx op.x, fmtXB_of_matches 0 h, rfl, rfl, rfl⟩,
    fun h => ⟨.addIVx op.x, fmtXB_of_matches 0 h, rfl, rfl, rfl⟩,
    fun h => ⟨.ldFVx op.x, fmtXB_of_matches 0 h, rfl, rfl, rfl⟩,
    fun h => ⟨.ldHfVx op.x, fmtXB_of_matches 0 h, rfl, rfl, rfl⟩,
    fun h => ⟨.ldBVx op.x, fmtXB_of_matches 0 h, rfl, rfl, rfl⟩,
    fun h => ⟨.pitchVx op.x, fmtXB_of_matches 0 h, rfl, rfl, rfl⟩,
    fun h => ⟨.ldMemVx op.x, fmtXB_of_matches 0 h, rfl, rfl, rfl⟩,
    fun h => ⟨.ldVxMem op.x, fmtXB_of_matches 0 h, rfl, rfl, rfl⟩,
    fun h => ⟨.ldRVx op.x, fmtXB_of_matches 0 h, rfl, rfl, rfl⟩,
    fun h => ⟨.ldVxR op.x, fmtXB_of_matches 0 h, rfl, rfl, rfl⟩,
    List.forall_mem_nil _⟩

/-- At most one row matches a word (R85). -/
theorem countP_matchesWord_le_one (op : Word) :
    opcodeTable.countP (fun r => r.matchesWord op) ≤ 1 :=
  countP_le_one_of_pairwise <| opcodeTable_pairwise_conflicts.imp fun hc h h' =>
    Row.not_conflicts_of_matchesWord h h' hc

/-- The word of every instruction with operands in range is a word of a row with the instruction's
variant set (R85, R86). -/
theorem Laws.RowMatch.all : ∀ i : Instr, Laws.RowMatch.Statement i
  | .nop => nop | .cls => cls | .ret => ret | .scd n => scd n | .scu n => scu n | .scr => scr
  | .scl => scl | .exit => exit | .low => low | .high => high | .jp nnn => jp nnn
  | .call nnn => call nnn | .seVxNn x nn => seVxNn x nn | .sneVxNn x nn => sneVxNn x nn
  | .seVxVy x y => seVxVy x y | .saveVxVy x y => saveVxVy x y | .loadVxVy x y => loadVxVy x y
  | .ldVxNn x nn => ldVxNn x nn | .addVxNn x nn => addVxNn x nn | .ldVxVy x y => ldVxVy x y
  | .orVxVy x y => orVxVy x y | .andVxVy x y => andVxVy x y | .xorVxVy x y => xorVxVy x y
  | .addVxVy x y => addVxVy x y | .subVxVy x y => subVxVy x y | .shrVxVy x y => shrVxVy x y
  | .subnVxVy x y => subnVxVy x y | .shlVxVy x y => shlVxVy x y | .sneVxVy x y => sneVxVy x y
  | .ldINnn nnn => ldINnn nnn | .jpV0Nnn nnn => jpV0Nnn nnn | .rndVxNn x nn => rndVxNn x nn
  | .drw x y n => drw x y n | .skp x => skp x | .sknp x => sknp x | .ldILong m => ldILong m
  | .plane x => plane x | .audio => audio | .ldVxDt x => ldVxDt x | .ldVxK x => ldVxK x
  | .ldDtVx x => ldDtVx x | .ldStVx x => ldStVx x | .addIVx x => addIVx x | .ldFVx x => ldFVx x
  | .ldHfVx x => ldHfVx x | .ldBVx x => ldBVx x | .pitchVx x => pitchVx x
  | .ldMemVx x => ldMemVx x | .ldVxMem x => ldVxMem x | .ldRVx x => ldRVx x | .ldVxR x => ldVxR x

/-- Settles O3: an instruction's word matches a row with its variant set, a word of a row is the
word of such an instruction, and two rows differ in a bit that both fix. -/
theorem decodeAcceptsExactlyTheTable : Obligations.DecodeAcceptsExactlyTheTable := by
  refine ⟨fun v op m => ?_, countP_matchesWord_le_one⟩
  rw [Option.isSome_iff_exists]
  constructor
  · rintro ⟨i, hi⟩
    obtain ⟨hr, hv⟩ := decodeWord_eq_some.mp hi
    obtain ⟨rfl, hok⟩ := word_of_decodeRow hr
    obtain ⟨r, hmem, hmatch, hvs⟩ := Laws.RowMatch.all i hok
    exact ⟨r, hmem, hmatch, hvs ▸ hv⟩
  · rintro ⟨r, hmem, hmatch, hv⟩
    obtain ⟨i, rfl, hm, hok, hvs⟩ := exists_instr_of_matchesWord op m r hmem hmatch
    have hd := decodeWord_word (Instr.wellFormed_iff.mpr ⟨hvs ▸ hv, hok⟩) m
    exact ⟨i, hm ▸ hd⟩

/-- Settles O4: the decoder evaluates on each of the eight words. -/
theorem exampleWordsDecode : Obligations.ExampleWordsDecode := by
  unfold Obligations.ExampleWordsDecode
  decide

end Sys2Proof
end

section
/-! SUPPORT. Control flow (40_flow.md): the step and its look-ahead, the rows of the flow
instructions, jumps, the return stack, skips and the exit reset. -/

namespace Sys2Proof.Machine

/-! ## The step and the look-ahead -/

/-- Settles O5: the word at pc is what the fetch decodes, and a scheduled `step` changes only the
host's inputs, which the fetch does not read. -/
theorem stepRunsTheDecodedInstruction : Obligations.StepRunsTheDecodedInstruction := by
  intro s i hf hp op p hm hd
  refine ⟨fun hs => ?_, fun kf es hs => ?_⟩
  · rw [step_nil hs]
    exact State.stepInstr_ok hf (State.fetchInstr_ok hp hm hd)
  · rw [step_cons hs]
    exact State.stepInstr_ok (s := { s with schedule := es, keyFrameIn := kf }) hf
      (State.fetchInstr_ok hp hm hd)

theorem wordOfBytes_inj {a b c d : Byte} : wordOfBytes a b = wordOfBytes c d ↔ a = c ∧ b = d := by
  refine ⟨fun h => ⟨?_, ?_⟩, fun ⟨ha, hb⟩ => by rw [ha, hb]⟩
  · simpa only [hiByte_wordOfBytes] using congrArg Word.hiByte h
  · simpa only [loByte_wordOfBytes] using congrArg Word.loByte h

/-- Settles O7: the look-ahead compares the word in memory with the two bytes of F000. -/
theorem lookaheadSeesF000InEveryVariant : Obligations.LookaheadSeesF000InEveryVariant := by
  intro s pc
  have hlong : longWord = wordOfBytes 0xF0 0x00 := rfl
  rw [State.lookahead_eq, Bool.and_eq_true, decide_eq_true_iff, beq_iff_eq, hlong, wordOfBytes_inj]

/-! ## Rows and plain moves of pc -/

/-- A one-word instruction with operands in range has a row: its word, in its variant set
(R84 to R86). -/
theorem hasRow_word {i : Instr} (hok : i.operandsOk = true) (hone : i.operandWords = []) :
    HasRow i i.word i.variants :=
  HasRow.of_decodeRow (fun m => by simpa only [hone, List.headD_nil] using decodeRow_word hok m) rfl

/-- Settles O27: the state after the fetch is the result. -/
theorem nopOnlyAdvances : Obligations.NopOnlyAdvances :=
  ⟨hasRow_word (i := .nop) rfl rfl, fun s => ⟨_, exec_nop s, rfl, Frame.fetched {} s⟩⟩

theorem toNat_setWidth_nnn (nnn : BitVec 12) : (nnn.setWidth 16).toNat = nnn.toNat :=
  BitVec.toNat_setWidth_of_le (by decide)

/-- The target of BNNN does not wrap: 4095 + 255 is a 16-bit number (R114). -/
theorem toNat_jumpTarget (nnn : BitVec 12) (b : Byte) :
    (nnn.setWidth 16 + b.setWidth 16 : Word).toNat = nnn.toNat + b.toNat := by
  bv_omega

/-- BNNN adds V0, or under jump_uses_vx the register of the high nibble of NNN (R114). -/
theorem State.val_jumpReg (s : State) (nnn : BitVec 12) :
    (s.jumpReg nnn).val = if s.config.quirks.jumpUsesVx then nnn.toNat / 256 else 0 := by
  unfold State.jumpReg
  split
  · have := nnn.isLt
    change (nnn.extractLsb' 8 4).toNat = _
    rw [BitVec.extractLsb'_toNat, Nat.shiftRight_eq_div_pow]
    omega
  · rfl

/-- Settles O28: both jumps only set pc, and neither target passes 16 bits. -/
theorem jumpsGoToTheirTargets : Obligations.JumpsGoToTheirTargets := by
  refine ⟨fun nnn => ⟨hasRow_word (i := .jp nnn) rfl rfl, hasRow_word (i := .jpV0Nnn nnn) rfl rfl⟩,
    fun s nnn => ⟨?_, fun r hr => ?_⟩⟩
  · exact ⟨_, exec_jp nnn s, toNat_setWidth_nnn nnn, (Frame.fetched {} s).setPc _⟩
  · obtain rfl : r = s.jumpReg nnn := Fin.ext (hr.trans (s.val_jumpReg nnn).symm)
    exact ⟨_, exec_jpV0Nnn nnn s, toNat_jumpTarget nnn _, (Frame.fetched {} s).setPc _⟩

/-! ## The return stack -/

theorem State.neg_one_le_spInt (s : State) : -1 ≤ s.spInt := by
  unfold State.spInt
  split <;> omega

/-- A stack that is not empty has a top entry (R27). -/
theorem State.exists_top {s : State} (h : 0 ≤ s.spInt) : ∃ k : Fin 16, s.spInt = k.val := by
  unfold State.spInt at *
  split at h
  · omega
  · exact ⟨_, rfl⟩

/-- sp as an integer determines it (R27). -/
theorem State.sp_eq_of_spInt_eq {s t : State} (h : s.spInt = t.spInt) : s.sp = t.sp := by
  unfold State.spInt at h
  cases hs : s.sp <;> cases ht : t.sp <;> simp only [hs, ht] at h
  · rfl
  · omega
  · omega
  · exact congrArg some (Fin.ext (by omega))

/-- A pop takes one off sp, that of the bottom entry leaving -1 (R107). -/
theorem State.spInt_of_popPc {s t : State} {k : Fin 16} (hk : s.spInt = k.val)
    (h : s.popPc = .ok t) : t.spInt = s.spInt - 1 := by
  rw [State.popPc_ok hk] at h
  cases h
  rw [hk]
  by_cases h0 : k.val = 0
  · simp [State.spInt, h0]
  · simp only [State.spInt, if_neg h0]
    omega

/-- Settles O29: CALL is the push of A + 2, then the jump. -/
theorem callPushesTheReturnAddress : Obligations.CallPushesTheReturnAddress := by
  refine ⟨fun nnn => hasRow_word (i := .call nnn) rfl rfl, fun s nnn => ⟨fun h => ?_, fun h => ?_⟩⟩
  · obtain ⟨k, hk, hpush⟩ := State.push_ok (s := s.fetched) h (s.pc + 2)
    have hframe : Frame { stack := True } s _ := (Frame.fetched _ s).push trivial hpush
    refine ⟨_, exec_call_ok hpush, toNat_setWidth_nnn nnn, hk, fun j => ?_, hframe.setPc _⟩
    change (s.stack.set k.val (s.pc + 2)).get j = if (j.val : Int) = k.val then s.pc + 2 else _
    simp only [Vector.get_eq_getElem, Vector.getElem_set, Int.natCast_inj, eq_comm]
  · exact exec_call_error (State.push_full (s := s.fetched) h _)

/-- Settles O30: RET is the pop, which reads the top entry and writes none. -/
theorem retPopsTheReturnAddress : Obligations.RetPopsTheReturnAddress := by
  refine ⟨hasRow_word (i := .ret) rfl rfl, fun s => ⟨fun k hk => ?_, fun h => ?_⟩⟩
  · have hpop := State.popPc_ok (s := s.fetched) hk
    exact ⟨_, exec_ret_ok hpop, rfl, State.spInt_of_popPc (s := s.fetched) hk hpop, rfl,
      (Frame.fetched _ s).popPc trivial hpop⟩
  · exact exec_ret_error (State.popPc_empty (s := s.fetched) h)

/-- Settles O31: the entry that the call pushes is the top one, and the return takes one off the
depth that the call added one to. -/
theorem returnUndoesCall : Obligations.ReturnUndoesCall := by
  intro s t nnn h ht
  obtain ⟨t', ht', -, hdepth, hstack, -⟩ := (callPushesTheReturnAddress.2 s nnn).1 h
  obtain rfl : t' = t := Host.Outcome.next.inj (ht'.symm.trans ht)
  have hlow := s.neg_one_le_spInt
  obtain ⟨k, hk⟩ := State.exists_top (s := t') (by omega)
  obtain ⟨u, hu, hpc, hdepth', -⟩ := (retPopsTheReturnAddress.2 t').1 k hk
  refine ⟨u, hu, ?_, State.sp_eq_of_spInt_eq (by omega)⟩
  rw [hpc, hstack k, if_pos hk.symm]

/-! ## Skips -/

/-- An instruction that ends in a skip goes where the skip goes and changes nothing else (R105). -/
theorem exec_of_skipIf {i : Instr} {s : State} {c : Bool}
    (h : exec i s = .next (s.fetched.skipIf c)) :
    ∃ t, exec i s = .next t ∧ t.pc = skipTarget s c ∧ Frame {} s t :=
  ⟨_, h, s.skipIf_fetched_pc c, (Frame.fetched {} s).skipIf c⟩

/-- Settles O32: each is a skip on its comparison. -/
theorem registerSkipsStepOverTheNextInstruction :
    Obligations.RegisterSkipsStepOverTheNextInstruction := by
  refine ⟨fun x y nn => ⟨hasRow_word (i := .seVxNn x nn) rfl rfl,
      hasRow_word (i := .sneVxNn x nn) rfl rfl, hasRow_word (i := .seVxVy x y) rfl rfl,
      hasRow_word (i := .sneVxVy x y) rfl rfl⟩,
    fun s x y nn => ⟨exec_of_skipIf (exec_seVxNn x nn s), ?_,
      exec_of_skipIf (exec_seVxVy x y s), ?_⟩⟩
  · rw [decide_not]
    exact exec_of_skipIf (exec_sneVxNn x nn s)
  · rw [decide_not]
    exact exec_of_skipIf (exec_sneVxVy x y s)

/-- Settles O33: a skip on the key, after the bounds check of its index. -/
theorem keySkipsReadTheKeyOfVx : Obligations.KeySkipsReadTheKeyOfVx := by
  refine ⟨fun x => ⟨hasRow_word (i := .skp x) rfl rfl, hasRow_word (i := .sknp x) rfl rfl⟩,
    fun s x => ⟨fun k hk => ⟨?_, ?_⟩, fun h => ⟨exec_skp_error h, exec_sknp_error h⟩⟩⟩
  · exact exec_of_skipIf (exec_skp_ok hk)
  · exact exec_of_skipIf (exec_sknp_ok hk)

/-! ## The exit reset -/

/-- The loaded image ends within memory (R42, R253). -/
theorem State.Inv.image_end {s : State} (h : s.Inv) :
    loadBase + s.loadedImage.length ≤ s.memSize := by
  have hi := h.image
  have hb : loadBase ≤ s.memSize := loadBase_le s.config.variant
  omega

/-- The exit reset writes the image from LOAD_BASE on (R256). -/
theorem State.byteAt_exitReset_inside {s : State} (h : s.Inv) {k : Nat}
    (hk : k < s.loadedImage.length) : s.exitReset.byteAt (loadBase + k) = s.loadedImage[k] :=
  Memory.read_writeBytes_inside s.resetEvent_inv.memory h.image_end hk

/-- Outside the image the exit reset leaves memory as a reset does (R251, R256). -/
theorem State.byteAt_exitReset_outside {s : State} {a : Nat}
    (h : a < loadBase ∨ loadBase + s.loadedImage.length ≤ a) :
    s.exitReset.byteAt a = s.config.resetByte a := Memory.read_writeBytes_outside h

/-- Settles O20: what the exit reset does not keep is as construction leaves it, and the image is
written over the memory of a reset. -/
theorem exitRestartsTheLoadedProgram : Obligations.ExitRestartsTheLoadedProgram := by
  refine ⟨hasRow_word (i := .exit) rfl rfl, fun s => ?_⟩
  obtain ⟨hv, hpc, hsp, hfault, -, -, hpixel, -⟩ := constructionLeavesTheStatedValues s.config
  obtain ⟨hindex, hdt, hst, hstack, -, hpattern, hpitch, hplane, hres, hkf, hwide, -⟩ :=
    constructionLeavesTheDecidedValues s.config
  exact ⟨_, exec_exit s, rfl, rfl, rfl, rfl, rfl, rfl, rfl, hv, hpc, hindex, hsp, hstack, hdt, hst,
    hpixel, hplane, hres, hpattern, hpitch, hkf, hwide, hfault,
    fun h _ hk => State.byteAt_exitReset_inside h.fetched hk,
    fun _ ha => State.byteAt_exitReset_outside (s := s.fetched) ha⟩

end Sys2Proof.Machine
end

section
/-! SUPPORT. The ALU (41_alu.md): the flags as numbers, and the three shapes of an ALU instruction,
a register write, a logic result, a result with its flag. -/

namespace Sys2Proof.Machine

/-! ## Flags and results as numbers -/

/-- The carry is 1 exactly past 255 (R137). -/
theorem toNat_carryFlag (a b : Byte) :
    (carryFlag a b).toNat = if a.toNat + b.toNat > 255 then 1 else 0 := by
  simp only [carryFlag, toNat_flagByte, decide_eq_true_eq]

/-- The not-borrow is 0 exactly when the subtrahend is the larger (R138, R140). -/
theorem toNat_notBorrowFlag (a b : Byte) :
    (notBorrowFlag a b).toNat = if a.toNat < b.toNat then 0 else 1 := by
  simp only [notBorrowFlag, toNat_flagByte, decide_eq_true_eq, ← Nat.not_lt, ite_not]

/-- A right shift drops the lowest bit (R139). -/
theorem toNat_shrFlag (a : Byte) : (shrFlag a).toNat = a.toNat % 2 := by
  have hmod := Nat.mod_two_eq_zero_or_one a.toNat
  simp only [shrFlag, toNat_flagByte, BitVec.getLsbD, Nat.testBit_zero, decide_eq_true_eq]
  split <;> omega

/-- A left shift drops the highest bit (R141). -/
theorem toNat_shlFlag (a : Byte) : (shlFlag a).toNat = a.toNat / 128 := by
  have ha := a.isLt
  simp only [shlFlag, toNat_flagByte, BitVec.getLsbD, Nat.testBit_eq_decide_div_mod_eq,
    decide_eq_true_eq]
  split <;> omega

/-- The difference modulo 256, with the minuend first (R138, R140). -/
theorem toNat_sub_byte (a b : Byte) : (a - b).toNat = (256 + a.toNat - b.toNat) % 256 := by
  bv_omega

theorem toNat_shiftRight_one (a : Byte) : (a >>> 1).toNat = a.toNat / 2 :=
  (BitVec.toNat_ushiftRight a 1).trans (Nat.shiftRight_eq_div_pow _ 1)

theorem toNat_shiftLeft_one (a : Byte) : (a <<< 1).toNat = 2 * a.toNat % 256 := by
  rw [BitVec.toNat_shiftLeft, Nat.shiftLeft_eq, Nat.pow_one, Nat.mul_comm]

/-! ## Register writes without a flag -/

/-- Settles O34: each is one write to V[X], and the sum of two bytes is modulo 256. -/
theorem immediateLoadAndAdd : Obligations.ImmediateLoadAndAdd := by
  refine ⟨fun x nn => ⟨hasRow_word (i := .ldVxNn x nn) rfl rfl,
    hasRow_word (i := .addVxNn x nn) rfl rfl⟩, fun s x nn => ⟨?_, ?_⟩⟩
  · exact ⟨_, exec_ldVxNn x nn s, rfl, State.readV_writeV_self .., (Frame.fetched _ s).writeV rfl _⟩
  · refine ⟨_, exec_addVxNn x nn s, rfl, ?_, (Frame.fetched _ s).writeV rfl _⟩
    rw [State.readV_writeV_self, BitVec.toNat_add]

/-- Settles O35: one write of V[Y] to V[X]. -/
theorem registerCopy : Obligations.RegisterCopy :=
  ⟨fun x y => hasRow_word (i := .ldVxVy x y) rfl rfl, fun s x y =>
    ⟨_, exec_ldVxVy x y s, rfl, State.readV_writeV_self .., (Frame.fetched _ s).writeV rfl _⟩⟩

/-- Settles O40: the drawn byte is masked bit by bit, then written to V[X]. -/
theorem randomIsMaskedByNn : Obligations.RandomIsMaskedByNn := by
  refine ⟨fun x nn => hasRow_word (i := .rndVxNn x nn) rfl rfl, fun s x nn =>
    ⟨_, exec_rndVxNn x nn s, rfl, fun k _ => ?_, rfl,
      ((Frame.fetched _ s).draw trivial).writeV rfl _⟩⟩
  rw [State.readV_writeV_self, BitVec.getLsbD_and, Bool.and_comm]

/-! ## Logic -/

theorem State.writeLogic_pc (s : State) (x : Reg) (r : Byte) : (s.writeLogic x r).pc = s.pc := by
  unfold State.writeLogic
  split <;> rfl

/-- An instruction that ends in a logic result: V[X] holds it unless vf_reset clears VF and X = F
(R134 to R136). -/
theorem exec_of_writeLogic {i : Instr} {s : State} {x : Reg} {r : Byte}
    (h : exec i s = .next (s.fetched.writeLogic x r)) :
    ∃ t, exec i s = .next t ∧ t.pc = s.pc + 2 ∧
      (s.config.quirks.vfReset = true → t.readV VF = 0) ∧
      (s.config.quirks.vfReset = false ∨ x ≠ VF → t.readV x = r) ∧
      Frame { regs := fun k => k = x ∨ (s.config.quirks.vfReset = true ∧ k = VF) } s t := by
  refine ⟨_, h, State.writeLogic_pc .., fun hq => ?_, fun hx => ?_,
    (Frame.fetched _ s).writeLogic (Or.inl rfl) (fun hq => Or.inr ⟨hq, rfl⟩) r⟩
  · exact (State.readV_writeLogic ..).trans (if_pos ⟨hq, rfl⟩)
  · have hkept : ¬ (s.config.quirks.vfReset = true ∧ x = VF) := by
      rintro ⟨hq, hv⟩
      simp [hq, hv] at hx
    exact (State.readV_writeLogic ..).trans ((if_neg hkept).trans (if_pos rfl))

/-- Settles O36: three logic results, and each bit of the result is the operation on the bits. -/
theorem logicCombinesAndResetsVF : Obligations.LogicCombinesAndResetsVF := by
  refine ⟨fun x y => ⟨hasRow_word (i := .orVxVy x y) rfl rfl,
    hasRow_word (i := .andVxVy x y) rfl rfl, hasRow_word (i := .xorVxVy x y) rfl rfl⟩,
    fun s x y => ⟨?_, ?_, ?_⟩⟩
  · obtain ⟨t, ht, hpost⟩ := exec_of_writeLogic (exec_orVxVy x y s)
    exact ⟨t, _, ht, hpost, fun _ _ => BitVec.getLsbD_or⟩
  · obtain ⟨t, ht, hpost⟩ := exec_of_writeLogic (exec_andVxVy x y s)
    exact ⟨t, _, ht, hpost, fun _ _ => BitVec.getLsbD_and⟩
  · obtain ⟨t, ht, hpost⟩ := exec_of_writeLogic (exec_xorVxVy x y s)
    exact ⟨t, _, ht, hpost, fun _ _ => BitVec.getLsbD_xor⟩

/-! ## Results with a flag -/

/-- An instruction that ends in a result and its flag: VF holds the flag, V[X] the result unless
X = F (R130; D9). -/
theorem exec_of_writeResultFlag {i : Instr} {s : State} {x : Reg} {r f : Byte} {m n : Nat}
    (h : exec i s = .next (s.fetched.writeResultFlag x r f)) (hr : r.toNat = m)
    (hf : f.toNat = n) :
    ∃ t, exec i s = .next t ∧ t.pc = s.pc + 2 ∧ (x ≠ VF → (t.readV x).toNat = m) ∧
      (t.readV VF).toNat = n ∧ Frame { regs := fun k => k = x ∨ k = VF } s t := by
  refine ⟨_, h, rfl, fun hx => ?_, ?_,
    (Frame.fetched _ s).writeResultFlag (Or.inl rfl) (Or.inr rfl) r f⟩
  · rw [State.readV_writeResultFlag, if_neg hx, if_pos rfl, hr]
  · rw [State.readV_writeResultFlag, if_pos rfl, hf]

/-- Settles O37: the result is the sum, the flag the carry of the operands as read. -/
theorem addSetsCarry : Obligations.AddSetsCarry :=
  ⟨fun x y => hasRow_word (i := .addVxVy x y) rfl rfl, fun s x y =>
    exec_of_writeResultFlag (exec_addVxVy x y s) (BitVec.toNat_add ..) (toNat_carryFlag ..)⟩

/-- Settles O38: the result is the difference, the flag its not-borrow, for either order of the
operands. -/
theorem subtractSetsNotBorrow : Obligations.SubtractSetsNotBorrow :=
  ⟨fun x y => ⟨hasRow_word (i := .subVxVy x y) rfl rfl, hasRow_word (i := .subnVxVy x y) rfl rfl⟩,
    fun s x y =>
    ⟨exec_of_writeResultFlag (exec_subVxVy x y s) (toNat_sub_byte ..) (toNat_notBorrowFlag ..),
      exec_of_writeResultFlag (exec_subnVxVy x y s) (toNat_sub_byte ..) (toNat_notBorrowFlag ..)⟩⟩

/-- Settles O39: the result is the shifted source, the flag the bit it drops. -/
theorem shiftsMoveOneBitIntoVF : Obligations.ShiftsMoveOneBitIntoVF :=
  ⟨fun x y => ⟨hasRow_word (i := .shrVxVy x y) rfl rfl, hasRow_word (i := .shlVxVy x y) rfl rfl⟩,
    fun s x y =>
    ⟨exec_of_writeResultFlag (exec_shrVxVy x y s) (toNat_shiftRight_one _) (toNat_shrFlag _),
      exec_of_writeResultFlag (exec_shlVxVy x y s) (toNat_shiftLeft_one _) (toNat_shlFlag _)⟩⟩

end Sys2Proof.Machine
end

section
/-! SUPPORT. The index register and memory transfers (42_index_memory.md): I set to a value, blocks
of registers to and from memory, the long load, and the RPL flags. -/

namespace Sys2Proof.Machine

/-! ## Values of I -/

/-- FX1E adds a byte to I modulo 2^16 (R151). -/
theorem toNat_index_add (i : Word) (b : Byte) :
    (i + b.setWidth 16).toNat = (i.toNat + b.toNat) % 65536 := by
  rw [BitVec.toNat_add, BitVec.toNat_setWidth_of_le (by decide)]

theorem toNat_smallGlyphAddr (b : Byte) : (smallGlyphAddr b).toNat = 5 * (b.toNat % 16) := by
  rw [smallGlyphAddr, BitVec.toNat_ofNat]
  omega

theorem toNat_bigGlyphAddr (b : Byte) : (bigGlyphAddr b).toNat = 80 + 10 * (b.toNat % 16) := by
  rw [bigGlyphAddr, BitVec.toNat_ofNat]
  omega

/-- An instruction that only writes I leaves it at the value written (R150 to R153). -/
theorem exec_of_setIndex {i : Instr} {s : State} {w : Word} {n : Nat}
    (h : exec i s = .next { s.fetched with index := w }) (hw : w.toNat = n) :
    ∃ t, exec i s = .next t ∧ t.pc = s.pc + 2 ∧ t.index.toNat = n ∧ Frame { index := True } s t :=
  ⟨_, h, rfl, hw, (Frame.fetched _ s).setIndex trivial w⟩

/-- Settles O41: each writes I alone, and the value written is that number. -/
theorem indexRegisterIsSet : Obligations.IndexRegisterIsSet :=
  ⟨fun x nnn => ⟨hasRow_word (i := .ldINnn nnn) rfl rfl, hasRow_word (i := .addIVx x) rfl rfl,
      hasRow_word (i := .ldFVx x) rfl rfl, hasRow_word (i := .ldHfVx x) rfl rfl⟩,
    fun s x nnn =>
    ⟨exec_of_setIndex (exec_ldINnn nnn s) (toNat_setWidth_nnn nnn),
      exec_of_setIndex (exec_addIVx x s) (toNat_index_add ..),
      exec_of_setIndex (exec_ldFVx x s) (toNat_smallGlyphAddr _),
      exec_of_setIndex (exec_ldHfVx x s) (toNat_bigGlyphAddr _)⟩⟩

/-! ## Blocks stored at I -/

/-- A block of `n + 1` bytes stored at I touches the addresses I to I + n only. -/
theorem Frame.stored_of_length {w : Effects} {s : State} {bs : List Byte} {n : Nat}
    (hl : bs.length = n + 1) (hm : ∀ a, s.dataAddr 0 ≤ a ∧ a ≤ s.dataAddr n → w.mem a) :
    Frame w s (s.stored bs) :=
  Frame.stored fun a h0 ha => hm a ⟨h0, Nat.le_of_lt_succ (by rwa [hl] at ha)⟩

@[simp] theorem bcdDigits_length (b : Byte) : (bcdDigits b).length = 3 := rfl

/-- Settles O42: the three digits are a block stored at I, and none of them wraps in a byte. -/
theorem bcdStoresThreeDigits : Obligations.BcdStoresThreeDigits := by
  refine ⟨fun x => hasRow_word (i := .ldBVx x) rfl rfl, fun s x h hl => ?_⟩
  have hv := (s.readV x).isLt
  have hbyte : ∀ k (hk : k < (bcdDigits (s.readV x)).length),
      (s.stored (bcdDigits (s.readV x))).byteAt (s.dataAddr k) = (bcdDigits (s.readV x))[k] :=
    fun k hk => State.byteAt_stored_inside h.memory (by rwa [bcdDigits_length]) hk
  refine ⟨_, exec_ldBVx_ok hl, rfl, ?_, ?_, ?_,
    Frame.stored_of_length (bcdDigits_length _) fun _ => id⟩
  · rw [hbyte 0 (by simp)]
    exact Nat.mod_eq_of_lt (by omega)
  · rw [hbyte 1 (by simp)]
    exact Nat.mod_eq_of_lt (by omega)
  · rw [hbyte 2 (by simp)]
    exact Nat.mod_eq_of_lt (by omega)

theorem State.readRegs_regsUpTo_length (s : State) (x : Reg) :
    (s.readRegs (regsUpTo x)).length = x.val + 1 := by
  rw [State.readRegs_length, regsUpTo_length]

/-- Settles O43: the registers are a block stored at I, and the post-increment writes I only. -/
theorem blockStoreWritesV0ToVx : Obligations.BlockStoreWritesV0ToVx := by
  refine ⟨fun x => hasRow_word (i := .ldMemVx x) rfl rfl, fun s x h hl => ?_⟩
  refine ⟨_, exec_ldMemVx_ok hl, State.postIncrement_pc .., fun k hk => ?_,
    State.toNat_postIncrement_index (s := s.stored _) x, Frame.postIncrement ?_ x id⟩
  · rw [State.postIncrement_byteAt, State.byteAt_stored_regsUpTo h hk hl]
  · exact Frame.stored_of_length (s.readRegs_regsUpTo_length x) fun _ => id

/-! ## Blocks loaded from I -/

@[simp] theorem State.writeRegs_pc (s : State) (xs : List Reg) (bs : List Byte) :
    (s.writeRegs xs bs).pc = s.pc := by rw [State.writeRegs_eq]

@[simp] theorem State.writeRegs_index (s : State) (xs : List Reg) (bs : List Byte) :
    (s.writeRegs xs bs).index = s.index := by rw [State.writeRegs_eq]

@[simp] theorem State.writeRegs_config (s : State) (xs : List Reg) (bs : List Byte) :
    (s.writeRegs xs bs).config = s.config := by rw [State.writeRegs_eq]

/-- Settles O44: the bytes at I go to the registers in order, and the post-increment writes I
only. -/
theorem blockLoadReadsV0ToVx : Obligations.BlockLoadReadsV0ToVx := by
  refine ⟨fun x => hasRow_word (i := .ldVxMem x) rfl rfl, fun s x hl => ?_⟩
  refine ⟨_, exec_ldVxMem_ok hl, ?_, fun k hk => ?_, fun hq => ?_,
    Frame.postIncrement ?_ x fun hq => ?_⟩
  · rw [State.postIncrement_pc, State.writeRegs_pc, State.fetched_pc]
  · have hb : k.val < (s.dataBytes (x.val + 1)).length := by
      rw [State.dataBytes_length]; exact Nat.lt_succ_of_le hk
    rw [State.postIncrement_readV, State.readV_writeRegs_regsUpTo hk hb, State.dataBytes_getElem]
  · rw [State.toNat_postIncrement_index x (by rwa [State.writeRegs_config]), State.writeRegs_index,
      State.fetched_index]
  · exact (Frame.fetched _ s).writeRegs (fun r hr => (mem_regsUpTo x r).mp hr) _
  · rwa [State.writeRegs_config] at hq

/-- Settles O45: the load reads, at the same addresses, the bytes that the store put there. -/
theorem blockStoreThenLoadIsARoundTrip : Obligations.BlockStoreThenLoadIsARoundTrip := by
  intro s t u x h hl ht hmem hconf hindex
  obtain ⟨t', ht', -, hstored, -, hframe⟩ := blockStoreWritesV0ToVx.2 s x h hl
  obtain rfl : t' = t := Host.Outcome.next.inj (ht'.symm.trans ht)
  have hsize : u.memSize = s.memSize := by rw [State.memSize, hconf, hframe.config]; rfl
  obtain ⟨w, hw, -, hloaded, -⟩ := blockLoadReadsV0ToVx.2 u x (by rwa [hindex, hsize])
  refine ⟨w, hw, fun r hr => ?_⟩
  calc w.readV r = u.byteAt (u.dataAddr r.val) := hloaded r hr
    _ = t'.byteAt (u.dataAddr r.val) := State.byteAt_congr hmem hconf _
    _ = t'.byteAt (s.dataAddr r.val) := by rw [State.dataAddr, hindex]; rfl
    _ = s.readV r := hstored r hr

/-! ## The long load -/

/-- F000 M sets I and passes its two words, and nothing else changes (R157). -/
theorem exec_ldILong_next (s : State) (m : Word) : ∃ t, exec (.ldILong m) s = .next t ∧
    t.pc = s.pc + 4 ∧ t.index = m ∧ Frame { index := True } s t :=
  ⟨_, exec_ldILong m s, BitVec.add_assoc s.pc 2 2, rfl,
    ((Frame.fetched _ s).setIndex trivial m).advancePc 2⟩

/-- Settles O46: the fetch carries the operand word into the instruction, or faults on it. -/
theorem longLoadSetsIndexFromItsOperandWord : Obligations.LongLoadSetsIndexFromItsOperandWord := by
  refine ⟨fun m v => decodeWord_longWord v m, exec_ldILong_next, fun s hf hs hv hp hop => ?_⟩
  have hlong : s.opAt = longWord := hop
  rw [step_nil hs]
  refine ⟨fun hm => ?_, fun hm => ?_⟩
  · have hd : decodeWord s.config.variant s.opAt s.operandAt = some (.ldILong s.operandAt) := by
      rw [hlong, decodeWord_longWord, if_pos hv]
    rw [State.stepInstr_ok hf (State.fetchInstr_ok hp (fun _ => hm) hd)]
    exact exec_ldILong_next s s.operandAt
  · exact State.stepInstr_error hf (State.fetchInstr_operand_error hp hlong hv hm)

/-! ## Register ranges -/

/-- The `k`-th register of a range, by the number the range gives it (R158). -/
theorem regRange_getElem_eq {x y r : Reg} {k : Nat} (hk : k < (regRange x y).length)
    (hr : r.val = if x.val ≤ y.val then x.val + k else x.val - k) : (regRange x y)[k] = r :=
  Fin.ext ((regRange_getElem x y k hk).trans hr.symm)

/-- Settles O47: the range is a block stored at I, or read from there, in the order of the range. -/
theorem rangeSaveAndLoad : Obligations.RangeSaveAndLoad := by
  refine ⟨fun x y => ⟨hasRow_word (i := .saveVxVy x y) rfl rfl,
    hasRow_word (i := .loadVxVy x y) rfl rfl⟩, ?_⟩
  intro s x y n hl
  have hlen : (regRange x y).length = n + 1 := regRange_length x y
  have hin : s.index.toNat + (regRange x y).length ≤ s.memSize := by rw [hlen]; exact hl
  refine ⟨fun h => ⟨_, exec_saveVxVy_ok hin, rfl, fun k r hk hr => ?_, ?_⟩,
    _, exec_loadVxVy_ok hin, State.writeRegs_pc .., fun k r hk hr => ?_, ?_⟩
  · have hreg : k < (regRange x y).length := by omega
    rw [State.byteAt_stored_inside h.memory (by rwa [State.readRegs_length])
      (by rwa [State.readRegs_length])]
    simp only [State.readRegs, List.getElem_map, regRange_getElem_eq hreg hr]
  · exact Frame.stored_of_length (by rw [State.readRegs_length, hlen]) fun _ => id
  · have hreg : k < (regRange x y).length := by omega
    rw [← regRange_getElem_eq hreg hr, State.readV_writeRegs_getElem (regRange_nodup x y) hreg
      (by rwa [State.dataBytes_length]), State.dataBytes_getElem]
  · exact (Frame.fetched _ s).writeRegs (fun r hr => (mem_regRange x y r).mp hr) _

/-! ## The RPL flags -/

/-- Settles O48: one copy sets the entries of V0 .. VX, the other writes those registers. -/
theorem rplFlagsSaveAndRestore : Obligations.RplFlagsSaveAndRestore := by
  refine ⟨fun x => ⟨hasRow_word (i := .ldRVx x) rfl rfl, hasRow_word (i := .ldVxR x) rfl rfl⟩,
    fun s x => ⟨⟨_, exec_ldRVx x s, rfl, fun k => ?_, (Frame.fetched _ s).setRpl trivial _⟩,
      _, exec_ldVxR x s, State.writeRegs_pc .., fun k hk => ?_, ?_⟩⟩
  · simp only [foldl_set_get, mem_regsUpTo]
  · have hb : k.val < ((regsUpTo x).map fun j => s.rpl.get j).length := by
      rw [List.length_map, regsUpTo_length]; exact Nat.lt_succ_of_le hk
    rw [State.readV_writeRegs_regsUpTo hk hb]
    simp only [List.getElem_map, regsUpTo_getElem_val hk]
  · exact (Frame.fetched _ s).writeRegs (fun r hr => (mem_regsUpTo x r).mp hr) _

end Sys2Proof.Machine
end

section
/-! SUPPORT. The display instructions but DXYN (43_display.md): clearing and scrolling the selected
planes, the resolution mode and the plane selection. -/

namespace Sys2Proof.Machine

/-! ## Operations on the selected planes -/

/-- An instruction that applies `f` to the selected planes: where `px` says what `f` makes of a
plane, the selected planes show `px`, and nothing else changes (R170). -/
theorem exec_of_onSelected {i : Instr} {s : State} {f : Plane → Plane}
    {px : PlaneId → Nat → Nat → Bool} (h : exec i s = .next (s.fetched.onSelected f))
    (hf : ∀ k x y, x < s.config.variant.bufW → y < s.config.variant.bufH →
      (f (s.plane k)).lit (y * s.config.variant.bufW + x) = px k x y) :
    ∃ t, exec i s = .next t ∧ t.pc = s.pc + 2 ∧
      (∀ k ∈ s.selectedPlanes, ∀ x y, x < s.config.variant.bufW → y < s.config.variant.bufH →
        t.pixel k x y = px k x y) ∧
      Frame { planes := (· ∈ s.selectedPlanes) } s t :=
  ⟨_, h, State.onSelected_pc .., fun k hk x y hx hy =>
      (State.pixel_fetched_onSelected hk f hx hy).trans (hf k x y hx hy),
    (Frame.fetched _ s).onSelected (fun _ => id) f⟩

/-- Settles O50: a selected plane is the empty list of lit entries, so no position of it is lit. -/
theorem clearScreenClearsSelectedPlanes : Obligations.ClearScreenClearsSelectedPlanes := by
  refine ⟨hasRow_word (i := .cls) rfl rfl, fun s => ⟨_, exec_cls s, State.onSelected_pc ..,
    fun k hk x y => ?_, (Frame.fetched _ s).onSelected (fun _ => id) _⟩⟩
  have hempty : (s.fetched.onSelected fun _ => []).plane k = [] :=
    (State.onSelected_plane ..).trans (if_pos hk)
  rw [State.pixel, hempty, Plane.lit_nil, Bool.and_false]

/-- Below the last row a well-formed buffer has no lit entry, so the row bound of `pixel` can be left
out (R32, R33). -/
theorem State.Inv.lit_eq_pixel {s : State} (h : s.Inv) (k : PlaneId) {x : Nat} (y : Nat)
    (hx : x < s.config.variant.bufW) :
    (s.plane k).lit (y * s.config.variant.bufW + x) = s.pixel k x y := by
  rcases Nat.lt_or_ge y s.config.variant.bufH with hy | hy
  · simp only [State.pixel, hx, hy, decide_true, Bool.true_and]
  · have hsize : s.config.variant.bufSize ≤ y * s.config.variant.bufW + x := calc
      s.config.variant.bufSize = s.config.variant.bufH * s.config.variant.bufW := Nat.mul_comm ..
      _ ≤ y * s.config.variant.bufW := Nat.mul_le_mul_right _ hy
      _ ≤ y * s.config.variant.bufW + x := Nat.le_add_right ..
    rw [Plane.lit_eq_false_of_le (h.planes k) hsize, State.pixel, decide_eq_false (Nat.not_lt.mpr hy),
      Bool.and_false, Bool.false_and]

/-- Settles O54: a pixel of the scrolled plane is the one `d` rows away, and SCU brings in rows past
the buffer, which are clear. -/
theorem verticalScrolls : Obligations.VerticalScrolls := by
  refine ⟨fun n => ⟨hasRow_word (i := .scd n) rfl rfl, hasRow_word (i := .scu n) rfl rfl⟩,
    fun s n h => ⟨?_, ?_⟩⟩
  · refine exec_of_onSelected (exec_scd n s) fun k x y hx hy => ?_
    rw [Plane.lit_scrollDown hx hy, h.lit_eq_pixel k _ hx]
    rfl
  · refine exec_of_onSelected (exec_scu n s) fun k x y hx _ => ?_
    rw [Plane.lit_scrollUp, h.lit_eq_pixel k _ hx]
    rfl

/-- Settles O55: a pixel of the scrolled plane is the one `d` columns away in its row, and a column
past the row reads as clear. -/
theorem horizontalScrolls : Obligations.HorizontalScrolls := by
  refine ⟨hasRow_word (i := .scr) rfl rfl, hasRow_word (i := .scl) rfl rfl, fun s h => ⟨?_, ?_⟩⟩
  · refine exec_of_onSelected (exec_scr s) fun k x y hx _ => ?_
    rw [Plane.lit_scrollRight hx, h.lit_eq_pixel k y (Nat.lt_of_le_of_lt (Nat.sub_le ..) hx)]
    rfl
  · refine exec_of_onSelected (exec_scl s) fun k x y hx hy => ?_
    rw [Plane.lit_scrollLeft hx]
    simp only [State.pixel, hy, decide_true, Bool.and_true]
    rfl

/-! ## The resolution mode and the plane selection -/

/-- Settles O56: each writes high_res_mode alone. -/
theorem resolutionSwitchKeepsThePixels : Obligations.ResolutionSwitchKeepsThePixels :=
  ⟨hasRow_word (i := .low) rfl rfl, hasRow_word (i := .high) rfl rfl, fun s =>
    ⟨⟨_, exec_low s, rfl, rfl, (Frame.fetched _ s).setHighRes trivial _⟩,
      _, exec_high s, rfl, rfl, (Frame.fetched _ s).setHighRes trivial _⟩⟩

/-- A word FX01 reaches the bound on X of its row, and fails it past 3 (R184; D18). -/
theorem decodeWord_plane_eq_none {x : Reg} (hx : 3 < x.val) (v : Variant) (m : Word) :
    decodeWord v (fmtXB 0xF x 0x01) m = none := by
  have hrow : decodeRow (fmtXB 0xF x 0x01) m = none := by
    simp [decodeRow, decodeF, hx]
  rw [decodeWord, hrow, Option.filter_none]

theorem getElem?_drawPlaneOf : ∀ {x : Reg}, x.val ≤ 3 →
    [DrawPlane.none, .plane1, .plane2, .both][x.val]? = some (drawPlaneOf x) := by
  decide

/-- Settles O57: the mask of X is the place in the list, and a larger X fails the row's bound. -/
theorem planeSelectsByTwoBitMask : Obligations.PlaneSelectsByTwoBitMask :=
  ⟨fun x hx => hasRow_word (i := .plane x) (decide_eq_true hx) rfl,
    fun _ v m hx => decodeWord_plane_eq_none hx v m,
    fun s x hx => ⟨_, exec_plane x s, rfl, getElem?_drawPlaneOf hx,
      (Frame.fetched _ s).setDrawPlane trivial _⟩⟩

end Sys2Proof.Machine
end

section
/-! SUPPORT. DXYN (43_display.md R172 to R175): the stall, what one draw flips and counts in terms of
its drawing parameters, and what a second draw at the same place does. -/

namespace Sys2Proof.Machine

/-! ## DXYN: the stall -/

/-- Settles O51: the stall comes before the sprite is read, and its rewind undoes the advance of the
fetch. -/
theorem drawWaitsForTheKeyFrame : Obligations.DrawWaitsForTheKeyFrame := fun s _ _ _ hw hk =>
  ⟨_, exec_drw_stalled hw hk, BitVec.add_sub_cancel s.pc 2, (Frame.fetched {} s).rewindPc⟩

/-! ## Folds over a range that agree on it -/

theorem any_range_congr {m : Nat} {f g : Nat → Bool} (h : ∀ c, c < m → f c = g c) :
    (List.range m).any f = (List.range m).any g := by
  rw [Bool.eq_iff_iff, List.any_eq_true, List.any_eq_true]
  exact exists_congr fun c => and_congr_right fun hc => by rw [h c (List.mem_range.mp hc)]

theorem countP_range_congr {m : Nat} {f g : Nat → Bool} (h : ∀ r, r < m → f r = g r) :
    (List.range m).countP f = (List.range m).countP g :=
  List.countP_congr fun r hr => by rw [h r (List.mem_range.mp hr)]

/-! ## DXYN: the drawing parameters -/

/-- The drawing parameters of a DXYN whose sprite lies in memory (R172, R175). -/
def State.spriteEnv (s : State) (x y : Reg) (n : Nibble) : DrawEnv :=
  s.drawEnv x y n (s.dataBytes (s.spriteLength n))

theorem State.spriteEnv_ok (s : State) (x y : Reg) (n : Nibble) :
    (s.spriteEnv x y n).Ok s.config.variant.bufH := s.drawEnv_ok x y n _

theorem State.collidedRows_le (s : State) (x y : Reg) (n : Nibble) : s.collidedRows x y n ≤ 32 := by
  have hcount : ∀ p : Nat → Bool, (List.range (spriteShape n).rows).countP p ≤ 16 := fun p =>
    (List.countP_le_length.trans_eq List.length_range).trans (spriteShape_le n).2
  unfold State.collidedRows
  rcases s.selectedPlanes_cases with h | h | h | h <;> rw [h]
  · exact Nat.zero_le _
  · exact (hcount _).trans (by decide)
  · exact (hcount _).trans (by decide)
  · exact Nat.add_le_add (hcount _) (hcount _)

/-- The collision value as a number, for a count that fits in a byte (R174). -/
theorem toNat_collisionFlag {m : Nat} (hm : m < 256) (highRes : Bool) :
    (collisionFlag highRes m).toNat = if highRes then m else if 0 < m then 1 else 0 := by
  cases highRes with
  | true => exact Nat.mod_eq_of_lt hm
  | false => simp [collisionFlag, toNat_flagByte]

/-- Each selected plane is flipped where its image says (R173, R175). -/
theorem drawPlanes_spriteEnv_lit {s : State} (h : s.Inv) (x y : Reg) (n : Nibble)
    {k : PlaneId} {j : Nat} (hkj : (k, j) ∈ s.selectedPlanes.zipIdx) (i : Nat) :
    ((drawPlanes (s.spriteEnv x y n) s.fetched).1.plane k).lit i =
      ((s.plane k).lit i ^^ (s.spriteEnv x y n).imageFlips j i) := by
  obtain ⟨hmem, hidx⟩ := State.idxOf_of_mem_zipIdx hkj
  obtain ⟨-, hlit, -⟩ := drawImage_spec (s.spriteEnv_ok x y n) j _ (h.planes k)
  rw [drawPlanes_plane, drawnPlane, State.fetched_selectedPlanes, if_pos hmem, hidx,
    State.fetched_plane, hlit]

/-- The rows counted are those that collide with the planes as they were (R174, R175). -/
theorem drawPlanes_spriteEnv_count {s : State} (h : s.Inv) (x y : Reg) (n : Nibble) :
    (drawPlanes (s.spriteEnv x y n) s.fetched).2 = s.collidedRows x y n := by
  rw [drawPlanes_count, State.collidedRows]
  refine congrArg List.sum (List.map_congr_left fun ⟨k, j⟩ hkj => ?_)
  have hj : j < s.selectedPlanes.length := State.lt_of_mem_zipIdx hkj
  obtain ⟨-, -, hcount⟩ := drawImage_spec (s.spriteEnv_ok x y n) j _ (h.planes k)
  rw [State.fetched_plane, hcount]
  exact countP_range_congr fun r hr => State.rowCollides_drawEnv hj hr k

theorem State.writeV_plane (s : State) (x : Reg) (b : Byte) (k : PlaneId) :
    (s.writeV x b).plane k = s.plane k := by
  cases k <;> rfl

/-- DXYN that draws, over the drawing parameters: each selected plane is flipped where its image
says, VF is the collision value, and nothing else changes (R173 to R175). -/
theorem exec_drw_spec {s : State} {x y : Reg} {n : Nibble} (h : s.Inv)
    (hk : s.config.quirks.displayWait = false ∨ s.keyFrameIn = true)
    (hl : s.selectedPlanes = [] ∨ s.index.toNat + s.spriteLength n ≤ s.memSize) :
    ∃ t, exec (.drw x y n) s = .next t ∧ t.pc = s.pc + 2 ∧
      (∀ k j, (k, j) ∈ s.selectedPlanes.zipIdx → ∀ i,
        (t.plane k).lit i = ((s.plane k).lit i ^^ (s.spriteEnv x y n).imageFlips j i)) ∧
      (t.readV VF).toNat = (if s.highResMode then s.collidedRows x y n
        else if 0 < s.collidedRows x y n then 1 else 0) ∧
      Frame { regs := (· = VF), planes := (· ∈ s.selectedPlanes) } s t := by
  have hlen : s.spriteLength n = 0 ∨ s.index.toNat + s.spriteLength n ≤ s.memSize :=
    hl.imp_left fun hnone => by rw [State.spriteLength, hnone]; exact Nat.zero_mul _
  have hdraw : exec (.drw x y n) s = .next ((drawPlanes (s.spriteEnv x y n) s.fetched).1.writeV VF
      (collisionFlag s.highResMode (s.collidedRows x y n))) := by
    rw [← drawPlanes_spriteEnv_count h x y n]
    exact exec_drw_ok hk hlen
  refine ⟨_, hdraw, ?_, fun k j hkj i => ?_, ?_,
    ((Frame.fetched _ s).drawPlanes _ fun _ => id).writeV rfl _⟩
  · rw [State.writeV_pc, drawPlanes_eq]; rfl
  · rw [State.writeV_plane, drawPlanes_spriteEnv_lit h x y n hkj]
  · rw [State.readV_writeV_self]
    exact toNat_collisionFlag (Nat.lt_of_le_of_lt (s.collidedRows_le x y n) (by decide)) _

/-- Settles O52: over the buffer pixels, the entries the images flip are the pixels of
`spriteFlips`. -/
theorem drawXorsTheSpriteAndReportsCollision :
    Obligations.DrawXorsTheSpriteAndReportsCollision := by
  refine ⟨fun x y n => hasRow_word (i := .drw x y n) rfl rfl, fun s x y n h hk hl => ?_⟩
  obtain ⟨t, ht, hpc, hlit, hvf, hframe⟩ := exec_drw_spec (x := x) (y := y) h hk hl
  refine ⟨t, ht, hpc, fun k j hkj bx by_ hbx hby => ?_, hvf, hframe⟩
  rw [← State.imageFlips_drawEnv (State.lt_of_mem_zipIdx hkj) hbx hby]
  simp only [State.pixel, hframe.config, hbx, hby, decide_true, Bool.true_and]
  exact hlit k j hkj _

/-! ## DXYN twice -/

/-- On an entry of its own block a position alone decides the flip: no other position's block holds
it. -/
theorem DrawEnv.Ok.imageFlips_of_mem_block {h : Nat} {e : DrawEnv} (ho : e.Ok h) {j r c i : Nat}
    (hr : r < e.shape.rows) (hc : c < e.shape.cols) (hi : i ∈ e.block r c) :
    e.imageFlips j i = (spriteBit e.shape e.bytes j r c && !e.dropped r c) := by
  have hself : e.flips j r c i = (spriteBit e.shape e.bytes j r c && !e.dropped r c) := by
    simp [DrawEnv.flips, hi]
  rw [← hself, Bool.eq_iff_iff]
  simp only [DrawEnv.imageFlips, DrawEnv.rowFlips, List.any_eq_true, List.mem_range]
  constructor
  · rintro ⟨r', hr', c', hc', hf⟩
    obtain ⟨rfl, rfl⟩ := ho.block_disjoint hr' hc' hr hc (DrawEnv.mem_block_of_flips hf) hi
    exact hf
  · exact fun hf => ⟨r, hr, c, hc, hf⟩

theorem DrawEnv.Ok.exists_mem_block {h : Nat} {e : DrawEnv} (ho : e.Ok h) (r c : Nat) :
    ∃ i, i ∈ e.block r c := by
  have hs := List.mem_range.mpr ho.tiles.scale
  exact ⟨_, List.mem_flatMap.mpr ⟨0, hs, List.mem_map.mpr ⟨0, hs, rfl⟩⟩⟩

/-- On a plane that holds the image and nothing else, a position collides when its bit is set and is
placed, or is dropped and counts (R174, C5). -/
theorem DrawEnv.Ok.collides_of_drawn {h : Nat} {e : DrawEnv} (ho : e.Ok h) {j r c : Nat} {p : Plane}
    (hr : r < e.shape.rows) (hc : c < e.shape.cols) (hp : ∀ i, p.lit i = e.imageFlips j i) :
    e.collides j r c p =
      (spriteBit e.shape e.bytes j r c && (!e.dropped r c || e.clipCounts)) := by
  obtain ⟨b, hb⟩ := ho.exists_mem_block r c
  have hblock : (e.block r c).any p.lit = (spriteBit e.shape e.bytes j r c && !e.dropped r c) := by
    rw [Bool.eq_iff_iff, List.any_eq_true]
    constructor
    · rintro ⟨i, hi, hl⟩
      rwa [← ho.imageFlips_of_mem_block hr hc hi, ← hp]
    · intro hf
      exact ⟨b, hb, by rwa [hp, ho.imageFlips_of_mem_block hr hc hb]⟩
  rw [DrawEnv.collides, hblock]
  cases spriteBit e.shape e.bytes j r c <;> cases e.dropped r c <;> rfl

/-! ### The second draw -/

/-- The rows of image `j` with a set bit that is placed, or dropped and counts. -/
def DrawEnv.setRows (e : DrawEnv) (j : Nat) : Nat :=
  (List.range e.shape.rows).countP fun r => (List.range e.shape.cols).any fun c =>
    spriteBit e.shape e.bytes j r c && (!e.dropped r c || e.clipCounts)

/-- The rows of the images, over the sprite bits in memory. -/
theorem State.setRows_spriteEnv {s : State} (x y : Reg) {n : Nibble} {j : Nat}
    (hj : j < s.selectedPlanes.length) :
    (s.spriteEnv x y n).setRows j = (List.range (spriteShape n).rows).countP fun r =>
      (List.range (spriteShape n).cols).any fun c => s.spriteBitAt n j r c &&
        (!s.spriteDropped x y r c || s.config.quirks.clipCountsAsCollision) :=
  countP_range_congr fun r hr => any_range_congr fun c hc => by
    rw [← State.spriteBit_dataBytes hj hr hc]; rfl

/-- On planes that hold the images and nothing else, the rows that collide are those with a set bit
that is placed, or dropped and counts (R174, C5). -/
theorem State.collidedRows_of_drawn {s : State} {x y : Reg} {n : Nibble}
    (hp : ∀ k j, (k, j) ∈ s.selectedPlanes.zipIdx → ∀ i,
      (s.plane k).lit i = (s.spriteEnv x y n).imageFlips j i) :
    s.collidedRows x y n =
      (s.selectedPlanes.zipIdx.map fun kj => (s.spriteEnv x y n).setRows kj.2).sum := by
  refine congrArg List.sum (List.map_congr_left fun ⟨k, j⟩ hkj => ?_)
  refine countP_range_congr fun r hr => ?_
  rw [← State.rowCollides_drawEnv (State.lt_of_mem_zipIdx hkj) hr]
  exact any_range_congr fun c hc =>
    (s.spriteEnv_ok x y n).collides_of_drawn hr hc (hp k j hkj)

section SecondDraw
variable {s t : State}
  (hf : Frame { regs := (· = VF), planes := (· ∈ s.selectedPlanes) } s t)
include hf

theorem Frame.selectedPlanes_of_drw : t.selectedPlanes = s.selectedPlanes := by
  simp only [State.selectedPlanes, hf.drawPlane id]

/-- What a DXYN reads but for VF it leaves as it was (R175). -/
theorem Frame.spriteEnv_of_drw {x y : Reg} (hx : x ≠ VF) (hy : y ≠ VF) (n : Nibble) :
    t.spriteEnv x y n = s.spriteEnv x y n := by
  have hlen : t.spriteLength n = s.spriteLength n := by
    simp only [State.spriteLength, hf.selectedPlanes_of_drw]
  have hbytes : t.dataBytes (t.spriteLength n) = s.dataBytes (s.spriteLength n) := by
    simp only [State.dataBytes, State.dataAddr, hlen, hf.index id, hf.mem _ id]
  simp only [State.spriteEnv, State.drawEnv, State.geometry, hbytes, hf.config, hf.highRes id,
    hf.regs x hx, hf.regs y hy]

end SecondDraw

/-- Settles O53: the second draw has the parameters of the first, so it flips the same entries back,
and from clear planes it finds the images alone. -/
theorem drawingTwiceRestoresEveryPixel : Obligations.DrawingTwiceRestoresEveryPixel := by
  intro s x y n h hx hy hk hl
  obtain ⟨t, ht, -, hlit, -, hframe⟩ := exec_drw_spec (x := x) (y := y) h hk hl
  have hinv : t.Inv := exec_keeps_inv h rfl ht
  have hsel := hframe.selectedPlanes_of_drw
  have henv := hframe.spriteEnv_of_drw hx hy n
  obtain ⟨u, hu, -, hlit', hvf, hframe'⟩ := exec_drw_spec (x := x) (y := y) (n := n) hinv
    (by rwa [hframe.config, hframe.keyFrameIn])
    (by simpa only [State.spriteLength, State.memSize, hsel, hframe.config, hframe.index id] using hl)
  rw [hsel, henv] at hlit'
  refine ⟨t, u, ht, hu, fun k => ?_, fun h1 h2 => ?_⟩
  · by_cases hmem : k ∈ s.selectedPlanes
    · have hkj := State.mem_zipIdx_of_mem hmem
      have huinv : u.Inv := exec_keeps_inv hinv rfl hu
      have hcfg : u.config = s.config := hframe'.config.trans hframe.config
      refine Plane.ext_lit (hcfg ▸ huinv.planes k) (h.planes k) fun i => ?_
      rw [hlit' k _ hkj, hlit k _ hkj, Bool.xor_assoc, Bool.xor_self, Bool.xor_false]
    · exact (hframe'.planes k (hsel ▸ hmem)).trans (hframe.planes k hmem)
  · have hclear : ∀ k i, (s.plane k).lit i = false := fun k i => by
      cases k
      · exact congrArg (Plane.lit · i) h1
      · exact congrArg (Plane.lit · i) h2
    have hrows : t.collidedRows x y n =
        (s.selectedPlanes.zipIdx.map fun kj => (s.spriteEnv x y n).setRows kj.2).sum := by
      rw [State.collidedRows_of_drawn fun k j hkj i => ?_, hsel, henv]
      rw [henv, hlit k j (hsel ▸ hkj), hclear, Bool.false_xor]
    rw [hvf, hframe.highRes id, hrows, List.map_congr_left fun kj hkj =>
      State.setRows_spriteEnv x y (State.lt_of_mem_zipIdx hkj)]

end Sys2Proof.Machine
end

section
/-! SUPPORT. Keys, timers and audio (44_keys_timers_audio.md): the host's tick and set_key, the
instructions that move the timers, the pattern and the pitch, and the sound frequency. -/

namespace Sys2Proof.Machine

/-! ## Keys -/

/-- Settles O58: the search for the smallest pressed key finds it, or fails; the rewind then undoes
the advance of the fetch. -/
theorem waitForKeyTakesTheLowestOrWaits : Obligations.WaitForKeyTakesTheLowestOrWaits := by
  refine ⟨fun x => hasRow_word (i := .ldVxK x) rfl rfl,
    fun s x => ⟨fun k hk hlt => ?_, fun hnone => ?_⟩⟩
  · have hkey := exec_ldVxK_some (x := x) (State.lowestKey_eq_some hk hlt)
    refine ⟨_, hkey, rfl, ?_, (Frame.fetched _ s).writeV rfl _⟩
    rw [State.readV_writeV_self, BitVec.toNat_ofNat]
    omega
  · exact ⟨_, exec_ldVxK_none (State.lowestKey_eq_none hnone), BitVec.add_sub_cancel s.pc 2,
      (Frame.fetched {} s).rewindPc⟩

/-! ## Timers -/

theorem State.beep_iff (s : State) : s.beep = true ↔ 0 < s.st.toNat := decide_eq_true_iff

/-- Settles O22: a tick takes one off each timer, and `set_key` sets one place of the keys. -/
theorem tickDecrementsTimersAndSetKeyWritesOneKey :
    Obligations.TickDecrementsTimersAndSetKeyWritesOneKey := by
  refine ⟨fun s es hs => ⟨_, step_cons hs, toNat_tickByte s.dt, toNat_tickByte s.st, rfl, ?_⟩,
    fun s n b es hs => ⟨_, step_cons hs, State.setKey_eq .., State.keys_setKey _ n b⟩⟩
  have hst : (tickByte s.st).toNat = s.st.toNat - 1 := toNat_tickByte s.st
  rw [State.beep_iff]
  change 0 < (tickByte s.st).toNat ↔ _
  omega

/-- Settles O59: each is one write, and the timer written beeps when it is above 0. -/
theorem timerTransfers : Obligations.TimerTransfers := by
  refine ⟨fun x => ⟨hasRow_word (i := .ldVxDt x) rfl rfl, hasRow_word (i := .ldDtVx x) rfl rfl,
    hasRow_word (i := .ldStVx x) rfl rfl⟩, fun s x => ⟨?_, ?_, ?_⟩⟩
  · exact ⟨_, exec_ldVxDt x s, rfl, State.readV_writeV_self .., (Frame.fetched _ s).writeV rfl _⟩
  · exact ⟨_, exec_ldDtVx x s, rfl, rfl, (Frame.fetched _ s).setDt trivial _⟩
  · refine ⟨_, exec_ldStVx x s, rfl, rfl, ?_, (Frame.fetched _ s).setSt trivial _⟩
    rw [State.beep_iff, Nat.pos_iff_ne_zero]
    exact BitVec.toNat_ne_iff_ne (y := 0#8)

/-! ## Pattern and pitch -/

/-- Settles O60: the pattern's 16 entries are set from the 16 bytes read at I. -/
theorem audioLoadsThePatternAndPitchItsRegister :
    Obligations.AudioLoadsThePatternAndPitchItsRegister := by
  refine ⟨⟨hasRow_word (i := .audio) rfl rfl, fun x => hasRow_word (i := .pitchVx x) rfl rfl⟩,
    fun s h => ⟨_, exec_audio_ok h, rfl, fun k => ?_, (Frame.fetched _ s).setPattern trivial _⟩,
    fun s x => ⟨_, exec_pitchVx x s, rfl, rfl, (Frame.fetched _ s).setPitch trivial _⟩⟩
  have hk : k.val < (s.dataBytes 16).length := by rw [State.dataBytes_length]; exact k.isLt
  rw [foldl_set_get, if_pos (mem_allRegs k), List.getD_eq_getElem _ _ hk, State.dataBytes_getElem hk]

/-! ## The sound frequency -/

/-- The frequency that R210 rounds. -/
noncomputable def exactFrequency (pitch : Nat) : ℝ := 4000 * 2 ^ (((pitch : ℝ) - 64) / 48)

theorem exactFrequency_nonneg (p : Nat) : 0 ≤ exactFrequency p := by
  unfold exactFrequency
  positivity

/-- The formula without its root and its negative exponent. -/
theorem two_mul_exactFrequency_pow (p : Nat) :
    (2 * exactFrequency p) ^ 48 * 2 ^ 64 = 8000 ^ 48 * 2 ^ p := by
  have hroot : ((2 : ℝ) ^ (((p : ℝ) - 64) / 48)) ^ 48 * 2 ^ 64 = 2 ^ p := by
    rw [← Real.rpow_mul_natCast zero_le_two, ← Real.rpow_natCast 2 64,
      ← Real.rpow_add zero_lt_two, ← Real.rpow_natCast 2 p]
    congr 1
    push_cast
    ring
  rw [exactFrequency, ← hroot]
  ring

theorem odd_pow_mul_ne (n p : Nat) : (2 * n + 1) ^ 48 * 2 ^ 64 ≠ 8000 ^ 48 * 2 ^ p := by
  intro h
  have hdvd : 2 * 2 ^ 64 ∣ (2 * n + 1) ^ 48 * 2 ^ 64 := by
    rw [h]
    exact Dvd.dvd.mul_right (by norm_num) _
  have heven : 2 ∣ 2 * n + 1 :=
    Nat.prime_two.dvd_of_dvd_pow (Nat.dvd_of_mul_dvd_mul_right (by norm_num) hdvd)
  omega

/-- The exact frequency is never halfway between two integers: 8000 brings more factors 2 than an
odd number can. -/
theorem midpoint_ne_exactFrequency (n p : Nat) : (n : ℝ) + 1 / 2 ≠ exactFrequency p := by
  intro h
  have hpow := two_mul_exactFrequency_pow p
  rw [← h, mul_add, mul_one_div_cancel two_ne_zero] at hpow
  exact odd_pow_mul_ne n p (by exact_mod_cast hpow)

/-- The integer test compares the exact frequency with the midpoint below `n + 1`. -/
theorem frequencyAtLeast_succ_iff (p n : Nat) :
    frequencyAtLeast p (n + 1) = true ↔ (n : ℝ) + 1 / 2 ≤ exactFrequency p := by
  have hodd : 2 * (n + 1) - 1 = 2 * n + 1 := by omega
  have hf := exactFrequency_nonneg p
  calc frequencyAtLeast p (n + 1) = true
    _ ↔ (2 * n + 1) ^ 48 * 2 ^ 64 ≤ 8000 ^ 48 * 2 ^ p := by
      rw [frequencyAtLeast, hodd, decide_eq_true_iff]
    _ ↔ (2 * (n : ℝ) + 1) ^ 48 * 2 ^ 64 ≤ (2 * exactFrequency p) ^ 48 * 2 ^ 64 := by
      rw [two_mul_exactFrequency_pow]
      exact_mod_cast Iff.rfl
    _ ↔ 2 * (n : ℝ) + 1 ≤ 2 * exactFrequency p := by
      rw [mul_le_mul_iff_left₀ (by positivity),
        pow_le_pow_iff_left₀ (by positivity) (by positivity) (by norm_num)]
    _ ↔ (n : ℝ) + 1 / 2 ≤ exactFrequency p := by
      constructor <;> intro h <;> linarith

/-- The search keeps a number the test accepts, and a bound it refuses, `2 ^ k` apart. -/
theorem frequencySearch_spec {p k acc : Nat} (hlo : frequencyAtLeast p acc = true)
    (hhi : ¬ frequencyAtLeast p (acc + 2 ^ k) = true) :
    frequencyAtLeast p (frequencySearch p k acc) = true ∧
      ¬ frequencyAtLeast p (frequencySearch p k acc + 1) = true := by
  induction k generalizing acc with
  | zero => exact ⟨hlo, hhi⟩
  | succ k ih =>
    rw [frequencySearch]
    split
    next h =>
      refine ih h ?_
      rwa [Nat.add_assoc, ← Nat.two_mul, ← Nat.pow_succ']
    next h => exact ih hlo h

theorem frequencyAtLeast_zero (p : Nat) : frequencyAtLeast p 0 = true := by
  simp [frequencyAtLeast]

/-- Every frequency is above 1/2. -/
theorem frequencyAtLeast_one (p : Nat) : frequencyAtLeast p 1 = true := by
  refine decide_eq_true ?_
  calc (2 * 1 - 1) ^ 48 * 2 ^ 64 ≤ 8000 ^ 48 := by norm_num
    _ ≤ 8000 ^ 48 * 2 ^ p := Nat.le_mul_of_pos_right _ (Nat.two_pow_pos p)

/-- No pitch of a byte reaches the end of the search range. -/
theorem not_frequencyAtLeast_two_pow {p : Nat} (hp : p < 256) :
    ¬ frequencyAtLeast p (2 ^ 17) = true := by
  rw [frequencyAtLeast, decide_eq_true_iff, Nat.not_le]
  calc 8000 ^ 48 * 2 ^ p ≤ 8000 ^ 48 * 2 ^ 256 :=
        Nat.mul_le_mul_left _ (Nat.pow_le_pow_right (by decide) hp.le)
    _ < (2 * 2 ^ 17 - 1) ^ 48 * 2 ^ 64 := by norm_num

/-- For every pitch the search ends at a positive integer that the test accepts, and it refuses the
next one. -/
theorem exists_soundFrequencyOf_eq (b : Byte) : ∃ n, soundFrequencyOf b = n + 1 ∧
    frequencyAtLeast b.toNat (n + 1) = true ∧ ¬ frequencyAtLeast b.toNat (n + 2) = true := by
  obtain ⟨hlo, hhi⟩ : frequencyAtLeast b.toNat (soundFrequencyOf b) = true ∧
      ¬ frequencyAtLeast b.toNat (soundFrequencyOf b + 1) = true :=
    frequencySearch_spec (frequencyAtLeast_zero b.toNat)
      (by rw [Nat.zero_add]; exact not_frequencyAtLeast_two_pow b.isLt)
  cases h : soundFrequencyOf b with
  | zero => rw [h] at hhi; exact absurd (frequencyAtLeast_one _) hhi
  | succ n => rw [h] at hlo hhi; exact ⟨n, rfl, hlo, hhi⟩

/-- Settles O23: the exact frequency lies between the midpoints below and above the integer found,
and is not the lower one. -/
theorem soundFrequencyIsTheNearestInteger : Obligations.SoundFrequencyIsTheNearestInteger := by
  intro s
  obtain ⟨n, hn, hlo, hhi⟩ := exists_soundFrequencyOf_eq s.pitch
  rw [frequencyAtLeast_succ_iff] at hlo hhi
  have habove := lt_of_le_of_ne hlo (midpoint_ne_exactFrequency n _)
  change |(soundFrequencyOf s.pitch : ℝ) - exactFrequency s.pitch.toNat| < 1 / 2
  rw [hn, abs_lt]
  push_cast at hhi ⊢
  constructor <;> linarith

end Sys2Proof.Machine
end

section
/-! SUPPORT. Faults and the halted machine (60_exceptions.md R220 to R229, R247): every event
ends in a next state, a step that faults changes nothing but the record, a halted machine waits for
`reset`, and a load that does not fit is refused. -/

namespace Sys2Proof.Machine

/-! ## Every event has a next state -/

theorem State.stepInstr_next (s : State) : ∃ t, s.stepInstr = .next t := by
  cases hf : s.fault with
  | some r => exact ⟨s, State.stepInstr_halted hf⟩
  | none =>
    cases hi : s.fetchInstr with
    | ok i => rw [State.stepInstr_ok hf hi]; exact exec_next i s
    | error f => exact ⟨s.recorded f, State.stepInstr_error hf hi⟩

theorem State.event_next (s : State) (e : HostEvent) : ∃ t, s.event e = .next t := by
  cases e
  case step kf => exact State.stepInstr_next _
  all_goals exact ⟨_, rfl⟩

/-- Settles O8: a `step` ends in the state of its fetch, its instruction or its fault, and the other
events are functions of the state. -/
theorem everyTransitionHasANextState : Obligations.EveryTransitionHasANextState := by
  intro s
  cases hs : s.schedule with
  | nil => rw [step_nil hs]; exact s.stepInstr_next
  | cons e es => rw [step_cons hs]; exact State.event_next _ e

/-! ## What becomes of the fault record -/

/-- An instruction that ends with a fault where there was none has recorded it and changed nothing
else (R224); EXIT, a reset, ends with none (R115). -/
theorem exec_recorded {i : Instr} {s t : State} {r : FaultRecord} (hf : s.fault = none)
    (h : exec i s = .next t) (hr : t.fault = some r) : ∃ f, t = s.recorded f := by
  by_cases hx : i = .exit
  · subst hx; rw [exec_exit] at h; cases h; cases hr
  · exact (exec_frame h hx).resolve_left fun hframe =>
      Option.some_ne_none r (hr.symm.trans (hframe.fault.trans hf))

theorem State.stepInstr_recorded {s t : State} {r : FaultRecord} (hf : s.fault = none)
    (h : s.stepInstr = .next t) (hr : t.fault = some r) : ∃ f, t = s.recorded f := by
  rcases State.stepInstr_cases h with ⟨rfl, -⟩ | ⟨i, -, -, hx⟩ | ⟨f, -, -, rfl⟩
  · exact absurd (hr.symm.trans hf) (Option.some_ne_none r)
  · exact exec_recorded hf hx hr
  · exact ⟨f, rfl⟩

theorem State.loadEvent_fault (s : State) (bs : List Byte) : (s.loadEvent bs).fault = s.fault := by
  rcases s.loadEvent_cases bs with hl | ⟨-, hl⟩ <;> rw [hl]

theorem State.setKey_fault (s : State) (n : Nat) (b : Bool) : (s.setKey n b).fault = s.fault := by
  rw [State.setKey_eq]

/-- Of the host's events `reset` clears the record, `step` runs an instruction, and the others leave
the record as it is (R226). -/
theorem State.event_fault_cases {s t : State} {e : HostEvent} (h : s.event e = .next t) :
    (∃ kf, e = .step kf ∧ State.stepInstr { s with keyFrameIn := kf } = .next t) ∨
    (e = .reset ∧ t.fault = none) ∨ t.fault = s.fault := by
  cases e
  case step kf => exact .inl ⟨kf, rfl, h⟩
  case reset => cases h; exact .inr (.inl ⟨rfl, s.resetEvent_fault⟩)
  case tickTimers => cases h; exact .inr (.inr s.tickTimers_fault)
  case setKey n b => cases h; exact .inr (.inr (s.setKey_fault n b))
  case load bs => cases h; exact .inr (.inr (s.loadEvent_fault bs))

/-- An event that ends with a fault where there was none is a `step` that recorded it. -/
theorem State.event_recorded {s t : State} {e : HostEvent} {r : FaultRecord} (hf : s.fault = none)
    (h : s.event e = .next t) (hr : t.fault = some r) :
    ∃ kf f, t = State.recorded { s with keyFrameIn := kf } f := by
  rcases State.event_fault_cases h with ⟨kf, -, hstep⟩ | ⟨-, hnone⟩ | hsame
  · exact ⟨kf, State.stepInstr_recorded (s := { s with keyFrameIn := kf }) hf hstep hr⟩
  · exact absurd (hr.symm.trans hnone) (Option.some_ne_none r)
  · exact absurd (hr.symm.trans (hsame.trans hf)) (Option.some_ne_none r)

/-- Settles O9: only a `step` records a fault, and it does so in the state from which it started,
which is `s` but for the host's inputs. -/
theorem faultsArePrecise : Obligations.FaultsArePrecise := by
  intro s t r hf ht hr
  obtain ⟨es, kf, f, rfl⟩ : ∃ es kf f,
      t = State.recorded { s with schedule := es, keyFrameIn := kf } f := by
    cases hs : s.schedule with
    | nil =>
      rw [step_nil hs] at ht
      exact ⟨s.schedule, s.keyFrameIn, State.stepInstr_recorded hf ht hr⟩
    | cons e es =>
      rw [step_cons hs] at ht
      exact ⟨es, State.event_recorded (s := { s with schedule := es }) hf ht hr⟩
  cases hr
  exact ⟨rfl, rfl⟩

/-! ## The halted machine -/

/-- A halted machine takes a scheduled `step` off the schedule, with its input, and nothing more. -/
theorem step_scheduled_halted {s : State} {r : FaultRecord} {kf : Bool} {es : List HostEvent}
    (hf : s.fault = some r) (hs : s.schedule = .step kf :: es) :
    step s = .next { s with schedule := es, keyFrameIn := kf } :=
  (step_cons hs).trans
    (State.stepInstr_halted (s := { s with schedule := es, keyFrameIn := kf }) hf)

/-- Every event but `reset` keeps the record of a halted machine (R226). -/
theorem State.event_keeps_record {s t : State} {e : HostEvent} {r : FaultRecord}
    (hf : s.fault = some r) (he : e ≠ .reset) (h : s.event e = .next t) : t.fault = some r := by
  rcases State.event_fault_cases h with ⟨kf, -, hstep⟩ | ⟨hreset, -⟩ | hsame
  · rw [State.stepInstr_halted (s := { s with keyFrameIn := kf }) hf] at hstep
    cases hstep
    exact hf
  · exact absurd hreset he
  · exact hsame.trans hf

/-- Settles O10: a halted `step` ends where it began, so the record outlives every event but
`reset`. -/
theorem haltedUntilReset : Obligations.HaltedUntilReset := by
  intro s t r hf ht
  cases hs : s.schedule with
  | nil =>
    rw [step_nil hs, State.stepInstr_halted hf] at ht
    cases ht
    exact ⟨fun _ => rfl, nofun, fun _ => hf, nofun⟩
  | cons e es =>
    refine ⟨nofun, fun kf es' he => ?_, fun hn => ?_, fun es' he => ?_⟩
    · rw [step_scheduled_halted hf (hs.trans he)] at ht
      cases ht
      rfl
    · rw [step_cons hs] at ht
      have he : e ≠ .reset := fun he => hn es (congrArg (· :: es) he)
      exact State.event_keeps_record (s := { s with schedule := es }) hf he ht
    · rw [step_cons (hs.trans he)] at ht
      cases ht
      exact State.resetEvent_fault _

/-! ## Load -/

/-- Settles O21: an image that fits is a block written at LOAD_BASE, and a refused one writes
nothing. -/
theorem loadWritesTheImageOrNothing : Obligations.LoadWritesTheImageOrNothing := by
  intro s bs es h hs
  refine ⟨_, step_cons hs, fun hfit => ?_, fun hlong => ?_⟩
  · have hbase : loadBase ≤ s.memSize := loadBase_le s.config.variant
    have hend : loadBase + bs.length ≤ s.memSize :=
      (Nat.add_le_add_left hfit loadBase).trans (Nat.add_sub_of_le hbase).le
    rw [State.loadEvent_ok (s := { s with schedule := es }) hfit]
    exact ⟨fun k hk => State.byteAt_writeBytes_inside h.memory hend hk,
      fun a ha => State.byteAt_writeBytes_outside ha, rfl⟩
  · exact ⟨State.load_error hlong, State.loadEvent_refused hlong⟩

end Sys2Proof.Machine
end

section
/-! SUPPORT. The host's `reset()` (70_reset_and_hazards.md R251): one transition, to a fresh
construction in the same configuration. -/

namespace Sys2Proof.Machine

/-- A scheduled `reset()` is taken off the schedule before the state is reset, halted or not
(R251; log 5). -/
theorem step_scheduled_reset {s : State} {es : List HostEvent} (h : s.schedule = .reset :: es) :
    step s = .next (State.resetEvent { s with schedule := es }) := step_cons h

/-- Settles O19: the transition is the reset of the state whose schedule is `es`, which keeps the
keys. -/
theorem resetReinitialisesAllButKeys : Obligations.ResetReinitialisesAllButKeys := by
  intro s es hs
  refine ⟨_, step_scheduled_reset hs, ?_, ?_⟩
  · exact State.resetEvent_keys { s with schedule := es }
  · rfl

end Sys2Proof.Machine
end
